-- ==== Sys2Proof/Word.lean ====
section
/-! DEFINITION. The word types of the CORE: the byte is the unit of every buffer (00_scope R12, `BYTE`), and the
encoder's window and the header value are 32-bit words. All other quantities are naturals (00_scope R15). -/

namespace Sys2Proof

/-- The unit of every buffer (00_scope R12, R14). -/
abbrev Byte := BitVec 8

/-- A 32-bit word: the encoder's window (41_matchfinder R151) and the header value (40_varint R133). -/
abbrev Word32 := BitVec 32

end Sys2Proof
end

