-- ==== Sys2Proof/Config.lean ====
section
/-! DEFINITION. The implementation parameters the spec leaves OPEN (00_scope R12, R13) and the free values. The
parameters are configuration, not state: no command changes them (10_state R20). -/

namespace Sys2Proof

/-- The OPEN parameters of the encoder (00_scope R12): the hash, the bounds of the table size, the stride rate
(`none` is the spec's `NONE`). -/
structure Params where
  hash : Word32 → Nat → Nat
  htMinBits : Nat
  htMaxBits : Nat
  skipShift : Option Nat

/-- The constraint on the OPEN parameters (00_scope R13). -/
structure Params.Ok (P : Params) : Prop where
  one_le_min : 1 ≤ P.htMinBits
  min_le_max : P.htMinBits ≤ P.htMaxBits
  max_le : P.htMaxBits ≤ 32
  hash_lt : ∀ w k, P.hash w k < 2 ^ k

namespace Config

/-- UNINTERPRETED (log 9): any function; the hash in force is this one reduced to the table (00_scope R13). -/
opaque rawHash : Word32 → Nat → Nat

/-- UNINTERPRETED (log 9): selects `HT_MIN_BITS`. -/
opaque rawMinBits : Nat

/-- UNINTERPRETED (log 9): selects how far `HT_MAX_BITS` lies above `HT_MIN_BITS`. -/
opaque rawSpanBits : Nat

/-- UNINTERPRETED (log 9): `SKIP_SHIFT`, a natural number or `NONE`. -/
opaque rawSkipShift : Option Nat

/-- FREE VALUE (log 7): what the IBUF byte at an address holds that nobody has written since the reset event with
this number (10_state R52). -/
opaque unwrittenIbuf : Nat → Nat → Byte

/-- FREE VALUE (log 7): the same for an OBUF byte. -/
opaque unwrittenObuf : Nat → Nat → Byte

/-- The parameters in force: any values that 00_scope R13 allows, and nothing more is known of them (log 9). Every
allowed choice is some value of the uninterpreted constants. -/
def params : Params where
  hash w k := rawHash w k % 2 ^ k
  htMinBits := 1 + rawMinBits % 32
  htMaxBits := 1 + rawMinBits % 32 + rawSpanBits % (32 - rawMinBits % 32)
  skipShift := rawSkipShift

end Config

end Sys2Proof
end

