-- ==== Sys2Proof/Syntax.lean ====
section
/-! DEFINITION. The instructions: one constructor per row of spec/opcode_table.json. A token's payload is not part of
the instruction: it stays in the stream and the instruction reads it (43_decoder R202, R210; log 22). -/

namespace Sys2Proof

/-- The rows of the opcode table, with the fields of 30_encoding R91 to R104 as they are encoded. -/
inductive Instr where
  /-- `HDR`: the header varint in `bytes` bytes (padded forms included, 30_encoding R112), value `value` (R91). -/
  | hdr (bytes : Nat) (value : Word32)
  /-- `LIT`: `m = tag[7:2] = len - 1` (R97). -/
  | lit (m : BitVec 6)
  /-- `LITX1`: `e` is the escape byte, `len - 1` (R98). -/
  | litx1 (e : BitVec 8)
  /-- `LITX2`: `e` is the little-endian value of the escape bytes, `len - 1` (R99). -/
  | litx2 (e : BitVec 16)
  /-- `LITX3` (R100). -/
  | litx3 (e : BitVec 24)
  /-- `LITX4` (R101). -/
  | litx4 (e : BitVec 32)
  /-- `COPY1`: `l = tag[4:2] = len - 4`, the 11-bit offset (R102). -/
  | copy1 (l : BitVec 3) (off : BitVec 11)
  /-- `COPY2`: `l = tag[7:2] = len - 1`, the 16-bit offset (R103). -/
  | copy2 (l : BitVec 6) (off : BitVec 16)
  /-- `COPY4`: `l = tag[7:2] = len - 1`, the 32-bit offset (R104). -/
  | copy4 (l : BitVec 6) (off : BitVec 32)
  /-- `COMPRESS`, command code 1 (R118). -/
  | compress
  /-- `UNCOMPRESS`, command code 2 (R118). -/
  | uncompress
  /-- `DECOMPRESS`, the second mnemonic of code 2 (R119). -/
  | decompress
  /-- `ULEN`, command code 3 (R118). -/
  | ulen
  /-- `VALIDATE`, command code 4 (R118). -/
  | validate
  deriving DecidableEq, Repr

/-- Where an instruction is found: the header by its position, a token by its tag in the stream, a command as the value
written to `CMD` (the column "space" of the opcode table). -/
inductive Space where
  | header
  | token
  | command
  deriving DecidableEq, Repr

/-- The space of each row of the opcode table. -/
def Instr.space : Instr → Space
  | .hdr _ _ => .header
  | .lit _ | .litx1 _ | .litx2 _ | .litx3 _ | .litx4 _ => .token
  | .copy1 _ _ | .copy2 _ _ | .copy4 _ _ => .token
  | .compress | .uncompress | .decompress | .ulen | .validate => .command

/-- The instruction with the alias resolved: `DECOMPRESS` is in every respect `UNCOMPRESS` (30_encoding R119). -/
def Instr.canonical : Instr → Instr
  | .decompress => .uncompress
  | i => i

end Sys2Proof
end

