-- ==== Sys2Proof/WellFormed.lean ====
section
/-! DEFINITION. Which terms of `Instr` an encoding of the spec can spell. -/

namespace Sys2Proof

/-- A header has 1 to 5 bytes and its value fits their 7-bit groups (30_encoding R91, R92, R112); an inline literal has
`m <= 59` (R97). Every other field is exactly as wide as its type. -/
def Instr.wf : Instr → Bool
  | .hdr j v => decide (1 ≤ j) && decide (j ≤ 5) && decide (v.toNat < 2 ^ (7 * j))
  | .lit m => decide (m.toNat ≤ 59)
  | .litx1 _ | .litx2 _ | .litx3 _ | .litx4 _ => true
  | .copy1 _ _ | .copy2 _ _ | .copy4 _ _ => true
  | .compress | .uncompress | .decompress | .ulen | .validate => true

end Sys2Proof
end

