-- ==== Sys2Proof/Decode.lean ====
section
/-! DEFINITION. The decoder (total on any bytes, rejecting by name), the encoder, the varint codec, the assembler's
pseudo-instructions, and the byte-order helpers they use (30_encoding, 40_varint R130, R131). -/

namespace Sys2Proof

/-! ## Byte order -/

/-- `le(b0, .., b(n-1))`, the little-endian value of a byte sequence (00_scope R14, 20_memory R64). -/
def le : List Byte → Nat
  | [] => 0
  | b :: bs => b.toNat + 256 * le bs

/-- The `n` low-order bytes of a value, lowest first (20_memory R64). -/
def toLe : Nat → Nat → List Byte
  | 0, _ => []
  | n + 1, v => BitVec.ofNat 8 (v % 256) :: toLe n (v / 256)

/-! ## Why a decoder rejects -/

/-- The decoder's rejections, each under its own name. -/
inductive DecodeError where
  /-- No byte stands where a tag is expected. -/
  | noTag
  /-- The escape or offset bytes of a token are cut by the end of the input (30_encoding R110 (d)). -/
  | fieldTruncated
  /-- The header is cut by the end of the input (R110 (a)). -/
  | varintTruncated
  /-- The fifth header byte has bit 7 set (R110 (a)). -/
  | varintTooLong
  /-- The fifth header byte has one of bits 6:4 set (R110 (b)). -/
  | varintOverflow
  /-- A command code that is reserved (R120) or wider than `CMD`. -/
  | reservedCommand
  deriving DecidableEq, Repr

/-! ## Varint codec -/

/-- The loop of `VarintEncode` (40_varint R130), with the number of continuation bytes still allowed. -/
def varintEncodeLoop : Nat → Nat → List Byte
  | 0, v => [BitVec.ofNat 8 v]
  | fuel + 1, v =>
    if 128 ≤ v then BitVec.ofNat 8 (v % 128 + 128) :: varintEncodeLoop fuel (v / 128)
    else [BitVec.ofNat 8 v]

/-- `VarintEncode(v)` for `v < 2^32` (40_varint R130): a value of 32 bits needs at most four continuation bytes. -/
def varintEncode (v : Nat) : List Byte := varintEncodeLoop 4 v

/-- `v` written as a varint of exactly `j` bytes, padded if need be (30_encoding R91, R112). -/
def varintBytes : Nat → Nat → List Byte
  | 0, _ => []
  | 1, v => [BitVec.ofNat 8 (v % 128)]
  | j + 2, v => BitVec.ofNat 8 (v % 128 + 128) :: varintBytes (j + 1) (v / 128)

/-- The loop of `VarintDecode` (40_varint R131) from byte `vk` on, `vv` being assembled: the value, the bytes consumed
and the rest, or the first failing check in the order truncated, too long, overflow (60_exceptions R266). The groups are
disjoint bits, so the spec's `|` is a sum. -/
def varintDecodeLoop : Nat → Nat → List Byte → Except DecodeError (Nat × Nat × List Byte)
  | _, _, [] => .error .varintTruncated
  | vk, vv, b :: bs =>
    if vk = 4 ∧ 128 ≤ b.toNat then .error .varintTooLong
    else if vk = 4 ∧ 16 ≤ b.toNat then .error .varintOverflow
    else if b.toNat < 128 then .ok (vv + b.toNat * 2 ^ (7 * vk), vk + 1, bs)
    else varintDecodeLoop (vk + 1) (vv + (b.toNat - 128) * 2 ^ (7 * vk)) bs

/-- `VarintDecode` at the start of a byte sequence (40_varint R131). -/
def varintDecode (bs : List Byte) : Except DecodeError (Nat × Nat × List Byte) := varintDecodeLoop 0 0 bs

/-! ## Decoder -/

/-- Take an `n`-byte little-endian field that follows the tag, or reject it as truncated (30_encoding R105, R110 (d)). -/
def takeField (n : Nat) (rest : List Byte) (mk : Nat → Instr) : Except DecodeError (Instr × List Byte) :=
  if n ≤ rest.length then .ok (mk (le (rest.take n)), rest.drop n) else .error .fieldTruncated

/-- The literal class, by `tag[7:2]` (30_encoding R97 to R101, R106). -/
def decodeLiteral (m : BitVec 6) (rest : List Byte) : Except DecodeError (Instr × List Byte) :=
  if m.toNat ≤ 59 then .ok (.lit m, rest)
  else if m.toNat = 60 then takeField 1 rest fun v => .litx1 (BitVec.ofNat 8 v)
  else if m.toNat = 61 then takeField 2 rest fun v => .litx2 (BitVec.ofNat 16 v)
  else if m.toNat = 62 then takeField 3 rest fun v => .litx3 (BitVec.ofNat 24 v)
  else takeField 4 rest fun v => .litx4 (BitVec.ofNat 32 v)

/-- A token: its tag selects the class by bits 1:0 (30_encoding R96, R102 to R106). Answers the instruction and the bytes
after its tag and fields. -/
def decodeToken : List Byte → Except DecodeError (Instr × List Byte)
  | [] => .error .noTag
  | t :: rest =>
    if t.extractLsb' 0 2 = 0#2 then decodeLiteral (t.extractLsb' 2 6) rest
    else if t.extractLsb' 0 2 = 1#2 then
      takeField 1 rest fun v => .copy1 (t.extractLsb' 2 3) (t.extractLsb' 5 3 ++ BitVec.ofNat 8 v)
    else if t.extractLsb' 0 2 = 2#2 then
      takeField 2 rest fun v => .copy2 (t.extractLsb' 2 6) (BitVec.ofNat 16 v)
    else takeField 4 rest fun v => .copy4 (t.extractLsb' 2 6) (BitVec.ofNat 32 v)

/-- The header, found by position (40_varint R131, R136). -/
def decodeHeader (bs : List Byte) : Except DecodeError (Instr × List Byte) :=
  match varintDecode bs with
  | .ok (v, c, rest) => .ok (.hdr c (BitVec.ofNat 32 v), rest)
  | .error e => .error e

/-- A value written to `CMD` (30_encoding R118, R120). The alias `DECOMPRESS` has no code of its own (R119). -/
def decodeCommand (c : BitVec 3) : Except DecodeError Instr :=
  if c = 1#3 then .ok .compress
  else if c = 2#3 then .ok .uncompress
  else if c = 3#3 then .ok .ulen
  else if c = 4#3 then .ok .validate
  else .error .reservedCommand

/-- The decoder of one space, on any bytes. A command is one byte that holds a 3-bit code. -/
def decode : Space → List Byte → Except DecodeError (Instr × List Byte)
  | .header, bs => decodeHeader bs
  | .token, bs => decodeToken bs
  | .command, [] => .error .reservedCommand
  | .command, b :: rest =>
    if b.toNat < 8 then
      match decodeCommand (b.extractLsb' 0 3) with
      | .ok i => .ok (i, rest)
      | .error e => .error e
    else .error .reservedCommand

/-! ## Encoder -/

/-- The bytes of an instruction, a literal's payload not included, from the tables of 30_encoding R91, R97 to R104 and
R118. -/
def encode : Instr → List Byte
  | .hdr j v => varintBytes j v.toNat
  | .lit m => [(m ++ 0#2 : BitVec 8)]
  | .litx1 e => 0xF0#8 :: toLe 1 e.toNat
  | .litx2 e => 0xF4#8 :: toLe 2 e.toNat
  | .litx3 e => 0xF8#8 :: toLe 3 e.toNat
  | .litx4 e => 0xFC#8 :: toLe 4 e.toNat
  | .copy1 l off => (off.extractLsb' 8 3 ++ l ++ 1#2 : BitVec 8) :: toLe 1 (off.extractLsb' 0 8).toNat
  | .copy2 l off => (l ++ 2#2 : BitVec 8) :: toLe 2 off.toNat
  | .copy4 l off => (l ++ 3#2 : BitVec 8) :: toLe 4 off.toNat
  | .compress => [1#8]
  | .uncompress => [2#8]
  | .decompress => [2#8]
  | .ulen => [3#8]
  | .validate => [4#8]

/-! ## Assembler pseudo-instructions (30_encoding R116) -/

/-- `LITERAL`: the shortest literal form that holds the length `L`, `1 <= L <= 2^32` (42_encoder R180). -/
def literalInstr (L : Nat) : Instr :=
  if L ≤ 60 then .lit (BitVec.ofNat 6 (L - 1))
  else if L - 1 < 2 ^ 8 then .litx1 (BitVec.ofNat 8 (L - 1))
  else if L - 1 < 2 ^ 16 then .litx2 (BitVec.ofNat 16 (L - 1))
  else if L - 1 < 2 ^ 24 then .litx3 (BitVec.ofNat 24 (L - 1))
  else .litx4 (BitVec.ofNat 32 (L - 1))

/-- `COPY`: the shortest copy class that holds both fields, `1 <= l <= 64` (42_encoder R182). -/
def copyInstr (off l : Nat) : Instr :=
  if 4 ≤ l ∧ l ≤ 11 ∧ off ≤ 2047 then .copy1 (BitVec.ofNat 3 (l - 4)) (BitVec.ofNat 11 off)
  else if off ≤ 65535 then .copy2 (BitVec.ofNat 6 (l - 1)) (BitVec.ofNat 16 off)
  else .copy4 (BitVec.ofNat 6 (l - 1)) (BitVec.ofNat 32 off)

/-- The loop of `EmitCopy` (42_encoder R181), with the number of pieces of 64 still allowed. -/
def matchInstrsLoop (off : Nat) : Nat → Nat → List Instr
  | 0, L => [copyInstr off L]
  | fuel + 1, L =>
    if 64 < L then copyInstr off 64 :: matchInstrsLoop off fuel (L - 64) else [copyInstr off L]

/-- `MATCH`: the copies of one match, pieces of 64 and then the rest, all with the same offset (42_encoder R181). -/
def matchInstrs (off L : Nat) : List Instr := matchInstrsLoop off (L / 64) L

/-! ## The opcode table's words -/

/-- The little-endian bytes of a table word, and the zero operand bytes above it. -/
def tableBytes (nbits w : Nat) : List Byte := toLe (max 5 ((nbits + 7) / 8)) (w % 2 ^ nbits)

/-- Which space a row of the opcode table is of, by the bits the table gives it: `HDR` has none (it is found by
position), a `CMD` value has 3, a tag has 8 (log 12). -/
def tableSpace (nbits : Nat) : Space :=
  if nbits = 0 then .header else if nbits < 8 then .command else .token

/-- The instruction the decoder reads from a word of the opcode table (log 12). -/
def decodeTableWord (nbits w : Nat) : Option Instr :=
  match decode (tableSpace nbits) (tableBytes nbits w) with
  | .ok (i, _) => some i
  | .error _ => none

end Sys2Proof
end

