-- ==== Sys2Proof/Machine/State.lean ====
section
/-! DEFINITION. The state of one CORE (10_state R20): registers, memories, the reasons a step can stop, and the state
after reset. Plain data throughout. -/

namespace Sys2Proof.Machine

/-! ## Enumerations of `STATUS` (10_state R23, 93_implementation_defined U7) -/

/-- `STATUS.STATE`. -/
inductive CmdState where
  | idle
  | busy
  | done
  deriving DecidableEq, Repr

/-- `STATUS.ERR`, the error class (60_exceptions R264). -/
inductive Err where
  | ok
  | inputTooLarge
  | malformedInput
  deriving DecidableEq, Repr

/-- `STATUS.CAUSE`, the diagnostic cause of a `MalformedInput` (60_exceptions R262, R265). -/
inductive Cause where
  | none
  | varintTruncated
  | varintTooLong
  | varintOverflow
  | fieldTruncated
  | literalTruncated
  | offsetZero
  | offsetRange
  | outputOverrun
  | lengthMismatch
  deriving DecidableEq, Repr

/-- The register `STATUS` by its fields. -/
structure Status where
  state : CmdState
  err : Err
  cause : Cause
  deriving DecidableEq, Repr

/-! ## Working registers. Cursors and lengths are naturals (00_scope R15, 10_state R33; log 4). -/

/-- `est` (10_state R31, R41). -/
inductive EncoderState where
  | scanning
  | emitting
  | done
  deriving DecidableEq, Repr

/-- The decoder registers (10_state R30); `ip` is the program counter (R35). -/
structure DecoderRegs where
  ulen : Nat
  ip : Nat
  op : Nat
  tag : Byte
  len : Nat
  off : Nat
  data : Nat
  dry : Bool
  deriving DecidableEq, Repr

/-- The encoder registers (10_state R31); `cand = none` is `EMPTY`. -/
structure EncoderRegs where
  n : Nat
  k : Nat
  cur : Nat
  lit : Nat
  miss : Nat
  h : Nat
  cand : Option Nat
  mlen : Nat
  dist : Nat
  wp : Nat
  est : EncoderState
  deriving DecidableEq, Repr

/-- The varint unit's scratch registers (10_state R32). -/
structure VarintRegs where
  vv : Nat
  vk : Nat
  deriving DecidableEq, Repr

/-! ## Memories -/

/-- Cells by address, strictly rising; an address that is not listed holds no value the model knows. -/
abbrev Cells (β : Type) := List (Nat × β)

/-- A byte memory, `IBUF` or `OBUF` (10_state R45, R46). -/
abbrev Memory := Cells Byte

/-- The hash table `HT`: an index that is not listed holds `EMPTY` (10_state R43, 41_matchfinder R154; log 6). -/
abbrev Table := Cells Nat

/-! ## Sequencing and the host -/

/-- Which part of the running command the CORE is at while `BUSY`; read in no other state (log 11). -/
inductive Activity where
  /-- `UNCOMPRESS` or `VALIDATE`, before `HDR` (43_decoder R200). -/
  | header
  /-- `UNCOMPRESS` or `VALIDATE`, in the token loop (43_decoder R200). -/
  | tokens
  /-- `COMPRESS`, after its header is written (42_encoder R170). -/
  | encode
  deriving DecidableEq, Repr

/-- A move of the host (10_state R22, R24, R45, R47; 70_reset R300, R303; log 2). -/
inductive HostMove where
  /-- The host leaves this step to the CORE. -/
  | pass
  /-- Poll `STATUS` until the CORE is not busy (R303 (1), (5)). -/
  | poll
  /-- Write `ILEN`. -/
  | writeIlen (v : BitVec 64)
  /-- Write one byte of `IBUF`. -/
  | writeIbuf (addr : BitVec 64) (b : Byte)
  /-- Write `CMD`. -/
  | writeCmd (c : BitVec 3)
  /-- The reset event (70_reset R300, R302). -/
  | reset
  deriving DecidableEq, Repr

/-! ## The state -/

/-- Everything the spec gives one CORE (10_state R20). `CMD` holds no value (R22) and so has no field. `activity`,
`host` and `epoch` are the model's own (logs 11, 2, 7). -/
structure State where
  status : Status
  ilen : BitVec 64
  olen : BitVec 64
  result : BitVec 32
  dec : DecoderRegs
  enc : EncoderRegs
  vc : VarintRegs
  ht : Table
  ibuf : Memory
  obuf : Memory
  activity : Activity
  host : List HostMove
  epoch : Nat
  deriving DecidableEq, Repr

/-! ## Why a step stops -/

/-- The faults. The spec has none (93_implementation_defined, part 2); the one below guards a state that no run reaches. -/
inductive Fault where
  /-- Raised by an encoder step that begins with `est = EMITTING`, for which 42_encoder R174 defines no step. SAFE: no
  run reaches it (log 10). -/
  | stepWhileEmitting
  deriving DecidableEq, Repr

/-- The refusals. -/
inductive Refusal where
  /-- An instruction that has no meaning yet; raised by `exec` only. SAFE. -/
  | notModelled (mnemonic : String)
  /-- The host writes `IBUF` or `ILEN` while the CORE is busy: the spec leaves it undefined (70_reset R310,
  93_implementation_defined U4; log 20). SAFE. -/
  | hostWriteWhileBusy
  deriving DecidableEq, Repr

/-! ## Reset -/

/-- The CORE right after reset (10_state R52, 70_reset R300): `STATUS`, `ILEN`, `OLEN` and `RESULT` are 0. DESIGN CHOICE
for what the spec leaves unspecified: logs 5 (working registers), 6 (`HT`), 7 (buffers), 2 and 11 (model's own). -/
def State.reset : State where
  status := { state := .idle, err := .ok, cause := .none }
  ilen := 0
  olen := 0
  result := 0
  dec := { ulen := 0, ip := 0, op := 0, tag := 0, len := 0, off := 0, data := 0, dry := false }
  enc := { n := 0, k := 0, cur := 0, lit := 0, miss := 0, h := 0, cand := .none, mlen := 0, dist := 0, wp := 0,
           est := .scanning }
  vc := { vv := 0, vk := 0 }
  ht := []
  ibuf := []
  obuf := []
  activity := .header
  host := []
  epoch := 0

end Sys2Proof.Machine
end

