-- ==== Sys2Proof/Machine/Memory.lean ====
section
/-! DEFINITION. The memories: reading and writing one cell, the canonical form, ranges of bytes, and the byte moves of
a literal and of a copy (20_memory R65, R66, R69; 43_decoder R210, R214). -/

namespace Sys2Proof.Machine

/-- The canonical form: addresses strictly rising, so that equal memories are equal lists. -/
abbrev Cells.wf {β : Type} (m : Cells β) : Prop := m.Pairwise fun a b => a.1 < b.1

/-- The canonical form of a byte memory. An unlisted address holds no known value, so no entry can repeat it (log 7). -/
abbrev Memory.wf (m : Memory) : Prop := Cells.wf m

/-- What a cell holds, if it is listed. -/
def Cells.lookup {β : Type} : Cells β → Nat → Option β
  | [], _ => none
  | (a, v) :: m, x => if x = a then some v else Cells.lookup m x

/-- Write one cell, keeping the order. -/
def Cells.write {β : Type} : Cells β → Nat → β → Cells β
  | [], x, v => [(x, v)]
  | (a, w) :: m, x, v =>
    if x < a then (x, v) :: (a, w) :: m
    else if x = a then (x, v) :: m
    else (a, w) :: Cells.write m x v

/-- Write consecutive cells in increasing address order (00_scope R16). -/
def Cells.writeAll {β : Type} : Cells β → Nat → List β → Cells β
  | m, _, [] => m
  | m, x, v :: vs => Cells.writeAll (Cells.write m x v) (x + 1) vs

/-- Drop the cells below an index: `HT[j] <- EMPTY` for `j` below it (42_encoder R171). -/
def Cells.clearBelow {β : Type} (m : Cells β) (bound : Nat) : Cells β := m.filter fun e => decide (bound ≤ e.1)

/-- `IBUF[a]`; a byte that nobody has written is a free value (10_state R52; log 7). -/
def State.ibufByte (s : State) (a : Nat) : Byte := (Cells.lookup s.ibuf a).getD (Config.unwrittenIbuf s.epoch a)

/-- A byte of an `OBUF` content; one that nobody has written is a free value (10_state R52; log 7). -/
def obufRead (epoch : Nat) (m : Memory) (a : Nat) : Byte := (Cells.lookup m a).getD (Config.unwrittenObuf epoch a)

/-- `OBUF[a]`. -/
def State.obufByte (s : State) (a : Nat) : Byte := obufRead s.epoch s.obuf a

/-- `MemRead(IBUF, a, n)` (00_scope R16). -/
def State.ibufRange (s : State) (a n : Nat) : List Byte := (List.range n).map fun i => s.ibufByte (a + i)

/-- The payload move of a literal (43_decoder R210): `OBUF[op + i] <- IBUF[data + i]` for `i = 0, 1, ..` in that order,
`count` bytes. -/
def moveLiteral (src : Nat → Byte) (data op : Nat) : Nat → Memory → Memory
  | 0, m => m
  | i + 1, m => Cells.write (moveLiteral src data op i m) (op + i) (src (data + i))

/-- One iteration of a copy: `OBUF[op + i] <- OBUF[op + i - off]`. -/
def copyByte (epoch op off i : Nat) (m : Memory) : Memory :=
  Cells.write m (op + i) (obufRead epoch m (op + i - off))

/-- The byte move of a copy (43_decoder R211, R214): iterations `i = 0, 1, ..` in that order, each reading what the
earlier ones wrote. -/
def moveCopy (epoch op off : Nat) : Nat → Memory → Memory
  | 0, m => m
  | i + 1, m => copyByte epoch op off i (moveCopy epoch op off i m)

end Sys2Proof.Machine
end

