-- ==== Sys2Proof/Machine/Flags.lean ====
section
/-! DEFINITION. The status register: its codes, its word, and the registers as the host reads them. The CORE has no
arithmetic flags (10_state R40). -/

namespace Sys2Proof.Machine

/-- `STATUS.STATE` codes (10_state R23). -/
def CmdState.code : CmdState → BitVec 2
  | .idle => 0
  | .busy => 1
  | .done => 2

/-- `STATUS.ERR` codes (60_exceptions R264). -/
def Err.code : Err → BitVec 2
  | .ok => 0
  | .inputTooLarge => 1
  | .malformedInput => 2

/-- `STATUS.CAUSE` codes (60_exceptions R262, R265). -/
def Cause.code : Cause → BitVec 4
  | .none => 0
  | .varintTruncated => 1
  | .varintTooLong => 2
  | .varintOverflow => 3
  | .fieldTruncated => 4
  | .literalTruncated => 5
  | .offsetZero => 6
  | .offsetRange => 7
  | .outputOverrun => 8
  | .lengthMismatch => 9

/-- The register `STATUS` as one word: `STATE` in bits 1:0, `ERR` in 3:2, `CAUSE` in 7:4 (10_state R23). -/
def Status.word (st : Status) : BitVec 8 := st.cause.code ++ st.err.code ++ st.state.code

/-- The cause a rejected header or token raises (60_exceptions R262). A missing tag is a stream that ends early
(43_decoder R216); a reserved command raises nothing (30_encoding R120). -/
def causeOf : DecodeError → Cause
  | .noTag => .lengthMismatch
  | .fieldTruncated => .fieldTruncated
  | .varintTruncated => .varintTruncated
  | .varintTooLong => .varintTooLong
  | .varintOverflow => .varintOverflow
  | .reservedCommand => .none

/-- The registers by name (10_state R21). -/
inductive Reg where
  | cmd
  | status
  | ilen
  | olen
  | result
  deriving DecidableEq, Repr

/-- The register numbers (10_state R21). -/
def Reg.number : Reg → Nat
  | .cmd => 0
  | .status => 1
  | .ilen => 2
  | .olen => 3
  | .result => 4

/-- What a host read shows (10_state R46, R47; 93_implementation_defined U3, U4; log 18). -/
inductive Observed (α : Type) where
  /-- The value the spec gives. -/
  | value (v : α)
  /-- The spec gives the read no value. -/
  | unspecified
  /-- The host must not read now. -/
  | notAllowed
  deriving DecidableEq, Repr

/-- A host read of a register: `CMD` reads as 0 (10_state R22); while busy the host may read `STATUS` only (R47). -/
def State.readReg (s : State) : Reg → Observed (BitVec 64)
  | .status => .value (s.status.word.setWidth 64)
  | .cmd => if s.status.state = .busy then .notAllowed else .value 0
  | .ilen => if s.status.state = .busy then .notAllowed else .value s.ilen
  | .olen => if s.status.state = .busy then .notAllowed else .value s.olen
  | .result => if s.status.state = .busy then .notAllowed else .value (s.result.setWidth 64)

/-- A host read of `OBUF`: a result byte after a success, and no specified value anywhere else (10_state R46, R47). -/
def State.readObuf (s : State) (a : Nat) : Observed Byte :=
  if s.status.state = .busy then .notAllowed
  else if s.status.state = .done ∧ s.status.err = .ok ∧ a < s.olen.toNat then .value (s.obufByte a)
  else .unspecified

end Sys2Proof.Machine
end

