-- ==== Sys2Proof/Machine/Ops.lean ====
section
/-! DEFINITION. The operations shared by the meanings: launching a command, raising an error and converting it,
completing, and applying a literal or a copy (10_state R53; 60_exceptions R270, R280; 43_decoder R210, R211). -/

namespace Sys2Proof.Machine

/-! ## Launch -/

/-- The initialisation common to all commands (10_state R53). -/
def State.beginCommand (s : State) : State :=
  { s with status := { state := .busy, err := .ok, cause := .none }, olen := 0, result := 0 }

/-- Launch a command: while `BUSY` the write of `CMD` launches nothing and changes nothing (10_state R22, 70_reset R316;
log 1); else the common initialisation and then the command's own body. -/
def State.launch (s : State) (body : State → State) : State :=
  if s.status.state = .busy then s else body s.beginCommand

/-! ## Errors: entry (60_exceptions R270). There is no handler and no return instruction (R273). -/

/-- What a raise does (60_exceptions R270): the command ends with no output. -/
def State.raise (s : State) (err : Err) (cause : Cause) : State :=
  { s with status := { state := .done, err := err, cause := cause }, olen := 0, result := 0 }

/-- The end of `VALIDATE`, with its answer (44_peek_validate R242, `finish`). -/
def State.finishValidate (s : State) (valid : Bool) : State :=
  { s with status := { state := .done, err := .ok, cause := .none }, olen := 0, result := if valid then 1 else 0 }

/-- `raise MalformedInput(cause)` in the decoder body: `VALIDATE` converts it to the answer 0, `UNCOMPRESS` reports it
(60_exceptions R270, R280). -/
def State.malformed (s : State) (cause : Cause) : State :=
  if s.dec.dry then s.finishValidate false else s.raise .malformedInput cause

/-! ## Completion -/

/-- A successful `UNCOMPRESS` (43_decoder R218). -/
def State.completeUncompress (s : State) : State :=
  { s with status := { s.status with state := .done }, olen := BitVec.ofNat 64 s.dec.ulen }

/-- A successful `COMPRESS` (42_encoder R179). -/
def State.completeCompress (s : State) : State :=
  { s with status := { s.status with state := .done }, olen := BitVec.ofNat 64 s.enc.wp }

/-- The end-of-stream check and what follows it (43_decoder R216, R218; 44_peek_validate R242). -/
def State.endOfStream (s : State) : State :=
  if s.dec.op = s.dec.ulen then
    if s.dec.dry then s.finishValidate true else s.completeUncompress
  else s.malformed .lengthMismatch

/-! ## Applying a token: every check before the first write (43_decoder R210, R211; 70_reset R313) -/

/-- `ApplyLiteral` (43_decoder R210), reading `len`, `data`, `op`, `ulen`, `ILEN`; no payload move in dry mode (R221). -/
def State.applyLiteral (s : State) : State :=
  if s.dec.op + s.dec.len ≤ s.dec.ulen then
    if s.dec.data + s.dec.len ≤ s.ilen.toNat then
      { s with
        obuf := if s.dec.dry then s.obuf else moveLiteral s.ibufByte s.dec.data s.dec.op s.dec.len s.obuf
        dec := { s.dec with ip := s.dec.data + s.dec.len, op := s.dec.op + s.dec.len } }
    else s.malformed .literalTruncated
  else s.malformed .outputOverrun

/-- `ApplyCopy` (43_decoder R211), reading `len`, `off`, `op`, `ulen`; `nxt` is where the token ends. -/
def State.applyCopy (s : State) (nxt : Nat) : State :=
  if s.dec.off ≠ 0 then
    if s.dec.off ≤ s.dec.op then
      if s.dec.op + s.dec.len ≤ s.dec.ulen then
        { s with
          obuf := if s.dec.dry then s.obuf else moveCopy s.epoch s.dec.op s.dec.off s.dec.len s.obuf
          dec := { s.dec with ip := nxt, op := s.dec.op + s.dec.len } }
      else s.malformed .outputOverrun
    else s.malformed .offsetRange
  else s.malformed .offsetZero

/-! ## The encoder's output -/

/-- `Put(bytes)`: append to the output at `wp` (42_encoder R172). -/
def State.put (s : State) (bs : List Byte) : State :=
  { s with obuf := Cells.writeAll s.obuf s.enc.wp bs, enc := { s.enc with wp := s.enc.wp + bs.length } }

end Sys2Proof.Machine
end

