-- ==== Sys2Proof/Machine/Operands.lean ====
section
/-! DEFINITION. Operand forms of the tokens: the lengths the tags and escape bytes give, the checks on field bytes, and
the bytes a fetch reads (30_encoding R105, R107; 43_decoder R202 to R209). -/

namespace Sys2Proof.Machine

/-- The field check of a token with `f` field bytes (43_decoder R203 to R209): they must lie in the input. -/
def State.requireFields (s : State) (f : Nat) (body : State → State) : State :=
  if s.dec.ip + 1 + f ≤ s.ilen.toNat then body s else s.malformed .fieldTruncated

/-- The rest of a literal with `f` escape bytes and length `len` (43_decoder R202 to R206). -/
def State.literal (s : State) (f len : Nat) : State :=
  ({ s with dec := { s.dec with len := len, data := s.dec.ip + 1 + f } } : State).applyLiteral

/-- The rest of a copy with `w` offset bytes (43_decoder R207 to R209). -/
def State.copy (s : State) (w len off : Nat) : State :=
  ({ s with dec := { s.dec with len := len, off := off } } : State).applyCopy (s.dec.ip + 1 + w)

/-- The header bytes a fetch may read: at most five, all below `ILEN` (40_varint R131, 20_memory R61). -/
def State.headerBytes (s : State) : List Byte := s.ibufRange 0 (min 5 s.ilen.toNat)

/-- The tag and field bytes a token fetch may read: at most five from `ip`, all below `ILEN` (30_encoding R105,
20_memory R61). -/
def State.tokenBytes (s : State) : List Byte := s.ibufRange s.dec.ip (min 5 (s.ilen.toNat - s.dec.ip))

/-- `Window(p)`: four input bytes as a little-endian word (41_matchfinder R151). -/
def State.window (s : State) (p : Nat) : Word32 := BitVec.ofNat 32 (le (s.ibufRange p 4))

end Sys2Proof.Machine
end

