-- ==== Sys2Proof/Machine/MatchFinder.lean ====
section
/-! DEFINITION. The hash-match finder (41_matchfinder R150 to R160), for any OPEN parameters. -/

namespace Sys2Proof.Machine

/-- `HASH_DEFAULT(w, k)` (41_matchfinder R152). -/
def hashDefault (w : Word32) (k : Nat) : Nat := (w * 0x1E35A7BD#32).toNat >>> (32 - k)

/-- The default parameters, those of the spec's test vectors (00_scope R12). -/
def defaultParams : Params where
  hash := hashDefault
  htMinBits := 8
  htMaxBits := 14
  skipShift := some 5

/-- The loop of `KBITS` (41_matchfinder R153), with the number of increments still allowed. -/
def kbitsLoop (P : Params) (n : Nat) : Nat → Nat → Nat
  | 0, k => k
  | fuel + 1, k => if k < P.htMaxBits ∧ 2 ^ k < n then kbitsLoop P n fuel (k + 1) else k

/-- `KBITS(n)`: the size of the table, as a power of two (41_matchfinder R153). -/
def kbits (P : Params) (n : Nat) : Nat := kbitsLoop P n (P.htMaxBits - P.htMinBits) P.htMinBits

/-- The number of equal bytes from two positions on, at most `bound` (41_matchfinder R156). -/
def commonRun (rd : Nat → Byte) : Nat → Nat → Nat → Nat
  | 0, _, _ => 0
  | bound + 1, c, p => if rd c = rd p then commonRun rd bound (c + 1) (p + 1) + 1 else 0

/-- `Lookup(cur)` (41_matchfinder R155). -/
def State.lookupStep (P : Params) (s : State) : State :=
  let h := P.hash (s.window s.enc.cur) s.enc.k
  { s with enc := { s.enc with h := h, cand := Cells.lookup s.ht h } }

/-- `Validate(cand, cur)` (41_matchfinder R156); with no candidate `dist` is not written. -/
def State.validateStep (s : State) : State :=
  match s.enc.cand with
  | none => { s with enc := { s.enc with mlen := 0 } }
  | some c =>
    { s with
      enc := { s.enc with
        mlen := commonRun s.ibufByte (s.enc.n - s.enc.cur) c s.enc.cur
        dist := s.enc.cur - c } }

/-- `Insert(cur)` (41_matchfinder R157). -/
def State.insertStep (s : State) : State := { s with ht := Cells.write s.ht s.enc.h s.enc.cur }

/-- `Probe(cur)` (41_matchfinder R158): the table is read before it is written (70_reset R312). -/
def State.probe (P : Params) (s : State) : State := (s.lookupStep P).validateStep.insertStep

/-- `Stride(miss)` (41_matchfinder R159). -/
def stride (P : Params) (miss : Nat) : Nat :=
  match P.skipShift with
  | some shift => 1 + miss >>> shift
  | none => 1

end Sys2Proof.Machine
end

