-- ==== Sys2Proof/Machine/Encoder.lean ====
section
/-! DEFINITION. The block encoder (42_encoder R170 to R182), for any OPEN parameters. -/

namespace Sys2Proof.Machine

/-- `EmitLiteral(s, L)` (42_encoder R180): the shortest literal token and its payload. -/
def State.emitLiteral (s : State) (start L : Nat) : State := s.put (encode (literalInstr L) ++ s.ibufRange start L)

/-- `EmitCopy(off, L)` (42_encoder R181, R182): the copies of one match. -/
def State.emitCopy (s : State) (off L : Nat) : State := s.put ((matchInstrs off L).flatMap encode)

/-- `EndOfInput` (42_encoder R175). -/
def State.endOfInput (s : State) : State :=
  let t := if s.enc.lit < s.enc.n then s.emitLiteral s.enc.lit (s.enc.n - s.enc.lit) else s
  { t with enc := { t.enc with lit := t.enc.n, est := .done } }

/-- `MissStep` (42_encoder R176): the stride is that of `miss` before the increment. -/
def State.missStep (P : Params) (s : State) : State :=
  { s with enc := { s.enc with cur := s.enc.cur + stride P s.enc.miss, miss := s.enc.miss + 1 } }

/-- The tokens of one match: the pending literal, if any, and then the copies (42_encoder R177, 70_reset R314). -/
def State.emitMatch (s : State) : State :=
  (if s.enc.lit < s.enc.cur then s.emitLiteral s.enc.lit (s.enc.cur - s.enc.lit) else s).emitCopy s.enc.dist s.enc.mlen

/-- `MatchStep` (42_encoder R177). -/
def State.matchStep (s : State) : State :=
  let t := s.emitMatch
  { t with
    enc := { t.enc with
      cur := s.enc.cur + s.enc.mlen
      lit := s.enc.cur + s.enc.mlen
      miss := 0
      est := .scanning } }

/-- `Step`, for `est = SCANNING` (42_encoder R174). -/
def State.scanStep (P : Params) (s : State) : State :=
  if s.enc.n < s.enc.cur + 4 then s.endOfInput
  else
    let t := s.probe P
    if 4 ≤ t.enc.mlen then t.matchStep else t.missStep P

/-- The encoder's initialisation and its header (42_encoder R171, R172). The varint unit is left at the last group
(10_state R32; log 15). -/
def State.beginEncode (P : Params) (s : State) : State :=
  let n := s.ilen.toNat
  let k := kbits P n
  let header := varintEncode n
  let t : State :=
    { s with
      enc := { s.enc with n := n, k := k, cur := 0, lit := 0, miss := 0, wp := 0, est := .scanning }
      ht := Cells.clearBelow s.ht (2 ^ k)
      vc := { vv := n / 128 ^ (header.length - 1), vk := header.length - 1 }
      activity := .encode }
  t.put header

/-- `COMPRESS` up to its first `Step`: admission, initialisation, header (42_encoder R170). -/
def State.startCompress (P : Params) (s : State) : State :=
  if s.ilen.toNat ≤ 2 ^ 32 - 1 then s.beginEncode P else s.raise .inputTooLarge .none

/-- One step of a running `COMPRESS`: the loop of 42_encoder R170, or its completion. `Step` is defined for
`est = SCANNING` only (R174; log 10). -/
def State.encoderStep (P : Params) (s : State) : Host.Outcome State Fault Refusal :=
  match s.enc.est with
  | .scanning => .next (s.scanStep P)
  | .emitting => .fault .stepWhileEmitting
  | .done => .next s.completeCompress

end Sys2Proof.Machine
end

