-- ==== Sys2Proof/Machine/Commands.lean ====
section
/-! DEFINITION. The header instruction and the commands (40_varint R136, 42_encoder R170, 43_decoder R200,
44_peek_validate R240, R242). A command's meaning is its launch; `COMPRESS`, `UNCOMPRESS` and `VALIDATE` then run on in
the steps that follow while `BUSY` (00_scope R8; log 3). -/

namespace Sys2Proof.Machine

/-- `HDR` (40_varint R136): the header of `bytes` bytes declares `value`; the bytes must lie in the input (R131). The
varint unit is left at the last byte (10_state R32; log 15). -/
def execHdr (bytes : Nat) (value : Word32) (s : State) : Host.Outcome State Fault Refusal :=
  .next
    (if bytes ≤ s.ilen.toNat then
      { s with
        dec := { s.dec with ulen := value.toNat, ip := bytes, op := 0 }
        vc := { vv := value.toNat, vk := bytes - 1 }
        activity := .tokens }
    else s.malformed .varintTruncated)

/-- The start of the decoder body, in dry mode or not (43_decoder R200, R221). -/
def State.startDecode (s : State) (dry : Bool) : State :=
  { s with dec := { s.dec with dry := dry }, activity := .header }

/-- `ULEN` after its launch (44_peek_validate R240): `RESULT` is the header value, or the header's error is raised. -/
def State.peekLength (s : State) : State :=
  match varintDecode s.headerBytes with
  | .ok (v, c, _) =>
    { s with
      status := { s.status with state := .done }
      result := BitVec.ofNat 32 v
      vc := { vv := v, vk := c - 1 } }
  | .error e => s.raise .malformedInput (causeOf e)

/-- `COMPRESS` (42_encoder R170). -/
def execCompress (s : State) : Host.Outcome State Fault Refusal :=
  .next (s.launch fun t => t.startCompress Config.params)

/-- `UNCOMPRESS` (43_decoder R200). -/
def execUncompress (s : State) : Host.Outcome State Fault Refusal :=
  .next (s.launch fun t => t.startDecode false)

/-- `DECOMPRESS`, in every respect `UNCOMPRESS` (30_encoding R119). -/
def execDecompress (s : State) : Host.Outcome State Fault Refusal :=
  .next (s.launch fun t => t.startDecode false)

/-- `ULEN` (44_peek_validate R240). -/
def execUlen (s : State) : Host.Outcome State Fault Refusal :=
  .next (s.launch fun t => t.peekLength)

/-- `VALIDATE` (44_peek_validate R242). -/
def execValidate (s : State) : Host.Outcome State Fault Refusal :=
  .next (s.launch fun t => t.startDecode true)

end Sys2Proof.Machine
end

