-- ==== Sys2Proof/Machine/Copies.lean ====
section
/-! DEFINITION. The copy instructions (43_decoder R207 to R209). -/

namespace Sys2Proof.Machine

/-- `COPY1` (43_decoder R207): length 4 to 11, offset 11 bits. -/
def execCopy1 (l : BitVec 3) (off : BitVec 11) (s : State) : Host.Outcome State Fault Refusal :=
  .next (s.requireFields 1 fun t => t.copy 1 (4 + l.toNat) off.toNat)

/-- `COPY2` (43_decoder R208): length 1 to 64, offset 16 bits. -/
def execCopy2 (l : BitVec 6) (off : BitVec 16) (s : State) : Host.Outcome State Fault Refusal :=
  .next (s.requireFields 2 fun t => t.copy 2 (1 + l.toNat) off.toNat)

/-- `COPY4` (43_decoder R209): length 1 to 64, offset 32 bits. -/
def execCopy4 (l : BitVec 6) (off : BitVec 32) (s : State) : Host.Outcome State Fault Refusal :=
  .next (s.requireFields 4 fun t => t.copy 4 (1 + l.toNat) off.toNat)

end Sys2Proof.Machine
end

