-- ==== Sys2Proof/Machine/Literals.lean ====
section
/-! DEFINITION. The literal instructions (43_decoder R202 to R206). -/

namespace Sys2Proof.Machine

/-- `LIT` (43_decoder R202). -/
def execLit (m : BitVec 6) (s : State) : Host.Outcome State Fault Refusal :=
  .next (s.literal 0 (m.toNat + 1))

/-- `LITX1` (43_decoder R203). -/
def execLitx1 (e : BitVec 8) (s : State) : Host.Outcome State Fault Refusal :=
  .next (s.requireFields 1 fun t => t.literal 1 (e.toNat + 1))

/-- `LITX2` (43_decoder R204). -/
def execLitx2 (e : BitVec 16) (s : State) : Host.Outcome State Fault Refusal :=
  .next (s.requireFields 2 fun t => t.literal 2 (e.toNat + 1))

/-- `LITX3` (43_decoder R205). -/
def execLitx3 (e : BitVec 24) (s : State) : Host.Outcome State Fault Refusal :=
  .next (s.requireFields 3 fun t => t.literal 3 (e.toNat + 1))

/-- `LITX4` (43_decoder R206); the length can reach 2^32. -/
def execLitx4 (e : BitVec 32) (s : State) : Host.Outcome State Fault Refusal :=
  .next (s.requireFields 4 fun t => t.literal 4 (e.toNat + 1))

end Sys2Proof.Machine
end

