-- ==== Sys2Proof/Machine/Dispatch.lean ====
section
/-! DEFINITION. One arm per instruction: each calls its meaning. -/

namespace Sys2Proof.Machine

def exec (i : Instr) (s : State) : Host.Outcome State Fault Refusal :=
  match i with
  | .hdr bytes value => Sys2Proof.Machine.execHdr bytes value s
  | .lit m => Sys2Proof.Machine.execLit m s
  | .litx1 e => Sys2Proof.Machine.execLitx1 e s
  | .litx2 e => Sys2Proof.Machine.execLitx2 e s
  | .litx3 e => Sys2Proof.Machine.execLitx3 e s
  | .litx4 e => Sys2Proof.Machine.execLitx4 e s
  | .copy1 l off => Sys2Proof.Machine.execCopy1 l off s
  | .copy2 l off => Sys2Proof.Machine.execCopy2 l off s
  | .copy4 l off => Sys2Proof.Machine.execCopy4 l off s
  | .compress => Sys2Proof.Machine.execCompress s
  | .uncompress => Sys2Proof.Machine.execUncompress s
  | .decompress => Sys2Proof.Machine.execDecompress s
  | .ulen => Sys2Proof.Machine.execUlen s
  | .validate => Sys2Proof.Machine.execValidate s

end Sys2Proof.Machine
end

