-- ==== Sys2Proof/Machine/Sequencer.lean ====
section
/-! DEFINITION. What the CORE does in one step while a command runs, and what the host's moves do (43_decoder R200,
R201; 10_state R22, R47; 70_reset R300, R303, R310, R316). -/

namespace Sys2Proof.Machine

/-- Run what a fetch decoded, or raise what the decoder rejected (40_varint R131, 43_decoder R203 to R209). -/
def State.runDecoded (s : State) (d : Except DecodeError (Instr × List Byte)) : Host.Outcome State Fault Refusal :=
  match d with
  | .ok (i, _) => exec i s
  | .error e => .next (s.malformed (causeOf e))

/-- The fetch of a token loads `tag` (43_decoder R201). -/
def State.loadTag (s : State) : State := { s with dec := { s.dec with tag := s.ibufByte s.dec.ip } }

/-- The token loop of the decoder body (43_decoder R200): a token while `ip < ILEN`, then the end-of-stream check. -/
def State.tokenStep (s : State) : Host.Outcome State Fault Refusal :=
  if s.dec.ip < s.ilen.toNat then s.loadTag.runDecoded (decodeToken s.tokenBytes) else .next s.endOfStream

/-- One move of the CORE: while `BUSY` the running command goes on, otherwise the CORE waits (70_reset R300). -/
def State.coreStep (s : State) : Host.Outcome State Fault Refusal :=
  match s.status.state with
  | .idle => .next s
  | .done => .next s
  | .busy =>
    match s.activity with
    | .header => s.runDecoded (decodeHeader s.headerBytes)
    | .tokens => s.tokenStep
    | .encode => s.encoderStep Config.params

/-- A host write of `CMD` (10_state R22): a valid code is the launch of its command; a reserved code, or any code while
`BUSY`, launches nothing and changes nothing (30_encoding R120, 70_reset R316; log 1). -/
def State.commandWrite (s : State) (c : BitVec 3) : Host.Outcome State Fault Refusal :=
  if s.status.state = .busy then .next s
  else
    match decodeCommand c with
    | .ok i => exec i s
    | .error _ => .next s

/-- The reset event (70_reset R300, R302): the reset state; unwritten bytes take new unspecified values and the host's
further moves stay (log 8). -/
def State.resetEvent (s : State) : State := { State.reset with host := s.host, epoch := s.epoch + 1 }

/-- A move of the host, already taken from the schedule; `s` is the state with the further moves (log 2). -/
def State.hostStep (s : State) (m : HostMove) : Host.Outcome State Fault Refusal :=
  match m with
  | .pass => s.coreStep
  | .poll => if s.status.state = .busy then ({ s with host := .poll :: s.host } : State).coreStep else .next s
  | .writeIlen v =>
    if s.status.state = .busy then .refused .hostWriteWhileBusy else .next { s with ilen := v }
  | .writeIbuf addr b =>
    if s.status.state = .busy then .refused .hostWriteWhileBusy
    else .next { s with ibuf := Cells.write s.ibuf addr.toNat b }
  | .writeCmd c => s.commandWrite c
  | .reset => .next s.resetEvent

/-- How many bytes a token fetched from these bytes takes in the stream, payload included (30_encoding R105). -/
def streamBytes (bs : List Byte) : Nat :=
  match decodeToken bs with
  | .ok (.lit m, _) => 1 + (m.toNat + 1)
  | .ok (.litx1 e, _) => 2 + (e.toNat + 1)
  | .ok (.litx2 e, _) => 3 + (e.toNat + 1)
  | .ok (.litx3 e, _) => 4 + (e.toNat + 1)
  | .ok (.litx4 e, _) => 5 + (e.toNat + 1)
  | _ => 5

/-- Place the bytes of a table word, and the zero bytes after them, in `IBUF` (log 13). -/
def State.placeBytes (s : State) (a : Nat) (bs : List Byte) (total : Nat) : State :=
  { s with
    ibuf := Cells.writeAll s.ibuf a (bs ++ List.replicate (total - bs.length) 0#8)
    ilen := BitVec.ofNat 64 (a + max bs.length total) }

/-- Make the next step fetch and run the instruction of a table word (log 13). -/
def State.placeTableWord (s : State) (nbits w : Nat) : State :=
  let bs := tableBytes nbits w
  match tableSpace nbits with
  | .header =>
    ({ s with
        status := { state := .busy, err := .ok, cause := .none }
        activity := .header
        host := .pass :: s.host } : State).placeBytes 0 bs 5
  | .token =>
    ({ s with
        status := { state := .busy, err := .ok, cause := .none }
        activity := .tokens
        host := .pass :: s.host } : State).placeBytes s.dec.ip bs (streamBytes bs)
  | .command =>
    { s with
      status := if s.status.state = .busy then { state := .idle, err := .ok, cause := .none } else s.status
      host := .writeCmd (BitVec.ofNat 3 w) :: s.host }

end Sys2Proof.Machine
end

