-- ==== Sys2Proof/Safety.lean ====
section
/-! DEFINITION. The terms the statements use: runs, what a command reads and answers, the operand forms as the spec
tabulates them, and the invariant of the machine. -/

namespace Sys2Proof.Machine

/-! ## Runs -/

/-- `k` steps. -/
def steps : Nat → State → Host.Outcome State Fault Refusal
  | 0, s => .next s
  | k + 1, s =>
    match step s with
    | .next t => steps k t
    | .fault r => .fault r
    | .refused r => .refused r

/-- The host leaves the CORE alone and the CORE runs no command: a launch is legal (10_state R22, 70_reset R303). -/
structure State.Ready (s : State) : Prop where
  waiting : s.status.state ≠ .busy
  no_moves : s.host = []

/-- The command launched from `s` ends in `t`: some number of steps after its launch `STATE = DONE` (10_state R42). -/
def Completes (i : Instr) (s t : State) : Prop :=
  ∃ s₁ k, exec i s = .next s₁ ∧ steps k s₁ = .next t ∧ t.status.state = .done

/-- `ERR = OK` at the end of a command. -/
def State.Succeeded (t : State) : Prop := t.status = { state := .done, err := .ok, cause := .none }

/-- The operand of a command: `IBUF[0 .. ILEN-1]` (10_state R22). -/
def State.input (s : State) : List Byte := s.ibufRange 0 s.ilen.toNat

/-- The result bytes of a command: `OBUF[0 .. OLEN-1]` (00_scope R11). -/
def State.output (s : State) : List Byte := (List.range s.olen.toNat).map s.obufByte

/-- What a raise of `cause` in the decoder body leaves for the host: `UNCOMPRESS` reports it, `VALIDATE` answers 0
(60_exceptions R270, R280). -/
def Raised (s t : State) (cause : Cause) : Prop :=
  t.status = (if s.dec.dry then { state := .done, err := .ok, cause := .none }
              else { state := .done, err := .malformedInput, cause := cause }) ∧
  t.olen = 0 ∧ t.result = 0

/-! ## Operand forms as the spec tabulates them (30_encoding R97 to R107) -/

/-- The number of escape bytes and the length of a literal (30_encoding R97 to R101). -/
def literalForm : Instr → Option (Nat × Nat)
  | .lit m => some (0, m.toNat + 1)
  | .litx1 e => some (1, e.toNat + 1)
  | .litx2 e => some (2, e.toNat + 1)
  | .litx3 e => some (3, e.toNat + 1)
  | .litx4 e => some (4, e.toNat + 1)
  | .hdr _ _ | .copy1 _ _ | .copy2 _ _ | .copy4 _ _ => none
  | .compress | .uncompress | .decompress | .ulen | .validate => none

/-- The number of offset bytes, the length and the offset of a copy (30_encoding R102 to R104). -/
def copyForm : Instr → Option (Nat × Nat × Nat)
  | .copy1 l off => some (1, 4 + l.toNat, off.toNat)
  | .copy2 l off => some (2, 1 + l.toNat, off.toNat)
  | .copy4 l off => some (4, 1 + l.toNat, off.toNat)
  | .hdr _ _ | .lit _ | .litx1 _ | .litx2 _ | .litx3 _ | .litx4 _ => none
  | .compress | .uncompress | .decompress | .ulen | .validate => none

/-- `MAXC(n)`, the largest block the encoder writes for `n` bytes (42_encoder R185). -/
def maxCompressed (n : Nat) : Nat := 10 + n + 2 * n / 5

/-- The number of bytes of a minimal varint (30_encoding R92). -/
def varintSize (v : Nat) : Nat :=
  if v < 2 ^ 7 then 1 else if v < 2 ^ 14 then 2 else if v < 2 ^ 21 then 3 else if v < 2 ^ 28 then 4 else 5

/-! ## The invariant -/

/-- The legal values of `STATUS` and of the result registers beside it (10_state R23, R25, R26). -/
structure State.StatusLegal (s : State) : Prop where
  cause_iff : s.status.cause ≠ .none ↔ s.status.err = .malformedInput
  err_ok : s.status.state ≠ .done → s.status.err = .ok
  olen_zero : s.status.state ≠ .done ∨ s.status.err ≠ .ok → s.olen = 0
  result_zero : s.status.state ≠ .done ∨ s.status.err ≠ .ok → s.result = 0

/-- The decoder's registers inside the token loop (43_decoder R220, 10_state R33). -/
structure State.DecoderLegal (s : State) : Prop where
  ip_le : s.dec.ip ≤ s.ilen.toNat
  op_le : s.dec.op ≤ s.dec.ulen

/-- The encoder's registers and table while `COMPRESS` runs (10_state R31, R33, R43; 41_matchfinder R155; 42_encoder R185,
R196). DEDUCED (log 27): 10_state R31 and 42_encoder R196 read literally give `lit <= cur` also at `DONE`, but 42_encoder
R175 then sets `lit` to `n` and leaves `cur`; the model follows R175 and claims `lit <= cur` while `SCANNING` only. -/
structure State.EncoderLegal (s : State) : Prop where
  n_eq : s.enc.n = s.ilen.toNat
  k_ge : Config.params.htMinBits ≤ s.enc.k
  k_le : s.enc.k ≤ Config.params.htMaxBits
  lit_le_cur : s.enc.est = .scanning → s.enc.lit ≤ s.enc.cur
  lit_le_n : s.enc.lit ≤ s.enc.n
  miss_le : s.enc.miss ≤ s.enc.cur
  table_lt : ∀ j c, j < 2 ^ s.enc.k → Cells.lookup s.ht j = some c → c < s.enc.cur ∧ c + 4 ≤ s.enc.n
  not_emitting : s.enc.est ≠ .emitting
  done_lit : s.enc.est = .done → s.enc.lit = s.enc.n
  wp_le : s.enc.est = .scanning → 5 * s.enc.wp ≤ 25 + 7 * s.enc.lit
  wp_done : s.enc.est = .done → s.enc.wp ≤ maxCompressed s.enc.n

/-- Every working register fits the width the spec gives it (10_state R30 to R33; log 4). -/
structure State.WidthsLegal (s : State) : Prop where
  ulen : s.dec.ulen < 2 ^ 32
  ip : s.dec.ip < 2 ^ 64
  op : s.dec.op < 2 ^ 32
  len : s.dec.len < 2 ^ 33
  off : s.dec.off < 2 ^ 32
  data : s.dec.data < 2 ^ 64
  n : s.enc.n < 2 ^ 32
  k : s.enc.k < 2 ^ 6
  cur : s.enc.cur < 2 ^ 33
  lit : s.enc.lit < 2 ^ 32
  miss : s.enc.miss < 2 ^ 32
  h : s.enc.h < 2 ^ 32
  cand : ∀ c, s.enc.cand = some c → c < 2 ^ 32
  mlen : s.enc.mlen < 2 ^ 32
  dist : s.enc.dist < 2 ^ 32
  wp : s.enc.wp < 2 ^ 64
  vv : s.vc.vv < 2 ^ 32
  vk : s.vc.vk < 2 ^ 3

/-- The invariant of the machine: the memories keep their canonical form, `STATUS` stays legal, every
register fits its width, and the registers of the running command stay in their ranges. -/
structure State.Inv (s : State) : Prop where
  ibuf_wf : Memory.wf s.ibuf
  obuf_wf : Memory.wf s.obuf
  ht_wf : Cells.wf s.ht
  status : s.StatusLegal
  widths : s.WidthsLegal
  decoder : s.status.state = .busy → s.activity = .tokens → s.DecoderLegal
  encoder : s.status.state = .busy → s.activity = .encode → s.EncoderLegal

end Sys2Proof.Machine
end

