-- ==== Sys2Proof/Certificates/Slice0/Obligations.lean ====
section
/-! DEFINITION. The statements for the provers. Each docstring names the rules of spec/ it formalises. Nothing here is
proved. -/

open Sys2Proof Sys2Proof.Machine

/-! ## Encoding -/

/-- 30_encoding R91 to R104, R118, R119: no bit of an encoding is dropped; the alias reads back as `UNCOMPRESS`. -/
def Obligations.EncodedInstructionDecodesBack : Prop :=
  ∀ (i : Instr) (rest : List Byte), i.wf = true → decode i.space (encode i ++ rest) = .ok (i.canonical, rest)

/-- 30_encoding R105, R106, R111: whatever the decoder reads is a well-formed instruction of that space, and its
encoding is the bytes consumed: each word has one meaning, padded headers and long forms included (R112). -/
def Obligations.DecodedInstructionReencodes : Prop :=
  ∀ (sp : Space) (bs rest : List Byte) (i : Instr), decode sp bs = .ok (i, rest) →
    i.space = sp ∧ i.wf = true ∧ encode i ++ rest = bs

/-- 30_encoding R106, the tag map: every one of the 256 tag values, followed by enough bytes, is one token, with the
fields the map gives. -/
def Obligations.EveryTagValueIsOneToken : Prop :=
  ∀ (t b₀ b₁ b₂ b₃ : Byte) (rest : List Byte),
    let t' := t.toNat
    let bs := b₀ :: b₁ :: b₂ :: b₃ :: rest
    (t' % 4 = 0 ∧ t' ≤ 0xEC → ∃ m : BitVec 6, m.toNat + 1 = t' / 4 + 1 ∧ decodeToken (t :: bs) = .ok (.lit m, bs)) ∧
    (t' = 0xF0 → decodeToken (t :: bs) = .ok (.litx1 b₀, b₁ :: b₂ :: b₃ :: rest)) ∧
    (t' = 0xF4 → decodeToken (t :: bs) = .ok (.litx2 (b₁ ++ b₀), b₂ :: b₃ :: rest)) ∧
    (t' = 0xF8 → decodeToken (t :: bs) = .ok (.litx3 (b₂ ++ b₁ ++ b₀), b₃ :: rest)) ∧
    (t' = 0xFC → decodeToken (t :: bs) = .ok (.litx4 (b₃ ++ b₂ ++ b₁ ++ b₀), rest)) ∧
    (t' % 4 = 1 → ∃ (l : BitVec 3) (off : BitVec 11), 4 + l.toNat = 4 + t' / 4 % 8 ∧
      off.toNat = t' / 32 * 256 + b₀.toNat ∧ decodeToken (t :: bs) = .ok (.copy1 l off, b₁ :: b₂ :: b₃ :: rest)) ∧
    (t' % 4 = 2 → ∃ l : BitVec 6, 1 + l.toNat = 1 + t' / 4 ∧
      decodeToken (t :: bs) = .ok (.copy2 l (b₁ ++ b₀), b₂ :: b₃ :: rest)) ∧
    (t' % 4 = 3 → ∃ l : BitVec 6, 1 + l.toNat = 1 + t' / 4 ∧
      decodeToken (t :: bs) = .ok (.copy4 l (b₃ ++ b₂ ++ b₁ ++ b₀), rest))

/-- 30_encoding R91, R97 to R104, R118; words written out from the encodings there and from 95_test_vectors. -/
def Obligations.SpecWordsDecode : Prop :=
  decodeToken [0xEC] = .ok (.lit 59, []) ∧
  decodeToken [0xF0, 0x3C] = .ok (.litx1 60, []) ∧
  decodeToken [0xF4, 0x00, 0x01] = .ok (.litx2 256, []) ∧
  decodeToken [0xF8, 0x4F, 0x12, 0x01] = .ok (.litx3 70223, []) ∧
  decodeToken [0xFC, 0x00, 0x00, 0x00, 0x01] = .ok (.litx4 16777216, []) ∧
  decodeToken [0xFD, 0xFF] = .ok (.copy1 7 2047, []) ∧
  decodeToken [0x0E, 0x00, 0x08] = .ok (.copy2 3 2048, []) ∧
  decodeToken [0xFF, 0x38, 0x12, 0x01, 0x00] = .ok (.copy4 63 70200, []) ∧
  decodeHeader [0xAC, 0x02, 0x55] = .ok (.hdr 2 300, [0x55]) ∧
  decodeCommand 4 = .ok .validate

/-- 40_varint R130, 30_encoding R92: the varint of a value has the tabulated number of bytes, the fewest that can hold
it, and is the value's encoding in that many bytes. -/
def Obligations.VarintEncodingIsMinimal : Prop :=
  ∀ v, v < 2 ^ 32 →
    (varintEncode v).length = varintSize v ∧ varintEncode v = encode (.hdr (varintSize v) (BitVec.ofNat 32 v)) ∧
    ∀ j, 1 ≤ j → (v < 2 ^ (7 * j) ↔ varintSize v ≤ j)

/-- 40_varint R135: a header written by `VarintEncode`, whatever follows it, reads back, with the bytes consumed. -/
def Obligations.VarintReadsBackFromInput : Prop :=
  ∀ (s : State) (v : Nat) (rest : List Byte), v < 2 ^ 32 → s.input = varintEncode v ++ rest →
    (varintEncode v).length = varintSize v ∧
    ∃ rest', varintDecode s.headerBytes = .ok (v, (varintEncode v).length, rest')

/-- 40_varint R131, R133, R134: which value and which number of bytes `VarintDecode(0)` gives, and exactly when it fails
and with which error; `j` is the first byte with bit 7 clear. -/
def Obligations.VarintDecodeResult : Prop :=
  ∀ (s : State) (j : Nat), j ≤ 5 → j ≤ s.ilen.toNat → (∀ a < j, 128 ≤ (s.ibufByte a).toNat) →
    (j < 5 → s.ilen.toNat = j → varintDecode s.headerBytes = .error .varintTruncated) ∧
    (j = 5 → varintDecode s.headerBytes = .error .varintTooLong) ∧
    (j = 4 → j < s.ilen.toNat → (s.ibufByte j).toNat < 128 → 16 ≤ (s.ibufByte j).toNat →
      varintDecode s.headerBytes = .error .varintOverflow) ∧
    (j < 5 → j < s.ilen.toNat → (s.ibufByte j).toNat < 128 → (j = 4 → (s.ibufByte j).toNat < 16) →
      ∃ v rest, varintDecode s.headerBytes = .ok (v, j + 1, rest) ∧ v < 2 ^ 32 ∧
        v = ((List.range (j + 1)).map fun a => (s.ibufByte a).toNat % 128 * 2 ^ (7 * a)).sum)

/-! ## Reset, launch, the step -/

/-- 10_state R52, 70_reset R300: what reset leaves in the host-visible registers, and that the CORE then waits. -/
def Obligations.ResetLeavesIdleRegisters : Prop :=
  State.reset.status.word = 0 ∧ State.reset.readReg .cmd = .value 0 ∧ State.reset.ilen = 0 ∧ State.reset.olen = 0 ∧
  State.reset.result = 0 ∧ State.reset.Ready

/-- 10_state R23, R40; 60_exceptions R264, R265: the fields of `STATUS` stand where the register map puts them, and the
codes are those of the tables. -/
def Obligations.StatusWordHoldsItsFields : Prop :=
  ∀ st : Status,
    st.word.extractLsb' 0 2 = st.state.code ∧ st.word.extractLsb' 2 2 = st.err.code ∧
    st.word.extractLsb' 4 4 = st.cause.code ∧
    (st.state.code = 0 ↔ st.state = .idle) ∧ (st.state.code = 1 ↔ st.state = .busy) ∧
    (st.state.code = 2 ↔ st.state = .done) ∧ (st.err.code = 0 ↔ st.err = .ok) ∧
    (st.err.code = 1 ↔ st.err = .inputTooLarge) ∧ (st.err.code = 2 ↔ st.err = .malformedInput) ∧
    (st.cause.code = 0 ↔ st.cause = .none) ∧ (st.cause.code = 1 ↔ st.cause = .varintTruncated) ∧
    (st.cause.code = 2 ↔ st.cause = .varintTooLong) ∧ (st.cause.code = 3 ↔ st.cause = .varintOverflow) ∧
    (st.cause.code = 4 ↔ st.cause = .fieldTruncated) ∧ (st.cause.code = 5 ↔ st.cause = .literalTruncated) ∧
    (st.cause.code = 6 ↔ st.cause = .offsetZero) ∧ (st.cause.code = 7 ↔ st.cause = .offsetRange) ∧
    (st.cause.code = 8 ↔ st.cause = .outputOverrun) ∧ (st.cause.code = 9 ↔ st.cause = .lengthMismatch)

/-- 00_scope R8, 43_decoder R200, R201, 10_state R22, 42_encoder R174: a step runs what the bytes at the program counter
decode to, with the tag loaded; a header at address 0; the command written to `CMD`; or the encoder's next step. The
schedule of host moves and the step's granularity are the model's own (logs 2, 3). -/
def Obligations.StepRunsTheDecodedInstruction : Prop :=
  ∀ (s : State) (i : Instr) (rest : List Byte),
    (s.host = [] → s.status.state = .busy → s.activity = .tokens → s.dec.ip < s.ilen.toNat →
      decodeToken s.tokenBytes = .ok (i, rest) →
      step s = exec i { s with dec := { s.dec with tag := s.ibufByte s.dec.ip } }) ∧
    (s.host = [] → s.status.state = .busy → s.activity = .header → decodeHeader s.headerBytes = .ok (i, rest) →
      step s = exec i s) ∧
    (∀ (c : BitVec 3) (ms : List HostMove), s.host = .writeCmd c :: ms → s.status.state ≠ .busy →
      decodeCommand c = .ok i → step s = exec i { s with host := ms }) ∧
    (s.host = [] → s.status.state = .busy → s.activity = .encode → step s = s.encoderStep Config.params)

/-- 40_varint R131, 43_decoder R203 to R209, 60_exceptions R262: a step whose fetch is rejected raises the cause of the
table, named here for each of the three header errors; a token is rejected only for field bytes cut by the end of the
input. -/
def Obligations.RejectedFetchRaisesItsCause : Prop :=
  ∀ (s : State) (e : DecodeError), s.host = [] → s.status.state = .busy →
    (s.activity = .header → decodeHeader s.headerBytes = .error e →
      ∃ t, step s = .next t ∧ t.obuf = s.obuf ∧
        ((e = .varintTruncated ∧ Raised s t .varintTruncated) ∨ (e = .varintTooLong ∧ Raised s t .varintTooLong) ∨
          (e = .varintOverflow ∧ Raised s t .varintOverflow))) ∧
    (s.activity = .tokens → s.dec.ip < s.ilen.toNat → decodeToken s.tokenBytes = .error e →
      ∃ t, step s = .next t ∧ Raised s t .fieldTruncated ∧ t.obuf = s.obuf)

/-- 70_reset R300, 10_state R42: with no host move and no running command the CORE does nothing. -/
def Obligations.CoreWaitsForALaunch : Prop :=
  ∀ (s : State) (k : Nat), s.Ready → steps k s = .next s

/-- 30_encoding R120, 70_reset R316: a write of a reserved code, or of any code while `BUSY`, launches nothing and
changes nothing; the model takes the write off the schedule and goes on (log 1). -/
def Obligations.IgnoredCommandWriteChangesNothing : Prop :=
  ∀ (s : State) (c : BitVec 3) (ms : List HostMove), s.host = .writeCmd c :: ms →
    s.status.state = .busy ∨ c = 0 ∨ c = 5 ∨ c = 6 ∨ c = 7 → step s = .next { s with host := ms }

/-- 70_reset R310, 93_implementation_defined U4: a host write of `IBUF` or `ILEN` while `BUSY` is refused; otherwise it
writes that byte or that register and nothing else (10_state R45, R47). The MODEL'S CHOICE: the refusal, where R310 leaves
the behaviour undefined (log 20), one byte at a 64-bit address a write (log 26), and the move taken off the schedule (log
2). -/
def Obligations.HostBufferWrites : Prop :=
  ∀ (s : State) (ms : List HostMove) (v : BitVec 64) (b : Byte),
    (s.host = .writeIlen v :: ms →
      (s.status.state = .busy → step s = .refused .hostWriteWhileBusy) ∧
      (s.status.state ≠ .busy → step s = .next { s with host := ms, ilen := v })) ∧
    (s.host = .writeIbuf v b :: ms →
      (s.status.state = .busy → step s = .refused .hostWriteWhileBusy) ∧
      (s.status.state ≠ .busy → ∃ t, step s = .next t ∧ t = { s with host := ms, ibuf := t.ibuf } ∧
        ∀ a, t.ibufByte a = if a = v.toNat then b else s.ibufByte a))

/-- 70_reset R300, R302, 10_state R52: reset at any moment, also while `BUSY`, gives the reset registers and a waiting
CORE; the schedule of further moves is the model's (log 2). -/
def Obligations.ResetStopsAnyCommand : Prop :=
  ∀ (s : State) (ms : List HostMove), s.host = .reset :: ms →
    ∃ t, step s = .next t ∧ t.status.word = 0 ∧ t.ilen = 0 ∧ t.olen = 0 ∧ t.result = 0 ∧ t.host = ms

/-- 43_decoder R200, 10_state R53, 44_peek_validate R242, R221: the launch of `UNCOMPRESS`, `DECOMPRESS` and `VALIDATE`
completes from any waiting state, clears the result registers and sets `dry`. `activity` is the model's own field (log
11). -/
def Obligations.DecodeLaunchesClearResults : Prop :=
  ∀ s : State, s.status.state ≠ .busy →
    let t (dry : Bool) : State :=
      { s with
        status := { state := .busy, err := .ok, cause := .none }, olen := 0, result := 0
        dec := { s.dec with dry := dry }, activity := .header }
    exec .uncompress s = .next (t false) ∧ exec .decompress s = .next (t false) ∧ exec .validate s = .next (t true)

/-- 30_encoding R119: `DECOMPRESS` is a second mnemonic for the code of `UNCOMPRESS`, in every respect `UNCOMPRESS`, and
has no code of its own. -/
def Obligations.DecompressIsUncompress : Prop :=
  (∀ s : State, exec .decompress s = exec .uncompress s) ∧ encode .decompress = encode .uncompress ∧
  decodeCommand 2 = .ok .uncompress ∧ ∀ c, decodeCommand c ≠ .ok .decompress

/-- 42_encoder R171, R172, 10_state R53: the launch of an admitted `COMPRESS` sets the encoder registers, empties
the table entries in use and writes the header; nothing else changes. `activity` is the model's own field (log 11), and
the launch as one step is the model's choice (log 3). -/
def Obligations.CompressLaunchInitialises : Prop :=
  ∀ s : State, s.status.state ≠ .busy → s.ilen.toNat ≤ 2 ^ 32 - 1 →
    ∃ t, exec .compress s = .next t ∧
      t.status = { state := .busy, err := .ok, cause := .none } ∧ t.olen = 0 ∧ t.result = 0 ∧ t.activity = .encode ∧
      t.enc = { s.enc with
        n := s.ilen.toNat, k := kbits Config.params s.ilen.toNat, cur := 0, lit := 0, miss := 0
        wp := (varintEncode s.ilen.toNat).length, est := .scanning } ∧
      (∀ j, j < 2 ^ t.enc.k → Cells.lookup t.ht j = none) ∧
      (∀ j, 2 ^ t.enc.k ≤ j → Cells.lookup t.ht j = Cells.lookup s.ht j) ∧
      (∀ (j : Nat) (h : j < (varintEncode s.ilen.toNat).length), t.obufByte j = (varintEncode s.ilen.toNat)[j]) ∧
      (∀ a, (varintEncode s.ilen.toNat).length ≤ a → t.obufByte a = s.obufByte a) ∧
      t = { s with
        status := t.status, olen := 0, result := 0, activity := .encode, enc := t.enc, ht := t.ht, obuf := t.obuf
        vc := t.vc }

/-- 42_encoder R170, 60_exceptions R261, R270: `COMPRESS` of an input longer than 2^32 - 1 ends with `InputTooLarge` and
touches nothing else. -/
def Obligations.OversizedInputIsTooLarge : Prop :=
  ∀ s : State, s.status.state ≠ .busy → 2 ^ 32 - 1 < s.ilen.toNat →
    exec .compress s =
      .next { s with status := { state := .done, err := .inputTooLarge, cause := .none }, olen := 0, result := 0 }

/-- 44_peek_validate R240, 60_exceptions R270: `ULEN` ends with the header value in `RESULT`, or raises the header's
error; `OBUF`, `OLEN` and the token stream play no part. That `ulen`, `ip` and `op` keep their values is the model's
reading of R240 against 40_varint R136 (log 19); the varint unit's scratch is left open. -/
def Obligations.UlenAnswersTheHeader : Prop :=
  ∀ s : State, s.status.state ≠ .busy →
    (∀ v c rest, varintDecode s.headerBytes = .ok (v, c, rest) →
      ∃ t, exec .ulen s = .next t ∧ t.Succeeded ∧ t.result = BitVec.ofNat 32 v ∧ t.olen = 0 ∧
        t = { s with status := t.status, olen := 0, result := t.result, vc := t.vc }) ∧
    (∀ e, varintDecode s.headerBytes = .error e →
      ∃ t cause, exec .ulen s = .next t ∧
        ((e = .varintTruncated ∧ cause = .varintTruncated) ∨ (e = .varintTooLong ∧ cause = .varintTooLong) ∨
          (e = .varintOverflow ∧ cause = .varintOverflow)) ∧
        t = { s with
          status := { state := .done, err := .malformedInput, cause := cause }, olen := 0, result := 0, vc := t.vc })

/-- 40_varint R136: `HDR` sets `ulen`, `ip` and `op` and nothing else of the decoder or the memories; a header that runs
past the input raises. `activity` is the model's own field (log 11); the varint unit's scratch is left open. -/
def Obligations.HeaderSetsTheCursors : Prop :=
  ∀ (s : State) (j : Nat) (v : Word32),
    (j ≤ s.ilen.toNat →
      ∃ t, exec (.hdr j v) s = .next t ∧ t.dec = { s.dec with ulen := v.toNat, ip := j, op := 0 } ∧
        t.activity = .tokens ∧ t = { s with dec := t.dec, vc := t.vc, activity := t.activity }) ∧
    (s.ilen.toNat < j → ∃ t, exec (.hdr j v) s = .next t ∧ Raised s t .varintTruncated ∧
      t = { s with status := t.status, olen := 0, result := 0, vc := t.vc })

/-! ## Literals -/

/-- 43_decoder R202 to R206, R210, R221, 10_state R35, R36: a literal whose checks pass copies its payload, advances `ip`
past itself and `op` by its length, in dry mode without the copy; everything else is unchanged. -/
def Obligations.LiteralCopiesItsPayload : Prop :=
  ∀ (i : Instr) (f len : Nat) (s : State), literalForm i = some (f, len) →
    s.dec.ip + 1 + f ≤ s.ilen.toNat → s.dec.op + len ≤ s.dec.ulen → s.dec.ip + 1 + f + len ≤ s.ilen.toNat →
    ∃ t, exec i s = .next t ∧
      t.dec = { s.dec with
        len := len, data := s.dec.ip + 1 + f, ip := s.dec.ip + 1 + f + len, op := s.dec.op + len } ∧
      (s.dec.dry = false → ∀ j < len, t.obufByte (s.dec.op + j) = s.ibufByte (s.dec.ip + 1 + f + j)) ∧
      (∀ a, s.dec.dry = true ∨ a < s.dec.op ∨ s.dec.op + len ≤ a → t.obufByte a = s.obufByte a) ∧
      t = { s with dec := t.dec, obuf := t.obuf }

/-- 43_decoder R203 to R206, R210, 60_exceptions R262, R266, R270, R280: when a literal raises, with which cause, in
which order, and that it writes no byte of `OBUF`. Which working registers hold what after a raise is the model's reading
(logs 16, 23), which the spec leaves unspecified (93_implementation_defined U1). -/
def Obligations.LiteralRaisesInOrder : Prop :=
  ∀ (i : Instr) (f len : Nat) (s : State), literalForm i = some (f, len) →
    (f ≠ 0 → s.ilen.toNat < s.dec.ip + 1 + f →
      ∃ t, exec i s = .next t ∧ Raised s t .fieldTruncated ∧ t = { s with status := t.status, olen := 0, result := 0 }) ∧
    (s.dec.ip + 1 + f ≤ s.ilen.toNat ∨ f = 0 → s.dec.ulen < s.dec.op + len →
      ∃ t, exec i s = .next t ∧ Raised s t .outputOverrun ∧
        t = { s with
          status := t.status, olen := 0, result := 0
          dec := { s.dec with len := len, data := s.dec.ip + 1 + f } }) ∧
    (s.dec.ip + 1 + f ≤ s.ilen.toNat ∨ f = 0 → s.dec.op + len ≤ s.dec.ulen →
      s.ilen.toNat < s.dec.ip + 1 + f + len →
      ∃ t, exec i s = .next t ∧ Raised s t .literalTruncated ∧
        t = { s with
          status := t.status, olen := 0, result := 0
          dec := { s.dec with len := len, data := s.dec.ip + 1 + f } })

/-! ## Copies -/

/-- 43_decoder R207 to R209, R211, R214, R215, R221: a copy whose checks pass makes every destination byte equal to the
byte `off` before it, read after the earlier iterations' writes; everything else is unchanged. -/
def Obligations.CopyRepeatsEarlierOutput : Prop :=
  ∀ (i : Instr) (w len off : Nat) (s : State), copyForm i = some (w, len, off) →
    s.dec.ip + 1 + w ≤ s.ilen.toNat → off ≠ 0 → off ≤ s.dec.op → s.dec.op + len ≤ s.dec.ulen →
    ∃ t, exec i s = .next t ∧
      t.dec = { s.dec with len := len, off := off, ip := s.dec.ip + 1 + w, op := s.dec.op + len } ∧
      (s.dec.dry = false → ∀ j < len, t.obufByte (s.dec.op + j) = t.obufByte (s.dec.op + j - off)) ∧
      (∀ a, s.dec.dry = true ∨ a < s.dec.op ∨ s.dec.op + len ≤ a → t.obufByte a = s.obufByte a) ∧
      t = { s with dec := t.dec, obuf := t.obuf }

/-- 43_decoder R215: the closed form. After a copy that passes its checks, byte `i` of the destination is byte
`i mod off` of the `off` bytes before it, as they stood before the copy, and every other byte is unchanged. -/
def Obligations.CopyClosedForm : Prop :=
  ∀ (s : State) (nxt : Nat), s.dec.dry = false → s.dec.off ≠ 0 → s.dec.off ≤ s.dec.op →
    s.dec.op + s.dec.len ≤ s.dec.ulen →
    (∀ i < s.dec.len,
      (s.applyCopy nxt).obufByte (s.dec.op + i) = s.obufByte (s.dec.op - s.dec.off + i % s.dec.off)) ∧
    (∀ a, a < s.dec.op ∨ s.dec.op + s.dec.len ≤ a → (s.applyCopy nxt).obufByte a = s.obufByte a) ∧
    (∀ a, s.dec.op ≤ a → a < s.dec.op + s.dec.len →
      (s.applyCopy nxt).obufByte a = (s.applyCopy nxt).obufByte (a - s.dec.off))

/-- 43_decoder R207 to R209, R211, 60_exceptions R262, R266, R270, R280: when a copy raises, with which cause, in which
order, and that it writes no byte of `OBUF`. Which working registers hold what after a raise is the model's reading (logs
16, 23), which the spec leaves unspecified (93_implementation_defined U1). -/
def Obligations.CopyRaisesInOrder : Prop :=
  ∀ (i : Instr) (w len off : Nat) (s : State), copyForm i = some (w, len, off) →
    (s.ilen.toNat < s.dec.ip + 1 + w →
      ∃ t, exec i s = .next t ∧ Raised s t .fieldTruncated ∧ t = { s with status := t.status, olen := 0, result := 0 }) ∧
    (s.dec.ip + 1 + w ≤ s.ilen.toNat →
      ∀ cause, (off = 0 ∧ cause = .offsetZero) ∨ (off ≠ 0 ∧ s.dec.op < off ∧ cause = .offsetRange) ∨
          (off ≠ 0 ∧ off ≤ s.dec.op ∧ s.dec.ulen < s.dec.op + len ∧ cause = .outputOverrun) →
        ∃ t, exec i s = .next t ∧ Raised s t cause ∧
          t = { s with
            status := t.status, olen := 0, result := 0, dec := { s.dec with len := len, off := off } })

/-! ## The decoder body -/

/-- 43_decoder R216, R218, R219, 44_peek_validate R242: at the end of the input `UNCOMPRESS` succeeds with `OLEN = ulen`
exactly when `op = ulen`, else raises `LENGTH_MISMATCH`; `VALIDATE` answers 1 or 0. -/
def Obligations.EndOfStreamCheck : Prop :=
  ∀ s : State, s.host = [] → s.status = { state := .busy, err := .ok, cause := .none } → s.activity = .tokens →
    s.dec.ip = s.ilen.toNat →
    ∃ t, step s = .next t ∧ t = { s with status := t.status, olen := t.olen, result := t.result } ∧
      (s.dec.op = s.dec.ulen → s.dec.dry = false →
        t.Succeeded ∧ t.olen = BitVec.ofNat 64 s.dec.ulen ∧ t.result = s.result) ∧
      (s.dec.op = s.dec.ulen → s.dec.dry = true → t.Succeeded ∧ t.olen = 0 ∧ t.result = 1) ∧
      (s.dec.op ≠ s.dec.ulen → Raised s t .lengthMismatch)

/-- 43_decoder R220, R222, 10_state R35, 20_memory R62, 70_reset R313: every token step that does not end the command
advances `ip` by at least 2, keeps `ip <= ILEN` and `op <= ulen`, never moves `op` back, and writes `OBUF` only between
the old and the new `op`; one that ends it writes nothing. -/
def Obligations.TokenStepStaysInBounds : Prop :=
  ∀ s t : State, s.host = [] → s.status.state = .busy → s.activity = .tokens → s.dec.ip < s.ilen.toNat →
    step s = .next t →
    (t.status.state = .done ∧ t.obuf = s.obuf) ∨
    (t.status = s.status ∧ t.activity = .tokens ∧ s.dec.ip + 2 ≤ t.dec.ip ∧ t.dec.ip ≤ s.ilen.toNat ∧
      s.dec.op < t.dec.op ∧ t.dec.op ≤ s.dec.ulen ∧ t.dec.ulen = s.dec.ulen ∧ t.dec.dry = s.dec.dry ∧
      ∀ a, a < s.dec.op ∨ t.dec.op ≤ a → t.obufByte a = s.obufByte a)

/-- 20_memory R61, R62, 43_decoder R220: a step of the decoder body reads no `IBUF` byte at or above `ILEN` and no `OBUF`
byte at or above `op`, and no `OBUF` byte at all in dry mode: two states that differ only there take the same step, and
still differ only there. -/
def Obligations.DecoderReadsStayInBounds : Prop :=
  ∀ (s t : State) (ibuf obuf : Memory), s.host = [] → s.status.state = .busy →
    s.activity = .header ∨ s.activity = .tokens →
    (∀ a < s.ilen.toNat, ({ s with ibuf := ibuf } : State).ibufByte a = s.ibufByte a) →
    (s.dec.dry = false → ∀ a < s.dec.op, ({ s with obuf := obuf } : State).obufByte a = s.obufByte a) →
    step s = .next t →
    ∃ obuf', step { s with ibuf := ibuf, obuf := obuf } = .next { t with ibuf := ibuf, obuf := obuf' } ∧
      t.dec.dry = s.dec.dry ∧
      (t.dec.dry = false → ∀ a < t.dec.op, ({ t with obuf := obuf' } : State).obufByte a = t.obufByte a)

/-- 43_decoder R221: a token in dry mode takes the same path as the same token with `dry = 0`: it raises together with it
and with the same cause to convert, and otherwise leaves the same registers; only `OBUF` is not written. -/
def Obligations.DryRunTakesTheSamePath : Prop :=
  ∀ (s : State) (i : Instr), i.space = .token → s.status.state = .busy →
    ∃ t u, exec i { s with dec := { s.dec with dry := false } } = .next t ∧
      exec i { s with dec := { s.dec with dry := true } } = .next u ∧ u.obuf = s.obuf ∧
      { t.dec with dry := true } = u.dec ∧ (t.status.state = .busy ↔ u.status.state = .busy) ∧
      (t.status.state = .busy → u = { t with dec := u.dec, obuf := s.obuf }) ∧
      (t.status.state ≠ .busy → t.status.err = .malformedInput ∧ u.Succeeded ∧ u.result = 0 ∧ u.olen = 0)

/-- 43_decoder R222, 10_state R42: `UNCOMPRESS`, `DECOMPRESS` and `VALIDATE` always end, in at most `ILEN / 2` tokens
beside the header and the end-of-stream check, whatever the input. What counts as one step is the model's choice (log
3). -/
def Obligations.DecodeCommandsTerminate : Prop :=
  ∀ (s : State) (i : Instr), s.Ready → i = .uncompress ∨ i = .decompress ∨ i = .validate →
    ∃ s₁ t, exec i s = .next s₁ ∧ steps (s.ilen.toNat / 2 + 2) s₁ = .next t ∧ t.status.state = .done

/-- 43_decoder R219, 60_exceptions R262, R271, 10_state R25, R26: however `UNCOMPRESS` ends, it is either a success with
`RESULT = 0`, or a `MalformedInput` with a cause and no output. -/
def Obligations.UncompressFailsWholesale : Prop :=
  ∀ s t : State, s.Ready → Completes .uncompress s t →
    t.result = 0 ∧ t.ibuf = s.ibuf ∧ t.ilen = s.ilen ∧
    (t.Succeeded ∨ (t.status.err = .malformedInput ∧ t.status.cause ≠ .none ∧ t.olen = 0))

/-! ## ULEN and VALIDATE beside UNCOMPRESS -/

/-- 44_peek_validate R242, R243, 60_exceptions R280: `VALIDATE` never fails: it ends with `ERR = OK`, no cause, `OLEN = 0`
and the answer 0 or 1, and leaves `OBUF` alone. -/
def Obligations.ValidateNeverFails : Prop :=
  ∀ s : State, s.Ready →
    ∃ t, Completes .validate s t ∧ t.Succeeded ∧ t.olen = 0 ∧ (t.result = 0 ∨ t.result = 1) ∧ t.obuf = s.obuf

/-- 44_peek_validate R245: `VALIDATE` answers 1 exactly when `UNCOMPRESS` on the same input succeeds. -/
def Obligations.ValidateAgreesWithUncompress : Prop :=
  ∀ s : State, s.Ready →
    ∃ t v, Completes .validate s t ∧ Completes .uncompress s v ∧ (t.result = 1 ↔ v.status.err = .ok) ∧
      (t.result = 0 ↔ v.status.err = .malformedInput)

/-- 44_peek_validate R241: if `UNCOMPRESS` succeeds with `OLEN = L`, `ULEN` on the same input succeeds with
`RESULT = L`. -/
def Obligations.UlenForetellsUncompress : Prop :=
  ∀ s v : State, s.Ready → Completes .uncompress s v → v.Succeeded →
    ∃ t, Completes .ulen s t ∧ t.Succeeded ∧ t.result.toNat = v.olen.toNat

/-- 43_decoder R226: a valid block without its last byte makes `UNCOMPRESS` fail with `MalformedInput`: a block without
tokens for its cut header, any other for its cut last token. -/
def Obligations.TruncatedBlockIsRejected : Prop :=
  ∀ s v u : State, s.Ready → u.Ready → Completes .uncompress s v → v.Succeeded → u.input = s.input.dropLast →
    ∃ w, Completes .uncompress u w ∧ w.status.err = .malformedInput ∧ w.olen = 0 ∧
      (if varintDecode s.input = .ok (0, s.input.length, []) then w.status.cause = .varintTruncated
       else w.status.cause = .literalTruncated ∨ w.status.cause = .fieldTruncated)

/-- 43_decoder R217: a valid block has no trailing bytes: any bytes after it are fetched as a token, which fails. -/
def Obligations.TrailingBytesAreRejected : Prop :=
  ∀ (s v u : State) (extra : List Byte), s.Ready → u.Ready → Completes .uncompress s v → v.Succeeded → extra ≠ [] →
    u.input = s.input ++ extra →
    ∃ w, Completes .uncompress u w ∧ w.status.err = .malformedInput ∧ w.olen = 0 ∧
      (w.status.cause = .outputOverrun ∨ w.status.cause = .fieldTruncated ∨ w.status.cause = .offsetZero ∨
        w.status.cause = .offsetRange)

/-! ## The match finder -/

/-- 41_matchfinder R153: `KBITS(n)` is the least table size in the bounds that holds `n`, or the upper bound. -/
def Obligations.KbitsIsTheLeastFit : Prop :=
  ∀ (P : Params) (n : Nat), P.Ok →
    P.htMinBits ≤ kbits P n ∧ kbits P n ≤ P.htMaxBits ∧ (kbits P n < P.htMaxBits → n ≤ 2 ^ kbits P n) ∧
    ∀ k, P.htMinBits ≤ k → k < kbits P n → 2 ^ k < n

/-- 41_matchfinder R155 to R158, 70_reset R312: a probe reads the entry its hash selects, then overwrites that entry, and
no other, with the cursor. -/
def Obligations.ProbeReadsBeforeItWrites : Prop :=
  ∀ (P : Params) (s : State),
    let h := P.hash (s.window s.enc.cur) s.enc.k
    (s.probe P).enc.h = h ∧ (s.probe P).enc.cand = Cells.lookup s.ht h ∧
    (∀ j, Cells.lookup (s.probe P).ht j = if j = h then some s.enc.cur else Cells.lookup s.ht j) ∧
    (Cells.lookup s.ht h = none → (s.probe P).enc.mlen = 0) ∧
    s.probe P = { s with ht := (s.probe P).ht, enc := (s.probe P).enc } ∧
    (s.probe P).enc = { s.enc with
      h := h, cand := Cells.lookup s.ht h, mlen := (s.probe P).enc.mlen, dist := (s.probe P).enc.dist }

/-- 41_matchfinder R156, R162: the facts a probe with a candidate `c < cur` establishes: the distance, the bounds, the
equal bytes, and that the run is the longest. -/
def Obligations.ProbeFindsTheLongestRun : Prop :=
  ∀ (P : Params) (s : State) (c : Nat), s.enc.cur ≤ s.enc.n → c < s.enc.cur →
    Cells.lookup s.ht (P.hash (s.window s.enc.cur) s.enc.k) = some c →
    let t := s.probe P
    t.enc.dist = s.enc.cur - c ∧ 1 ≤ t.enc.dist ∧ t.enc.dist ≤ s.enc.cur ∧ s.enc.cur + t.enc.mlen ≤ s.enc.n ∧
    (∀ i < t.enc.mlen, s.ibufByte (s.enc.cur + i) = s.ibufByte (s.enc.cur + i - t.enc.dist)) ∧
    (s.enc.cur + t.enc.mlen < s.enc.n →
      s.ibufByte (s.enc.cur + t.enc.mlen) ≠ s.ibufByte (s.enc.cur + t.enc.mlen - t.enc.dist))

/-! ## The encoder -/

/-- 42_encoder R180: the literal form the encoder picks holds the length, is well formed, and no literal form that holds
it is shorter. -/
def Obligations.LiteralFormIsShortest : Prop :=
  ∀ L, 1 ≤ L → L ≤ 2 ^ 32 →
    (literalInstr L).wf = true ∧ (∃ f, literalForm (literalInstr L) = some (f, L)) ∧
    ∀ i f, i.wf = true → literalForm i = some (f, L) → (encode (literalInstr L)).length ≤ (encode i).length

/-- 42_encoder R182: the copy class the encoder picks holds both fields and no class that holds them is shorter. -/
def Obligations.CopyClassIsShortest : Prop :=
  ∀ off l, 1 ≤ off → off < 2 ^ 32 → 1 ≤ l → l ≤ 64 →
    (∃ w, copyForm (copyInstr off l) = some (w, l, off)) ∧
    ∀ i w, copyForm i = some (w, l, off) → (encode (copyInstr off l)).length ≤ (encode i).length

/-- 42_encoder R181, 30_encoding R108: one match becomes copies of 64 and then the rest, all with the same offset. -/
def Obligations.MatchSplitsIntoCopies : Prop :=
  ∀ off L, 1 ≤ off → off < 2 ^ 32 → 1 ≤ L →
    ∃ q r, L = 64 * q + r ∧ 1 ≤ r ∧ r ≤ 64 ∧
      matchInstrs off L = List.replicate q (copyInstr off 64) ++ [copyInstr off r]

/-- 42_encoder R174, R176, 41_matchfinder R159: a probe without a match of 4 bytes moves the cursor by the stride of the
old `miss`, counts the miss, leaves `lit` and `est`, and writes nothing to `OBUF`. -/
def Obligations.MissStepWidensTheStride : Prop :=
  ∀ (P : Params) (s : State), s.enc.est = .scanning → s.enc.cur + 4 ≤ s.enc.n → (s.probe P).enc.mlen < 4 →
    ∃ t, s.encoderStep P = .next t ∧
      t = { s with ht := (s.probe P).ht, enc := t.enc } ∧ t.enc.lit = s.enc.lit ∧ t.enc.est = .scanning ∧
      t.enc = { (s.probe P).enc with
        cur := s.enc.cur + (match P.skipShift with | some x => 1 + s.enc.miss / 2 ^ x | none => 1)
        miss := s.enc.miss + 1 }

/-- 42_encoder R174, R177, R180 to R182, 70_reset R314: a probe with a match of at least 4 bytes appends the pending
literal, if any, and then the copies, and moves the cursor past the match. -/
def Obligations.MatchStepEmitsLiteralThenCopies : Prop :=
  ∀ (P : Params) (s : State), s.enc.est = .scanning → s.enc.cur + 4 ≤ s.enc.n → 4 ≤ (s.probe P).enc.mlen →
    let p := (s.probe P).enc
    let bs := (if s.enc.lit < s.enc.cur then
        encode (literalInstr (s.enc.cur - s.enc.lit)) ++ s.ibufRange s.enc.lit (s.enc.cur - s.enc.lit) else []) ++
      (matchInstrs p.dist p.mlen).flatMap encode
    ∃ t, s.encoderStep P = .next t ∧
      t = { s with ht := (s.probe P).ht, enc := t.enc, obuf := t.obuf } ∧
      t.enc = { p with
        cur := s.enc.cur + p.mlen, lit := s.enc.cur + p.mlen, miss := 0, wp := s.enc.wp + bs.length
        est := .scanning } ∧
      (∀ (j : Nat) (h : j < bs.length), t.obufByte (s.enc.wp + j) = bs[j]) ∧
      (∀ a, a < s.enc.wp ∨ s.enc.wp + bs.length ≤ a → t.obufByte a = s.obufByte a)

/-- 42_encoder R175, R179: with fewer than four bytes left the encoder appends the trailing literal, if any, and is done;
the next step completes the command with `OLEN = wp`. -/
def Obligations.EndOfInputEmitsTheRest : Prop :=
  ∀ (P : Params) (s : State), s.enc.est = .scanning → s.enc.n < s.enc.cur + 4 →
    let bs := if s.enc.lit < s.enc.n then
        encode (literalInstr (s.enc.n - s.enc.lit)) ++ s.ibufRange s.enc.lit (s.enc.n - s.enc.lit) else []
    ∃ t, s.encoderStep P = .next t ∧
      t = { s with enc := t.enc, obuf := t.obuf } ∧
      t.enc = { s.enc with lit := s.enc.n, wp := s.enc.wp + bs.length, est := .done } ∧
      (∀ (j : Nat) (h : j < bs.length), t.obufByte (s.enc.wp + j) = bs[j]) ∧
      (∀ a, a < s.enc.wp ∨ s.enc.wp + bs.length ≤ a → t.obufByte a = s.obufByte a) ∧
      t.encoderStep P = .next { t with status := { t.status with state := .done }, olen := BitVec.ofNat 64 t.enc.wp }

/-- 42_encoder R184: each `Step` ends the loop or moves the cursor on, so `COMPRESS` takes at most `n - 2` steps (one for
`n < 4`) and then completes. -/
def Obligations.CompressTerminates : Prop :=
  (∀ (P : Params) (s t : State), s.enc.est = .scanning → s.encoderStep P = .next t →
    t.enc.est = .done ∨ (t.enc.est = .scanning ∧ s.enc.cur < t.enc.cur)) ∧
  (∀ s : State, s.Ready → s.ilen.toNat ≤ 2 ^ 32 - 1 →
    ∃ s₁ t u, exec .compress s = .next s₁ ∧ steps (max 1 (s.ilen.toNat - 2)) s₁ = .next t ∧
      (t.enc.est = .done ∧ step t = .next u ∧ u.Succeeded))

/-- 42_encoder R185: the size of the block never exceeds `MAXC(n)`, whatever the parameters. -/
def Obligations.CompressedSizeIsBounded : Prop :=
  ∀ s t : State, s.Ready → s.ilen.toNat ≤ 2 ^ 32 - 1 → Completes .compress s t →
    t.Succeeded ∧ t.result = 0 ∧ t.olen.toNat ≤ maxCompressed s.ilen.toNat

/-- 42_encoder R186, R195: when no two 4-byte windows of the input are equal, the block is the header and one literal of
the whole input (the header alone for the empty input), whatever the parameters. -/
def Obligations.IncompressibleInputIsOneLiteral : Prop :=
  ∀ s t : State, s.Ready → s.ilen.toNat ≤ 2 ^ 32 - 1 →
    (∀ p q, p < q → q + 4 ≤ s.ilen.toNat → s.ibufRange p 4 ≠ s.ibufRange q 4) → Completes .compress s t →
    t.Succeeded ∧ t.output = varintEncode s.ilen.toNat ++
      (if s.ilen.toNat = 0 then [] else encode (literalInstr s.ilen.toNat) ++ s.input)

/-- 42_encoder R193, 44_peek_validate R244: the empty input compresses to the one byte 00, which validates, declares
length 0 and decompresses to the empty output; the empty buffer itself is not a valid block. -/
def Obligations.EmptyInputIsTheZeroByte : Prop :=
  ∀ s : State, s.Ready → s.ilen = 0 →
    (∃ t, Completes .compress s t ∧ t.Succeeded ∧ t.output = [0]) ∧
    (∃ t, Completes .validate s t ∧ t.Succeeded ∧ t.result = 0) ∧
    ∀ u : State, u.Ready → u.input = [0] →
      ∃ v w x, Completes .validate u v ∧ v.Succeeded ∧ v.result = 1 ∧ Completes .uncompress u w ∧ w.Succeeded ∧
        w.output = [] ∧ Completes .ulen u x ∧ x.Succeeded ∧ x.result = 0

/-- 42_encoder R192, 40_varint R135: `ULEN` of what `COMPRESS` wrote answers the length of its input. -/
def Obligations.UlenOfCompressedIsTheLength : Prop :=
  ∀ s t u : State, s.Ready → s.ilen.toNat ≤ 2 ^ 32 - 1 → Completes .compress s t → u.Ready → u.input = t.output →
    ∃ v, Completes .ulen u v ∧ v.Succeeded ∧ v.result.toNat = s.ilen.toNat

/-- 42_encoder R191: what `COMPRESS` wrote validates. -/
def Obligations.CompressedBlockValidates : Prop :=
  ∀ s t u : State, s.Ready → s.ilen.toNat ≤ 2 ^ 32 - 1 → Completes .compress s t → u.Ready → u.input = t.output →
    ∃ v, Completes .validate u v ∧ v.result = 1

/-- 42_encoder R190, R195, R196: the round trip: `UNCOMPRESS` of what `COMPRESS` wrote gives back every byte of its input,
whatever the bytes and whatever the OPEN parameters. -/
def Obligations.UncompressUndoesCompress : Prop :=
  ∀ s : State, s.Ready → s.ilen.toNat ≤ 2 ^ 32 - 1 →
    ∃ t, Completes .compress s t ∧ t.Succeeded ∧
      ∀ u : State, u.Ready → u.input = t.output →
        ∃ v, Completes .uncompress u v ∧ v.Succeeded ∧ v.output = s.input

/-! ## The whole machine -/

/-- 00_scope R10, 10_state R34, R50, 70_reset R301, 60_exceptions R275: a command's outcome depends on its operand alone:
no working register, table entry, output byte or earlier result reaches it. -/
def Obligations.NoStateReachesTheNextCommand : Prop :=
  ∀ (i : Instr) (s u t : State), i.space = .command → s.Ready → u.Ready → u.input = s.input → Completes i s t →
    ∃ v, Completes i u v ∧ v.status = t.status ∧ v.olen = t.olen ∧ v.result = t.result ∧
      (t.status.err = .ok → v.output = t.output)

/-- 20_memory R61, R63, R72, 10_state R24, R47: no step but a host write of them or a reset event changes `IBUF` or
`ILEN`, launches and polls included (log 2); only `COMPRESS` changes the table; and no step but a reset event moves from `BUSY` to `IDLE` (R42). -/
def Obligations.WhoWritesWhat : Prop :=
  ∀ s t : State, step s = .next t →
    ((∀ a b ms, s.host ≠ .writeIbuf a b :: ms) → (∀ v ms, s.host ≠ .writeIlen v :: ms) →
      (∀ ms, s.host ≠ .reset :: ms) → t.ibuf = s.ibuf ∧ t.ilen = s.ilen) ∧
    ((∀ ms, s.host ≠ .reset :: ms) → t.ht ≠ s.ht →
      (s.status.state = .busy ∧ s.activity = .encode) ∨ ∃ ms, s.host = .writeCmd 1 :: ms) ∧
    ((∀ ms, s.host ≠ .reset :: ms) → s.status.state ≠ .idle → t.status.state ≠ .idle)

/-- The invariant holds right after reset (10_state R52; the working registers' reset values are log 5's). -/
def Obligations.InvariantHoldsAtReset : Prop := State.reset.Inv

/-- Every step keeps the invariant: canonical memories, a legal `STATUS`, registers within their widths and the ranges of
10_state R33, R43, 43_decoder R220, 42_encoder R185, R196; and from a state that meets it no step faults (42_encoder
R174, log 10). `lit <= cur` is claimed while `SCANNING` only, the model's reading of R196 and 10_state R31 (log 27). -/
def Obligations.StepKeepsTheInvariant : Prop :=
  ∀ s : State, s.Inv → (∀ t, step s = .next t → t.Inv) ∧ ∀ r, step s ≠ .fault r

/-! ## Host reads -/

/-- 10_state R21, R22, R46, R47, 93_implementation_defined U3, U4: what a host read shows. `STATUS` always reads its word;
while `BUSY` nothing else may be read; otherwise `CMD` reads 0 and the others their values, and a byte of `OBUF` has a
value only below `OLEN` after a command without error. That a read the spec leaves open or forbids answers a mark and no
value is the model's form (log 18). -/
def Obligations.HostReadsFollowTheWindows : Prop :=
  (Reg.cmd.number = 0 ∧ Reg.status.number = 1 ∧ Reg.ilen.number = 2 ∧ Reg.olen.number = 3 ∧ Reg.result.number = 4) ∧
  ∀ s : State,
    s.readReg .status = .value (s.status.word.setWidth 64) ∧
    (s.status.state = .busy →
      (∀ r, r ≠ .status → s.readReg r = .notAllowed) ∧ ∀ a, s.readObuf a = .notAllowed) ∧
    (s.status.state ≠ .busy →
      s.readReg .cmd = .value 0 ∧ s.readReg .ilen = .value s.ilen ∧ s.readReg .olen = .value s.olen ∧
      s.readReg .result = .value (s.result.setWidth 64) ∧
      ∀ a,
        (s.status.state = .done → s.status.err = .ok → a < s.olen.toNat → s.readObuf a = .value (s.obufByte a)) ∧
        (s.status.state ≠ .done ∨ s.status.err ≠ .ok ∨ s.olen.toNat ≤ a → s.readObuf a = .unspecified))

/-- 00_scope R11, 10_state R25, R46, 60_exceptions R271, 44_peek_validate R240, R242, 93_implementation_defined U3: after
any command the host can read exactly the result bytes; there are none after an error, after `ULEN` and after `VALIDATE`.
The mark for a byte without a value is the model's form (log 18). -/
def Obligations.OnlyResultBytesAreReadable : Prop :=
  ∀ (i : Instr) (s t : State), i.space = .command → s.Ready → Completes i s t →
    (∀ a, t.readObuf a = match t.output[a]? with | some b => .value b | none => .unspecified) ∧
    (t.status.err ≠ .ok ∨ i = .ulen ∨ i = .validate → t.output = [])
end

