-- ==== Sys2Proof/Laws/Codec.lean ====
section
/-! SUPPORT. Lemmas of the codec: little-endian fields, varints, and how a field is taken back off a stream. -/

namespace Sys2Proof

/-! ## Little-endian fields -/

@[simp] theorem length_toLe (n v : Nat) : (toLe n v).length = n := by
  induction n generalizing v with
  | zero => rfl
  | succ n ih => simp [toLe, ih]

/-- The value of the bytes written for a value that fits them. -/
theorem le_toLe (n v : Nat) (h : v < 256 ^ n) : le (toLe n v) = v := by
  induction n generalizing v with
  | zero => simp [toLe, le] at h ⊢; omega
  | succ n ih =>
    rw [toLe, le, ih _ (by rw [pow_succ] at h; omega), BitVec.toNat_ofNat]
    omega

theorem le_lt (bs : List Byte) : le bs < 256 ^ bs.length := by
  induction bs with
  | nil => simp [le]
  | cons b bs ih => have := b.isLt; simp only [le, List.length_cons, pow_succ]; omega

/-- The bytes written for the value of some bytes are those bytes. -/
theorem toLe_le (bs : List Byte) : toLe bs.length (le bs) = bs := by
  induction bs with
  | nil => rfl
  | cons b bs ih =>
    have hb := b.isLt
    rw [List.length_cons, toLe, le, show (b.toNat + 256 * le bs) / 256 = le bs by omega, ih]
    congr 1
    apply BitVec.eq_of_toNat_eq
    rw [BitVec.toNat_ofNat]; omega

/-- A field that is there is taken off, the rest is left. -/
theorem takeField_append (n : Nat) (field rest : List Byte) (mk : Nat → Instr) (h : field.length = n) :
    takeField n (field ++ rest) mk = .ok (mk (le field), rest) := by
  subst h; simp [takeField]

/-- The value of two fields side by side. -/
theorem toNat_append_mul {w v : Nat} (x : BitVec w) (y : BitVec v) : (x ++ y).toNat = x.toNat * 2 ^ v + y.toNat := by
  rw [BitVec.toNat_append, ← Nat.shiftLeft_add_eq_or_of_lt y.isLt, Nat.shiftLeft_eq]

/-- What an accepted field was. -/
theorem takeField_ok {n : Nat} {bs rest : List Byte} {mk : Nat → Instr} {i : Instr}
    (h : takeField n bs mk = .ok (i, rest)) :
    ∃ field, field.length = n ∧ bs = field ++ rest ∧ i = mk (le field) := by
  unfold takeField at h
  split_ifs at h with hn
  · simp only [Except.ok.injEq, Prod.mk.injEq] at h
    exact ⟨bs.take n, by simpa using hn, by rw [← h.2, List.take_append_drop], h.1.symm⟩

/-! ## Varints -/

theorem varintEncodeLoop_ne_nil (fuel v : Nat) : varintEncodeLoop fuel v ≠ [] := by
  cases fuel <;> simp only [varintEncodeLoop] <;> (try split_ifs) <;> simp

/-- A varint of `j` bytes has `j` bytes. -/
@[simp] theorem length_varintBytes (j v : Nat) : (varintBytes j v).length = j := by
  induction j generalizing v with
  | zero => rfl
  | succ j ih =>
    cases j with
    | zero => rfl
    | succ j => simp [varintBytes, ih]

/-- The decoder's loop undoes a varint of `j` bytes that starts at byte `vk`, when it fits and ends by the fifth byte. -/
theorem varintDecodeLoop_varintBytes (j vk vv v : Nat) (rest : List Byte) (pos : 1 ≤ j) (fits : v < 2 ^ (7 * j))
    (five : vk + j ≤ 5) (high : vk + j = 5 → v < 2 ^ (7 * j - 3)) :
    varintDecodeLoop vk vv (varintBytes j v ++ rest) = .ok (vv + v * 2 ^ (7 * vk), vk + j, rest) := by
  induction j generalizing vk vv v with
  | zero => omega
  | succ j ih =>
    cases j with
    | zero =>
      have hb : (BitVec.ofNat 8 (v % 128)).toNat = v := by rw [BitVec.toNat_ofNat]; omega
      have h4 : vk = 4 → v < 16 := fun e => by have := high (by omega); simpa using this
      simp only [varintBytes, List.cons_append, List.nil_append, varintDecodeLoop, hb]
      rw [if_neg (by omega), if_neg (by omega), if_pos (by omega)]
    | succ j =>
      have hb : (BitVec.ofNat 8 (v % 128 + 128)).toNat = v % 128 + 128 := by rw [BitVec.toNat_ofNat]; omega
      have hp : 2 ^ (7 * (j + 1 + 1)) = 128 * 2 ^ (7 * (j + 1)) := by
        rw [show 7 * (j + 1 + 1) = 7 + 7 * (j + 1) by ring, pow_add]; norm_num
      simp only [varintBytes, List.cons_append, varintDecodeLoop, hb]
      rw [if_neg (by omega), if_neg (by omega), if_neg (by omega),
        ih (vk + 1) _ (v / 128) (by omega) (by omega) (by omega) (fun e => by
          have := high (by omega)
          have hq : 2 ^ (7 * (j + 1 + 1) - 3) = 128 * 2 ^ (7 * (j + 1) - 3) := by
            rw [show 7 * (j + 1 + 1) - 3 = 7 + (7 * (j + 1) - 3) by omega, pow_add]; norm_num
          omega)]
      congr 1
      refine Prod.ext ?_ (Prod.ext (by simp; omega) rfl)
      simp only [show v % 128 + 128 - 128 = v % 128 by omega]
      have : v * 2 ^ (7 * vk) = v % 128 * 2 ^ (7 * vk) + v / 128 * 2 ^ (7 * (vk + 1)) := by
        rw [show 7 * (vk + 1) = 7 + 7 * vk by ring, pow_add]
        conv_lhs => rw [← Nat.mod_add_div v 128]
        ring
      omega

/-- What the decoder's loop accepts from byte `vk` on: a varint of some bytes, ended by the fifth byte, with its value. -/
theorem varintDecodeLoop_ok {vk vv v c : Nat} {bs rest : List Byte} (hk : vk ≤ 4)
    (h : varintDecodeLoop vk vv bs = .ok (v, c, rest)) :
    ∃ j w, 1 ≤ j ∧ vk + j ≤ 5 ∧ c = vk + j ∧ w < 2 ^ (7 * j) ∧ (vk + j = 5 → w < 2 ^ (7 * j - 3)) ∧
      v = vv + w * 2 ^ (7 * vk) ∧ bs = varintBytes j w ++ rest := by
  induction bs generalizing vk vv with
  | nil => simp [varintDecodeLoop] at h
  | cons b bs ih =>
    have hb := b.isLt
    simp only [varintDecodeLoop] at h
    split_ifs at h with h₁ h₂ h₃
    · simp only [Except.ok.injEq, Prod.mk.injEq] at h
      obtain ⟨rfl, rfl, rfl⟩ := h
      refine ⟨1, b.toNat, le_refl _, by omega, rfl, by omega, fun e => ?_, rfl, ?_⟩
      · have : ¬ 16 ≤ b.toNat := fun g => h₂ ⟨by omega, g⟩
        norm_num; omega
      · simp only [varintBytes, List.cons_append, List.nil_append, List.cons.injEq, and_true]
        apply BitVec.eq_of_toNat_eq; rw [BitVec.toNat_ofNat]; omega
    · have h4 : vk ≠ 4 := fun e => h₁ ⟨e, by omega⟩
      obtain ⟨j, w, hj, h5, hc, hw, hw', hv, hbs⟩ := ih (by omega) h
      have hp : 2 ^ (7 * (j + 1)) = 128 * 2 ^ (7 * j) := by
        rw [show 7 * (j + 1) = 7 + 7 * j by ring, pow_add]; norm_num
      refine ⟨j + 1, (b.toNat - 128) + 128 * w, by omega, by omega, by omega, by omega, fun e => ?_, ?_, ?_⟩
      · have := hw' (by omega)
        have hq : 2 ^ (7 * (j + 1) - 3) = 128 * 2 ^ (7 * j - 3) := by
          rw [show 7 * (j + 1) - 3 = 7 + (7 * j - 3) by omega, pow_add]; norm_num
        omega
      · rw [hv, show 7 * (vk + 1) = 7 + 7 * vk by ring, pow_add]; ring
      · obtain ⟨j', rfl⟩ : ∃ j', j = j' + 1 := ⟨j - 1, by omega⟩
        rw [hbs, varintBytes, List.cons_append]
        congr 1
        · apply BitVec.eq_of_toNat_eq; rw [BitVec.toNat_ofNat]; omega
        · rw [show (b.toNat - 128 + 128 * w) / 128 = w by omega]

end Sys2Proof
end

