-- ==== Sys2Proof/Laws/Memory.lean ====
section
/-! SUPPORT. The memory laws: reading back a write, what a write leaves alone, and that every operation keeps the
canonical form. -/

namespace Sys2Proof.Machine

variable {β : Type}

@[simp] theorem Cells.lookup_nil (x : Nat) : Cells.lookup ([] : Cells β) x = none := rfl

theorem Cells.lookup_cons (a : Nat) (v : β) (m : Cells β) (x : Nat) :
    Cells.lookup ((a, v) :: m) x = if x = a then some v else Cells.lookup m x := rfl

/-- A read after a write: the value written there, and what was there before anywhere else. -/
theorem Cells.lookup_write (m : Cells β) (x : Nat) (v : β) (y : Nat) :
    Cells.lookup (Cells.write m x v) y = if y = x then some v else Cells.lookup m y := by
  induction m with
  | nil => rfl
  | cons e m ih =>
    obtain ⟨a, w⟩ := e
    simp only [Cells.write]
    split_ifs with h₁ h₂ <;> simp only [Cells.lookup_cons, ih] <;> split_ifs <;> first | rfl | omega

@[simp] theorem Cells.lookup_write_same (m : Cells β) (x : Nat) (v : β) :
    Cells.lookup (Cells.write m x v) x = some v := by simp [Cells.lookup_write]

theorem Cells.lookup_write_other (m : Cells β) {x y : Nat} (v : β) (h : y ≠ x) :
    Cells.lookup (Cells.write m x v) y = Cells.lookup m y := by simp [Cells.lookup_write, h]

/-- Where the entries of a written memory come from. -/
theorem Cells.mem_write {m : Cells β} {x : Nat} {v : β} {e : Nat × β} (h : e ∈ Cells.write m x v) :
    e = (x, v) ∨ e ∈ m := by
  induction m with
  | nil => simpa [Cells.write] using h
  | cons c m ih =>
    obtain ⟨a, w⟩ := c
    simp only [Cells.write] at h
    split_ifs at h <;> simp only [List.mem_cons] at h ⊢ <;> tauto

/-- A write keeps the canonical form. -/
theorem Cells.wf_write {m : Cells β} (h : Cells.wf m) (x : Nat) (v : β) : Cells.wf (Cells.write m x v) := by
  induction m with
  | nil => simp [Cells.write, Cells.wf]
  | cons c m ih =>
    obtain ⟨a, w⟩ := c
    obtain ⟨h₁, h₂⟩ := List.pairwise_cons.mp h
    simp only [Cells.write]
    split_ifs with lt eq
    · refine List.pairwise_cons.mpr ⟨fun e he => ?_, h⟩
      rcases List.mem_cons.mp he with rfl | he
      · exact lt
      · exact lt.trans (h₁ e he)
    · subst eq
      exact List.pairwise_cons.mpr ⟨h₁, h₂⟩
    · refine List.pairwise_cons.mpr ⟨fun e he => ?_, ih h₂⟩
      rcases Cells.mem_write he with rfl | he
      · change a < x; omega
      · exact h₁ e he

/-- Dropping entries keeps the canonical form. -/
theorem Cells.wf_clearBelow {m : Cells β} (h : Cells.wf m) (bound : Nat) : Cells.wf (Cells.clearBelow m bound) :=
  h.filter _

theorem Cells.lookup_clearBelow (m : Cells β) (bound x : Nat) :
    Cells.lookup (Cells.clearBelow m bound) x = if x < bound then none else Cells.lookup m x := by
  induction m with
  | nil => simp [Cells.clearBelow]
  | cons e m ih =>
    obtain ⟨a, v⟩ := e
    simp only [Cells.clearBelow, List.filter_cons] at ih ⊢
    split_ifs with h₁ h₂ h₂ <;> simp only [Cells.lookup_cons, ih, h₂, if_true, if_false] <;>
      simp only [decide_eq_true_eq] at h₁ <;> split_ifs <;> first | rfl | omega

/-! ## Consecutive writes -/

@[simp] theorem Cells.writeAll_nil (m : Cells β) (x : Nat) : Cells.writeAll m x [] = m := rfl

theorem Cells.writeAll_append (m : Cells β) (x : Nat) (vs ws : List β) :
    Cells.writeAll m x (vs ++ ws) = Cells.writeAll (Cells.writeAll m x vs) (x + vs.length) ws := by
  induction vs generalizing m x with
  | nil => rfl
  | cons v vs ih => simp only [List.cons_append, Cells.writeAll, ih, List.length_cons]; congr 1; omega

theorem Cells.wf_writeAll {m : Cells β} (h : Cells.wf m) (x : Nat) (vs : List β) :
    Cells.wf (Cells.writeAll m x vs) := by
  induction vs generalizing m x with
  | nil => exact h
  | cons v vs ih => exact ih (Cells.wf_write h x v) (x + 1)

/-- Consecutive writes: the values written, and what was there before anywhere else. -/
theorem Cells.lookup_writeAll (m : Cells β) (x : Nat) (vs : List β) (y : Nat) :
    Cells.lookup (Cells.writeAll m x vs) y =
      if x ≤ y ∧ y < x + vs.length then vs[y - x]? else Cells.lookup m y := by
  induction vs generalizing m x with
  | nil => simp only [Cells.writeAll_nil, List.length_nil]; rw [if_neg (by omega)]
  | cons v vs ih =>
    simp only [Cells.writeAll, ih, List.length_cons]
    rcases Nat.lt_trichotomy y x with lt | rfl | gt
    · rw [if_neg (by omega), if_neg (by omega), Cells.lookup_write_other _ _ (by omega)]
    · rw [if_neg (by omega), if_pos (by omega), Cells.lookup_write_same]; simp
    · by_cases hy : y < x + 1 + vs.length
      · rw [if_pos (by omega), if_pos (by omega)]
        obtain ⟨d, rfl⟩ : ∃ d, y = x + 1 + d := ⟨y - (x + 1), by omega⟩
        simp [show x + 1 + d - x = d + 1 by omega]
      · rw [if_neg (by omega), if_neg (by omega), Cells.lookup_write_other _ _ (by omega)]

/-! ## The byte moves of a literal and of a copy -/

theorem Cells.wf_moveLiteral {m : Memory} (h : Cells.wf m) (src : Nat → Byte) (data op count : Nat) :
    Cells.wf (moveLiteral src data op count m) := by
  induction count with
  | zero => exact h
  | succ i ih => exact Cells.wf_write ih _ _

theorem Cells.wf_moveCopy {m : Memory} (h : Cells.wf m) (epoch op off count : Nat) :
    Cells.wf (moveCopy epoch op off count m) := by
  induction count with
  | zero => exact h
  | succ i ih => exact Cells.wf_write ih _ _

/-- What a literal's payload move leaves in `OBUF` (43_decoder R210). -/
theorem lookup_moveLiteral (src : Nat → Byte) (data op count : Nat) (m : Memory) (y : Nat) :
    Cells.lookup (moveLiteral src data op count m) y =
      if op ≤ y ∧ y < op + count then some (src (data + (y - op))) else Cells.lookup m y := by
  induction count with
  | zero => rw [if_neg (by omega)]; rfl
  | succ i ih =>
    simp only [moveLiteral, Cells.lookup_write, ih]
    split_ifs with h₁ h₂ h₂ h₂
    · rw [show y - op = i by omega]
    · omega
    · rfl
    · omega
    · omega
    · rfl

/-- A copy writes nothing outside its destination (43_decoder R215). -/
theorem lookup_moveCopy_outside (epoch op off count : Nat) (m : Memory) (y : Nat) (h : y < op ∨ op + count ≤ y) :
    Cells.lookup (moveCopy epoch op off count m) y = Cells.lookup m y := by
  induction count with
  | zero => rfl
  | succ i ih =>
    rw [moveCopy, copyByte, Cells.lookup_write_other _ _ (by omega), ih (by omega)]

theorem obufRead_moveCopy_outside (epoch op off count : Nat) (m : Memory) (y : Nat) (h : y < op ∨ op + count ≤ y) :
    obufRead epoch (moveCopy epoch op off count m) y = obufRead epoch m y := by
  simp [obufRead, lookup_moveCopy_outside _ _ _ _ _ _ h]

/-- After a copy each destination byte equals the byte `off` before it (43_decoder R215). -/
theorem obufRead_moveCopy_inside (epoch op off count : Nat) (m : Memory) (j : Nat) (hj : j < count) (pos : 0 < off)
    (le : off ≤ op) :
    obufRead epoch (moveCopy epoch op off count m) (op + j) =
      obufRead epoch (moveCopy epoch op off count m) (op + j - off) := by
  induction count with
  | zero => omega
  | succ i ih =>
    have other : ∀ y, y ≠ op + i → obufRead epoch (moveCopy epoch op off (i + 1) m) y =
        obufRead epoch (moveCopy epoch op off i m) y := fun y hy => by
      simp [obufRead, moveCopy, copyByte, Cells.lookup_write_other _ _ hy]
    by_cases e : j = i
    · subst e
      rw [other (op + j - off) (by omega)]
      simp [obufRead, moveCopy, copyByte]
    · rw [other _ (by omega), other _ (by omega)]
      exact ih (by omega)

end Sys2Proof.Machine
end

