-- ==== Sys2Proof/Laws/State.lean ====
section
/-! SUPPORT. One lemma per field per update of the state, so that no later proof unfolds an update. -/

namespace Sys2Proof.Machine

variable (s : State)

/-! ## The common initialisation of a launch (10_state R53). -/

@[simp] theorem State.beginCommand_status : (s.beginCommand).status = { state := .busy, err := .ok, cause := .none } := rfl
@[simp] theorem State.beginCommand_ilen : (s.beginCommand).ilen = s.ilen := rfl
@[simp] theorem State.beginCommand_olen : (s.beginCommand).olen = 0 := rfl
@[simp] theorem State.beginCommand_result : (s.beginCommand).result = 0 := rfl
@[simp] theorem State.beginCommand_dec : (s.beginCommand).dec = s.dec := rfl
@[simp] theorem State.beginCommand_enc : (s.beginCommand).enc = s.enc := rfl
@[simp] theorem State.beginCommand_vc : (s.beginCommand).vc = s.vc := rfl
@[simp] theorem State.beginCommand_ht : (s.beginCommand).ht = s.ht := rfl
@[simp] theorem State.beginCommand_ibuf : (s.beginCommand).ibuf = s.ibuf := rfl
@[simp] theorem State.beginCommand_obuf : (s.beginCommand).obuf = s.obuf := rfl
@[simp] theorem State.beginCommand_activity : (s.beginCommand).activity = s.activity := rfl
@[simp] theorem State.beginCommand_host : (s.beginCommand).host = s.host := rfl
@[simp] theorem State.beginCommand_epoch : (s.beginCommand).epoch = s.epoch := rfl

/-! ## A raise (60_exceptions R270). -/

@[simp] theorem State.raise_status (e : Err) (c : Cause) : (s.raise e c).status = { state := .done, err := e, cause := c } := rfl
@[simp] theorem State.raise_ilen (e : Err) (c : Cause) : (s.raise e c).ilen = s.ilen := rfl
@[simp] theorem State.raise_olen (e : Err) (c : Cause) : (s.raise e c).olen = 0 := rfl
@[simp] theorem State.raise_result (e : Err) (c : Cause) : (s.raise e c).result = 0 := rfl
@[simp] theorem State.raise_dec (e : Err) (c : Cause) : (s.raise e c).dec = s.dec := rfl
@[simp] theorem State.raise_enc (e : Err) (c : Cause) : (s.raise e c).enc = s.enc := rfl
@[simp] theorem State.raise_vc (e : Err) (c : Cause) : (s.raise e c).vc = s.vc := rfl
@[simp] theorem State.raise_ht (e : Err) (c : Cause) : (s.raise e c).ht = s.ht := rfl
@[simp] theorem State.raise_ibuf (e : Err) (c : Cause) : (s.raise e c).ibuf = s.ibuf := rfl
@[simp] theorem State.raise_obuf (e : Err) (c : Cause) : (s.raise e c).obuf = s.obuf := rfl
@[simp] theorem State.raise_activity (e : Err) (c : Cause) : (s.raise e c).activity = s.activity := rfl
@[simp] theorem State.raise_host (e : Err) (c : Cause) : (s.raise e c).host = s.host := rfl
@[simp] theorem State.raise_epoch (e : Err) (c : Cause) : (s.raise e c).epoch = s.epoch := rfl

/-! ## The end of `VALIDATE` (44_peek_validate R242). -/

@[simp] theorem State.finishValidate_status (v : Bool) : (s.finishValidate v).status = { state := .done, err := .ok, cause := .none } := rfl
@[simp] theorem State.finishValidate_ilen (v : Bool) : (s.finishValidate v).ilen = s.ilen := rfl
@[simp] theorem State.finishValidate_olen (v : Bool) : (s.finishValidate v).olen = 0 := rfl
@[simp] theorem State.finishValidate_result (v : Bool) : (s.finishValidate v).result = if v then 1 else 0 := rfl
@[simp] theorem State.finishValidate_dec (v : Bool) : (s.finishValidate v).dec = s.dec := rfl
@[simp] theorem State.finishValidate_enc (v : Bool) : (s.finishValidate v).enc = s.enc := rfl
@[simp] theorem State.finishValidate_vc (v : Bool) : (s.finishValidate v).vc = s.vc := rfl
@[simp] theorem State.finishValidate_ht (v : Bool) : (s.finishValidate v).ht = s.ht := rfl
@[simp] theorem State.finishValidate_ibuf (v : Bool) : (s.finishValidate v).ibuf = s.ibuf := rfl
@[simp] theorem State.finishValidate_obuf (v : Bool) : (s.finishValidate v).obuf = s.obuf := rfl
@[simp] theorem State.finishValidate_activity (v : Bool) : (s.finishValidate v).activity = s.activity := rfl
@[simp] theorem State.finishValidate_host (v : Bool) : (s.finishValidate v).host = s.host := rfl
@[simp] theorem State.finishValidate_epoch (v : Bool) : (s.finishValidate v).epoch = s.epoch := rfl

/-! ## The end of `UNCOMPRESS` (43_decoder R218). -/

@[simp] theorem State.completeUncompress_status : (s.completeUncompress).status = { s.status with state := .done } := rfl
@[simp] theorem State.completeUncompress_ilen : (s.completeUncompress).ilen = s.ilen := rfl
@[simp] theorem State.completeUncompress_olen : (s.completeUncompress).olen = BitVec.ofNat 64 s.dec.ulen := rfl
@[simp] theorem State.completeUncompress_result : (s.completeUncompress).result = s.result := rfl
@[simp] theorem State.completeUncompress_dec : (s.completeUncompress).dec = s.dec := rfl
@[simp] theorem State.completeUncompress_enc : (s.completeUncompress).enc = s.enc := rfl
@[simp] theorem State.completeUncompress_vc : (s.completeUncompress).vc = s.vc := rfl
@[simp] theorem State.completeUncompress_ht : (s.completeUncompress).ht = s.ht := rfl
@[simp] theorem State.completeUncompress_ibuf : (s.completeUncompress).ibuf = s.ibuf := rfl
@[simp] theorem State.completeUncompress_obuf : (s.completeUncompress).obuf = s.obuf := rfl
@[simp] theorem State.completeUncompress_activity : (s.completeUncompress).activity = s.activity := rfl
@[simp] theorem State.completeUncompress_host : (s.completeUncompress).host = s.host := rfl
@[simp] theorem State.completeUncompress_epoch : (s.completeUncompress).epoch = s.epoch := rfl

/-! ## The end of `COMPRESS` (42_encoder R179). -/

@[simp] theorem State.completeCompress_status : (s.completeCompress).status = { s.status with state := .done } := rfl
@[simp] theorem State.completeCompress_ilen : (s.completeCompress).ilen = s.ilen := rfl
@[simp] theorem State.completeCompress_olen : (s.completeCompress).olen = BitVec.ofNat 64 s.enc.wp := rfl
@[simp] theorem State.completeCompress_result : (s.completeCompress).result = s.result := rfl
@[simp] theorem State.completeCompress_dec : (s.completeCompress).dec = s.dec := rfl
@[simp] theorem State.completeCompress_enc : (s.completeCompress).enc = s.enc := rfl
@[simp] theorem State.completeCompress_vc : (s.completeCompress).vc = s.vc := rfl
@[simp] theorem State.completeCompress_ht : (s.completeCompress).ht = s.ht := rfl
@[simp] theorem State.completeCompress_ibuf : (s.completeCompress).ibuf = s.ibuf := rfl
@[simp] theorem State.completeCompress_obuf : (s.completeCompress).obuf = s.obuf := rfl
@[simp] theorem State.completeCompress_activity : (s.completeCompress).activity = s.activity := rfl
@[simp] theorem State.completeCompress_host : (s.completeCompress).host = s.host := rfl
@[simp] theorem State.completeCompress_epoch : (s.completeCompress).epoch = s.epoch := rfl

/-! ## The start of the decoder body (43_decoder R200). -/

@[simp] theorem State.startDecode_status (d : Bool) : (s.startDecode d).status = s.status := rfl
@[simp] theorem State.startDecode_ilen (d : Bool) : (s.startDecode d).ilen = s.ilen := rfl
@[simp] theorem State.startDecode_olen (d : Bool) : (s.startDecode d).olen = s.olen := rfl
@[simp] theorem State.startDecode_result (d : Bool) : (s.startDecode d).result = s.result := rfl
@[simp] theorem State.startDecode_dec (d : Bool) : (s.startDecode d).dec = { s.dec with dry := d } := rfl
@[simp] theorem State.startDecode_enc (d : Bool) : (s.startDecode d).enc = s.enc := rfl
@[simp] theorem State.startDecode_vc (d : Bool) : (s.startDecode d).vc = s.vc := rfl
@[simp] theorem State.startDecode_ht (d : Bool) : (s.startDecode d).ht = s.ht := rfl
@[simp] theorem State.startDecode_ibuf (d : Bool) : (s.startDecode d).ibuf = s.ibuf := rfl
@[simp] theorem State.startDecode_obuf (d : Bool) : (s.startDecode d).obuf = s.obuf := rfl
@[simp] theorem State.startDecode_activity (d : Bool) : (s.startDecode d).activity = .header := rfl
@[simp] theorem State.startDecode_host (d : Bool) : (s.startDecode d).host = s.host := rfl
@[simp] theorem State.startDecode_epoch (d : Bool) : (s.startDecode d).epoch = s.epoch := rfl

/-! ## The fetch of a tag (43_decoder R201). -/

@[simp] theorem State.loadTag_status : (s.loadTag).status = s.status := rfl
@[simp] theorem State.loadTag_ilen : (s.loadTag).ilen = s.ilen := rfl
@[simp] theorem State.loadTag_olen : (s.loadTag).olen = s.olen := rfl
@[simp] theorem State.loadTag_result : (s.loadTag).result = s.result := rfl
@[simp] theorem State.loadTag_dec : (s.loadTag).dec = { s.dec with tag := s.ibufByte s.dec.ip } := rfl
@[simp] theorem State.loadTag_enc : (s.loadTag).enc = s.enc := rfl
@[simp] theorem State.loadTag_vc : (s.loadTag).vc = s.vc := rfl
@[simp] theorem State.loadTag_ht : (s.loadTag).ht = s.ht := rfl
@[simp] theorem State.loadTag_ibuf : (s.loadTag).ibuf = s.ibuf := rfl
@[simp] theorem State.loadTag_obuf : (s.loadTag).obuf = s.obuf := rfl
@[simp] theorem State.loadTag_activity : (s.loadTag).activity = s.activity := rfl
@[simp] theorem State.loadTag_host : (s.loadTag).host = s.host := rfl
@[simp] theorem State.loadTag_epoch : (s.loadTag).epoch = s.epoch := rfl

/-! ## `Put` (42_encoder R172). -/

@[simp] theorem State.put_status (bs : List Byte) : (s.put bs).status = s.status := rfl
@[simp] theorem State.put_ilen (bs : List Byte) : (s.put bs).ilen = s.ilen := rfl
@[simp] theorem State.put_olen (bs : List Byte) : (s.put bs).olen = s.olen := rfl
@[simp] theorem State.put_result (bs : List Byte) : (s.put bs).result = s.result := rfl
@[simp] theorem State.put_dec (bs : List Byte) : (s.put bs).dec = s.dec := rfl
@[simp] theorem State.put_enc (bs : List Byte) : (s.put bs).enc = { s.enc with wp := s.enc.wp + bs.length } := rfl
@[simp] theorem State.put_vc (bs : List Byte) : (s.put bs).vc = s.vc := rfl
@[simp] theorem State.put_ht (bs : List Byte) : (s.put bs).ht = s.ht := rfl
@[simp] theorem State.put_ibuf (bs : List Byte) : (s.put bs).ibuf = s.ibuf := rfl
@[simp] theorem State.put_obuf (bs : List Byte) : (s.put bs).obuf = Cells.writeAll s.obuf s.enc.wp bs := rfl
@[simp] theorem State.put_activity (bs : List Byte) : (s.put bs).activity = s.activity := rfl
@[simp] theorem State.put_host (bs : List Byte) : (s.put bs).host = s.host := rfl
@[simp] theorem State.put_epoch (bs : List Byte) : (s.put bs).epoch = s.epoch := rfl

/-! ## `EmitLiteral` (42_encoder R180). -/

@[simp] theorem State.emitLiteral_status (i L : Nat) : (s.emitLiteral i L).status = s.status := rfl
@[simp] theorem State.emitLiteral_ilen (i L : Nat) : (s.emitLiteral i L).ilen = s.ilen := rfl
@[simp] theorem State.emitLiteral_olen (i L : Nat) : (s.emitLiteral i L).olen = s.olen := rfl
@[simp] theorem State.emitLiteral_result (i L : Nat) : (s.emitLiteral i L).result = s.result := rfl
@[simp] theorem State.emitLiteral_dec (i L : Nat) : (s.emitLiteral i L).dec = s.dec := rfl
@[simp] theorem State.emitLiteral_enc (i L : Nat) : (s.emitLiteral i L).enc = { s.enc with wp := s.enc.wp + (encode (literalInstr L) ++ s.ibufRange i L).length } := rfl
@[simp] theorem State.emitLiteral_vc (i L : Nat) : (s.emitLiteral i L).vc = s.vc := rfl
@[simp] theorem State.emitLiteral_ht (i L : Nat) : (s.emitLiteral i L).ht = s.ht := rfl
@[simp] theorem State.emitLiteral_ibuf (i L : Nat) : (s.emitLiteral i L).ibuf = s.ibuf := rfl
@[simp] theorem State.emitLiteral_obuf (i L : Nat) : (s.emitLiteral i L).obuf = Cells.writeAll s.obuf s.enc.wp (encode (literalInstr L) ++ s.ibufRange i L) := rfl
@[simp] theorem State.emitLiteral_activity (i L : Nat) : (s.emitLiteral i L).activity = s.activity := rfl
@[simp] theorem State.emitLiteral_host (i L : Nat) : (s.emitLiteral i L).host = s.host := rfl
@[simp] theorem State.emitLiteral_epoch (i L : Nat) : (s.emitLiteral i L).epoch = s.epoch := rfl

/-! ## `EmitCopy` (42_encoder R181). -/

@[simp] theorem State.emitCopy_status (o L : Nat) : (s.emitCopy o L).status = s.status := rfl
@[simp] theorem State.emitCopy_ilen (o L : Nat) : (s.emitCopy o L).ilen = s.ilen := rfl
@[simp] theorem State.emitCopy_olen (o L : Nat) : (s.emitCopy o L).olen = s.olen := rfl
@[simp] theorem State.emitCopy_result (o L : Nat) : (s.emitCopy o L).result = s.result := rfl
@[simp] theorem State.emitCopy_dec (o L : Nat) : (s.emitCopy o L).dec = s.dec := rfl
@[simp] theorem State.emitCopy_enc (o L : Nat) : (s.emitCopy o L).enc = { s.enc with wp := s.enc.wp + ((matchInstrs o L).flatMap encode).length } := rfl
@[simp] theorem State.emitCopy_vc (o L : Nat) : (s.emitCopy o L).vc = s.vc := rfl
@[simp] theorem State.emitCopy_ht (o L : Nat) : (s.emitCopy o L).ht = s.ht := rfl
@[simp] theorem State.emitCopy_ibuf (o L : Nat) : (s.emitCopy o L).ibuf = s.ibuf := rfl
@[simp] theorem State.emitCopy_obuf (o L : Nat) : (s.emitCopy o L).obuf = Cells.writeAll s.obuf s.enc.wp ((matchInstrs o L).flatMap encode) := rfl
@[simp] theorem State.emitCopy_activity (o L : Nat) : (s.emitCopy o L).activity = s.activity := rfl
@[simp] theorem State.emitCopy_host (o L : Nat) : (s.emitCopy o L).host = s.host := rfl
@[simp] theorem State.emitCopy_epoch (o L : Nat) : (s.emitCopy o L).epoch = s.epoch := rfl

/-! ## `Insert` (41_matchfinder R157). -/

@[simp] theorem State.insertStep_status : (s.insertStep).status = s.status := rfl
@[simp] theorem State.insertStep_ilen : (s.insertStep).ilen = s.ilen := rfl
@[simp] theorem State.insertStep_olen : (s.insertStep).olen = s.olen := rfl
@[simp] theorem State.insertStep_result : (s.insertStep).result = s.result := rfl
@[simp] theorem State.insertStep_dec : (s.insertStep).dec = s.dec := rfl
@[simp] theorem State.insertStep_enc : (s.insertStep).enc = s.enc := rfl
@[simp] theorem State.insertStep_vc : (s.insertStep).vc = s.vc := rfl
@[simp] theorem State.insertStep_ht : (s.insertStep).ht = Cells.write s.ht s.enc.h s.enc.cur := rfl
@[simp] theorem State.insertStep_ibuf : (s.insertStep).ibuf = s.ibuf := rfl
@[simp] theorem State.insertStep_obuf : (s.insertStep).obuf = s.obuf := rfl
@[simp] theorem State.insertStep_activity : (s.insertStep).activity = s.activity := rfl
@[simp] theorem State.insertStep_host : (s.insertStep).host = s.host := rfl
@[simp] theorem State.insertStep_epoch : (s.insertStep).epoch = s.epoch := rfl

/-! ## `MissStep` (42_encoder R176). -/

@[simp] theorem State.missStep_status (P : Params) : (s.missStep P).status = s.status := rfl
@[simp] theorem State.missStep_ilen (P : Params) : (s.missStep P).ilen = s.ilen := rfl
@[simp] theorem State.missStep_olen (P : Params) : (s.missStep P).olen = s.olen := rfl
@[simp] theorem State.missStep_result (P : Params) : (s.missStep P).result = s.result := rfl
@[simp] theorem State.missStep_dec (P : Params) : (s.missStep P).dec = s.dec := rfl
@[simp] theorem State.missStep_enc (P : Params) : (s.missStep P).enc = { s.enc with cur := s.enc.cur + stride P s.enc.miss, miss := s.enc.miss + 1 } := rfl
@[simp] theorem State.missStep_vc (P : Params) : (s.missStep P).vc = s.vc := rfl
@[simp] theorem State.missStep_ht (P : Params) : (s.missStep P).ht = s.ht := rfl
@[simp] theorem State.missStep_ibuf (P : Params) : (s.missStep P).ibuf = s.ibuf := rfl
@[simp] theorem State.missStep_obuf (P : Params) : (s.missStep P).obuf = s.obuf := rfl
@[simp] theorem State.missStep_activity (P : Params) : (s.missStep P).activity = s.activity := rfl
@[simp] theorem State.missStep_host (P : Params) : (s.missStep P).host = s.host := rfl
@[simp] theorem State.missStep_epoch (P : Params) : (s.missStep P).epoch = s.epoch := rfl

/-! ## The reset event (70_reset R300). -/

@[simp] theorem State.resetEvent_status : (s.resetEvent).status = { state := .idle, err := .ok, cause := .none } := rfl
@[simp] theorem State.resetEvent_ilen : (s.resetEvent).ilen = 0 := rfl
@[simp] theorem State.resetEvent_olen : (s.resetEvent).olen = 0 := rfl
@[simp] theorem State.resetEvent_result : (s.resetEvent).result = 0 := rfl
@[simp] theorem State.resetEvent_dec : (s.resetEvent).dec = State.reset.dec := rfl
@[simp] theorem State.resetEvent_enc : (s.resetEvent).enc = State.reset.enc := rfl
@[simp] theorem State.resetEvent_vc : (s.resetEvent).vc = State.reset.vc := rfl
@[simp] theorem State.resetEvent_ht : (s.resetEvent).ht = [] := rfl
@[simp] theorem State.resetEvent_ibuf : (s.resetEvent).ibuf = [] := rfl
@[simp] theorem State.resetEvent_obuf : (s.resetEvent).obuf = [] := rfl
@[simp] theorem State.resetEvent_activity : (s.resetEvent).activity = .header := rfl
@[simp] theorem State.resetEvent_host : (s.resetEvent).host = s.host := rfl
@[simp] theorem State.resetEvent_epoch : (s.resetEvent).epoch = s.epoch + 1 := rfl

/-! ## Bytes and ranges: what they depend on -/

/-- An `IBUF` byte depends on `IBUF` and the unwritten bytes only. -/
theorem State.ibufByte_congr {s t : State} (h₁ : t.ibuf = s.ibuf) (h₂ : t.epoch = s.epoch) :
    t.ibufByte = s.ibufByte := by
  funext a; simp [State.ibufByte, h₁, h₂]

/-- An `OBUF` byte depends on `OBUF` and the unwritten bytes only. -/
theorem State.obufByte_congr {s t : State} (h₁ : t.obuf = s.obuf) (h₂ : t.epoch = s.epoch) :
    t.obufByte = s.obufByte := by
  funext a; simp [State.obufByte, h₁, h₂]

theorem State.ibufRange_congr {s t : State} (h : t.ibufByte = s.ibufByte) : t.ibufRange = s.ibufRange := by
  funext a n; simp [State.ibufRange, h]

@[simp] theorem State.length_ibufRange (a n : Nat) : (s.ibufRange a n).length = n := by simp [State.ibufRange]

@[simp] theorem State.getElem_ibufRange (a n i : Nat) (h : i < (s.ibufRange a n).length) :
    (s.ibufRange a n)[i] = s.ibufByte (a + i) := by simp [State.ibufRange]

/-- A range is its first part and the rest. -/
theorem State.ibufRange_add (a m n : Nat) : s.ibufRange a (m + n) = s.ibufRange a m ++ s.ibufRange (a + m) n := by
  simp [State.ibufRange, List.range_add, Function.comp_def, Nat.add_assoc]

theorem State.ibufRange_succ (a n : Nat) : s.ibufRange a (n + 1) = s.ibufByte a :: s.ibufRange (a + 1) n := by
  rw [Nat.add_comm n 1, State.ibufRange_add]; simp [State.ibufRange]

@[simp] theorem State.ibufRange_zero (a : Nat) : s.ibufRange a 0 = [] := rfl

theorem State.take_ibufRange (a m n : Nat) : (s.ibufRange a n).take m = s.ibufRange a (min m n) := by
  simp [State.ibufRange, ← List.map_take, List.take_range]

theorem State.drop_ibufRange (a m n : Nat) : (s.ibufRange a n).drop m = s.ibufRange (a + m) (n - m) := by
  apply List.ext_getElem
  · simp
  · intro i h₁ h₂; simp [Nat.add_assoc]

end Sys2Proof.Machine
end

