-- ==== Sys2Proof/Laws/Ops.lean ====
section
/-! SUPPORT. One lemma per shared operation that says everything it can do; later proofs cite these instead of unfolding
the operation. -/

namespace Sys2Proof.Machine

variable (s : State)

/-! ## A raise inside the decoder body -/

/-- A raise changes `STATUS`, `OLEN` and `RESULT` only. -/
theorem State.malformed_eq (c : Cause) :
    s.malformed c = { s with status := (s.malformed c).status, olen := 0, result := 0 } := by
  unfold State.malformed; split <;> rfl

@[simp] theorem State.malformed_ilen (c : Cause) : (s.malformed c).ilen = s.ilen := by rw [s.malformed_eq]
@[simp] theorem State.malformed_olen (c : Cause) : (s.malformed c).olen = 0 := by rw [s.malformed_eq]
@[simp] theorem State.malformed_result (c : Cause) : (s.malformed c).result = 0 := by rw [s.malformed_eq]
@[simp] theorem State.malformed_dec (c : Cause) : (s.malformed c).dec = s.dec := by rw [s.malformed_eq]
@[simp] theorem State.malformed_enc (c : Cause) : (s.malformed c).enc = s.enc := by rw [s.malformed_eq]
@[simp] theorem State.malformed_vc (c : Cause) : (s.malformed c).vc = s.vc := by rw [s.malformed_eq]
@[simp] theorem State.malformed_ht (c : Cause) : (s.malformed c).ht = s.ht := by rw [s.malformed_eq]
@[simp] theorem State.malformed_ibuf (c : Cause) : (s.malformed c).ibuf = s.ibuf := by rw [s.malformed_eq]
@[simp] theorem State.malformed_obuf (c : Cause) : (s.malformed c).obuf = s.obuf := by rw [s.malformed_eq]
@[simp] theorem State.malformed_activity (c : Cause) : (s.malformed c).activity = s.activity := by rw [s.malformed_eq]
@[simp] theorem State.malformed_host (c : Cause) : (s.malformed c).host = s.host := by rw [s.malformed_eq]
@[simp] theorem State.malformed_epoch (c : Cause) : (s.malformed c).epoch = s.epoch := by rw [s.malformed_eq]

@[simp] theorem State.malformed_state (c : Cause) : (s.malformed c).status.state = .done := by
  unfold State.malformed; split <;> rfl

/-- What the host sees after a raise in the decoder body (60_exceptions R270, R280). -/
theorem State.malformed_status (c : Cause) :
    (s.malformed c).status =
      (if s.dec.dry then { state := .done, err := .ok, cause := .none }
       else { state := .done, err := .malformedInput, cause := c }) := by
  unfold State.malformed; split <;> rfl

theorem State.malformed_raised (c : Cause) : Raised s (s.malformed c) c :=
  ⟨s.malformed_status c, s.malformed_olen c, s.malformed_result c⟩

/-! ## Applying a token -/

/-- `ApplyLiteral` either passes both checks and applies, or raises one of its two causes (43_decoder R210). -/
theorem State.applyLiteral_cases :
    (s.dec.op + s.dec.len ≤ s.dec.ulen ∧ s.dec.data + s.dec.len ≤ s.ilen.toNat ∧
      s.applyLiteral =
        { s with
          obuf := if s.dec.dry then s.obuf else moveLiteral s.ibufByte s.dec.data s.dec.op s.dec.len s.obuf
          dec := { s.dec with ip := s.dec.data + s.dec.len, op := s.dec.op + s.dec.len } }) ∨
    (s.dec.op + s.dec.len ≤ s.dec.ulen ∧ s.ilen.toNat < s.dec.data + s.dec.len ∧
      s.applyLiteral = s.malformed .literalTruncated) ∨
    (s.dec.ulen < s.dec.op + s.dec.len ∧ s.applyLiteral = s.malformed .outputOverrun) := by
  unfold State.applyLiteral
  by_cases h₁ : s.dec.op + s.dec.len ≤ s.dec.ulen
  · by_cases h₂ : s.dec.data + s.dec.len ≤ s.ilen.toNat
    · exact .inl ⟨h₁, h₂, by rw [if_pos h₁, if_pos h₂]⟩
    · exact .inr (.inl ⟨h₁, by omega, by rw [if_pos h₁, if_neg h₂]⟩)
  · exact .inr (.inr ⟨by omega, by rw [if_neg h₁]⟩)

/-- `ApplyCopy` either passes its three checks and applies, or raises the first that fails (43_decoder R211). -/
theorem State.applyCopy_cases (nxt : Nat) :
    (s.dec.off ≠ 0 ∧ s.dec.off ≤ s.dec.op ∧ s.dec.op + s.dec.len ≤ s.dec.ulen ∧
      s.applyCopy nxt =
        { s with
          obuf := if s.dec.dry then s.obuf else moveCopy s.epoch s.dec.op s.dec.off s.dec.len s.obuf
          dec := { s.dec with ip := nxt, op := s.dec.op + s.dec.len } }) ∨
    (s.dec.off ≠ 0 ∧ s.dec.off ≤ s.dec.op ∧ s.dec.ulen < s.dec.op + s.dec.len ∧
      s.applyCopy nxt = s.malformed .outputOverrun) ∨
    (s.dec.off ≠ 0 ∧ s.dec.op < s.dec.off ∧ s.applyCopy nxt = s.malformed .offsetRange) ∨
    (s.dec.off = 0 ∧ s.applyCopy nxt = s.malformed .offsetZero) := by
  unfold State.applyCopy
  by_cases h₀ : s.dec.off = 0
  · exact .inr (.inr (.inr ⟨h₀, by simp [h₀]⟩))
  by_cases h₁ : s.dec.off ≤ s.dec.op
  · by_cases h₂ : s.dec.op + s.dec.len ≤ s.dec.ulen
    · exact .inl ⟨h₀, h₁, h₂, by rw [if_pos h₀, if_pos h₁, if_pos h₂]⟩
    · exact .inr (.inl ⟨h₀, h₁, by omega, by rw [if_pos h₀, if_pos h₁, if_neg h₂]⟩)
  · exact .inr (.inr (.inl ⟨h₀, by omega, by rw [if_pos h₀, if_neg h₁]⟩))

/-- A literal after its field check: applied, or raised with `len` and `data` already set (43_decoder R202, R210). -/
theorem State.literal_cases (f len : Nat) :
    (s.dec.op + len ≤ s.dec.ulen ∧ s.dec.ip + 1 + f + len ≤ s.ilen.toNat ∧
      s.literal f len =
        { s with
          obuf := if s.dec.dry then s.obuf else moveLiteral s.ibufByte (s.dec.ip + 1 + f) s.dec.op len s.obuf
          dec := { s.dec with
            len := len, data := s.dec.ip + 1 + f, ip := s.dec.ip + 1 + f + len, op := s.dec.op + len } }) ∨
    (s.dec.op + len ≤ s.dec.ulen ∧ s.ilen.toNat < s.dec.ip + 1 + f + len ∧
      s.literal f len =
        State.malformed { s with dec := { s.dec with len := len, data := s.dec.ip + 1 + f } } .literalTruncated) ∨
    (s.dec.ulen < s.dec.op + len ∧
      s.literal f len =
        State.malformed { s with dec := { s.dec with len := len, data := s.dec.ip + 1 + f } } .outputOverrun) :=
  State.applyLiteral_cases { s with dec := { s.dec with len := len, data := s.dec.ip + 1 + f } }

/-- A copy after its field check: applied, or raised with `len` and `off` already set (43_decoder R207, R211). -/
theorem State.copy_cases (w len off : Nat) :
    (off ≠ 0 ∧ off ≤ s.dec.op ∧ s.dec.op + len ≤ s.dec.ulen ∧
      s.copy w len off =
        { s with
          obuf := if s.dec.dry then s.obuf else moveCopy s.epoch s.dec.op off len s.obuf
          dec := { s.dec with len := len, off := off, ip := s.dec.ip + 1 + w, op := s.dec.op + len } }) ∨
    (off ≠ 0 ∧ off ≤ s.dec.op ∧ s.dec.ulen < s.dec.op + len ∧
      s.copy w len off = State.malformed { s with dec := { s.dec with len := len, off := off } } .outputOverrun) ∨
    (off ≠ 0 ∧ s.dec.op < off ∧
      s.copy w len off = State.malformed { s with dec := { s.dec with len := len, off := off } } .offsetRange) ∨
    (off = 0 ∧
      s.copy w len off = State.malformed { s with dec := { s.dec with len := len, off := off } } .offsetZero) :=
  State.applyCopy_cases { s with dec := { s.dec with len := len, off := off } } (s.dec.ip + 1 + w)

/-- The end-of-stream check (43_decoder R216, R218; 44_peek_validate R242). -/
theorem State.endOfStream_cases :
    (s.dec.op = s.dec.ulen ∧ s.dec.dry = true ∧ s.endOfStream = s.finishValidate true) ∨
    (s.dec.op = s.dec.ulen ∧ s.dec.dry = false ∧ s.endOfStream = s.completeUncompress) ∨
    (s.dec.op ≠ s.dec.ulen ∧ s.endOfStream = s.malformed .lengthMismatch) := by
  unfold State.endOfStream
  by_cases h : s.dec.op = s.dec.ulen
  · cases d : s.dec.dry <;> simp [h]
  · simp [h]

/-! ## The literal and copy instructions by their forms -/

/-- Every literal instruction is the field check, if it has fields, and then `ApplyLiteral` (43_decoder R202 to R206). -/
theorem exec_literalForm {i : Instr} {f len : Nat} (h : literalForm i = some (f, len)) :
    exec i s = .next (if f = 0 ∨ s.dec.ip + 1 + f ≤ s.ilen.toNat then s.literal f len else s.malformed .fieldTruncated) := by
  cases i <;> simp only [literalForm, Option.some.injEq, Prod.mk.injEq, reduceCtorEq] at h <;>
    obtain ⟨rfl, rfl⟩ := h <;> simp [exec, execLit, execLitx1, execLitx2, execLitx3, execLitx4, State.requireFields]

/-- Every copy instruction is the field check and then `ApplyCopy` (43_decoder R207 to R209). -/
theorem exec_copyForm {i : Instr} {w len off : Nat} (h : copyForm i = some (w, len, off)) :
    exec i s = .next (if s.dec.ip + 1 + w ≤ s.ilen.toNat then s.copy w len off else s.malformed .fieldTruncated) := by
  cases i <;> simp only [copyForm, Option.some.injEq, Prod.mk.injEq, reduceCtorEq] at h <;>
    obtain ⟨rfl, rfl, rfl⟩ := h <;> simp [exec, execCopy1, execCopy2, execCopy4, State.requireFields]

/-- A token is a literal or a copy (30_encoding R106). -/
theorem token_form {i : Instr} (h : i.space = .token) :
    (∃ f len, literalForm i = some (f, len) ∧ 1 ≤ len ∧ f ≤ 4) ∨
    (∃ w len off, copyForm i = some (w, len, off) ∧ 1 ≤ len ∧ 1 ≤ w ∧ w ≤ 4) := by
  cases i <;> simp [Instr.space] at h <;> (simp [literalForm, copyForm]; try omega)

/-! ## Launch -/

theorem State.launch_busy (body : State → State) (h : s.status.state = .busy) : s.launch body = s := by
  simp [State.launch, h]

theorem State.launch_ready (body : State → State) (h : s.status.state ≠ .busy) :
    s.launch body = body s.beginCommand := by simp [State.launch, h]

end Sys2Proof.Machine
end

