-- ==== Sys2Proof/Laws/PerInstr.lean ====
section
/-! SUPPORT. A family of statements with one lemma per constructor: how many bytes an encoding takes (30_encoding R91,
R97 to R105, R118). -/

namespace Sys2Proof.Laws.EncodedLength

open Sys2Proof Sys2Proof.Machine

/-- An encoding takes one to five bytes: a literal its tag and escape bytes, a copy its tag and offset bytes. -/
def Statement (i : Instr) : Prop :=
  i.wf = true →
    1 ≤ (encode i).length ∧ (encode i).length ≤ 5 ∧
    (∀ f len, literalForm i = some (f, len) → (encode i).length = 1 + f) ∧
    (∀ w len off, copyForm i = some (w, len, off) → (encode i).length = 1 + w)

theorem hdr (j : Nat) (v : Word32) : Statement (.hdr j v) := fun h => by
  simp only [Instr.wf, Bool.and_eq_true, decide_eq_true_eq] at h
  simp [encode, literalForm, copyForm]; omega

theorem lit (m : BitVec 6) : Statement (.lit m) := fun _ => by simp +contextual [encode, literalForm, copyForm]
theorem litx1 (e : BitVec 8) : Statement (.litx1 e) := fun _ => by simp +contextual [encode, literalForm, copyForm]
theorem litx2 (e : BitVec 16) : Statement (.litx2 e) := fun _ => by simp +contextual [encode, literalForm, copyForm]
theorem litx3 (e : BitVec 24) : Statement (.litx3 e) := fun _ => by simp +contextual [encode, literalForm, copyForm]
theorem litx4 (e : BitVec 32) : Statement (.litx4 e) := fun _ => by simp +contextual [encode, literalForm, copyForm]
theorem copy1 (l : BitVec 3) (off : BitVec 11) : Statement (.copy1 l off) := fun _ => by
  simp +contextual [encode, literalForm, copyForm]
theorem copy2 (l : BitVec 6) (off : BitVec 16) : Statement (.copy2 l off) := fun _ => by
  simp +contextual [encode, literalForm, copyForm]
theorem copy4 (l : BitVec 6) (off : BitVec 32) : Statement (.copy4 l off) := fun _ => by
  simp +contextual [encode, literalForm, copyForm]
theorem compress : Statement .compress := fun _ => by simp [encode, literalForm, copyForm]
theorem uncompress : Statement .uncompress := fun _ => by simp [encode, literalForm, copyForm]
theorem decompress : Statement .decompress := fun _ => by simp [encode, literalForm, copyForm]
theorem ulen : Statement .ulen := fun _ => by simp [encode, literalForm, copyForm]
theorem validate : Statement .validate := fun _ => by simp [encode, literalForm, copyForm]

end Sys2Proof.Laws.EncodedLength
end

