-- ==== Sys2Proof/Laws/Tokens.lean ====
section
/-! SUPPORT. A token instruction in one equation: whether and how it fails depends on the decoder's cursors and `ILEN`
alone, and if it does not fail it moves bytes and advances the cursors (43_decoder R201 to R211, R221). -/

namespace Sys2Proof.Machine

/-- The first failing check of a token, with the registers it leaves (60_exceptions R266). -/
def tokenFailure (i : Instr) (ilen : Nat) (d : DecoderRegs) : Option (Cause × DecoderRegs) :=
  match literalForm i, copyForm i with
  | some (f, len), _ =>
    if ¬(f = 0 ∨ d.ip + 1 + f ≤ ilen) then some (.fieldTruncated, d)
    else if d.ulen < d.op + len then some (.outputOverrun, { d with len := len, data := d.ip + 1 + f })
    else if ilen < d.ip + 1 + f + len then some (.literalTruncated, { d with len := len, data := d.ip + 1 + f })
    else none
  | none, some (w, len, off) =>
    if ilen < d.ip + 1 + w then some (.fieldTruncated, d)
    else if off = 0 then some (.offsetZero, { d with len := len, off := off })
    else if d.op < off then some (.offsetRange, { d with len := len, off := off })
    else if d.ulen < d.op + len then some (.outputOverrun, { d with len := len, off := off })
    else none
  | none, none => none

/-- The decoder registers after a token that does not fail. -/
def tokenAdvance (i : Instr) (d : DecoderRegs) : DecoderRegs :=
  match literalForm i, copyForm i with
  | some (f, len), _ => { d with len := len, data := d.ip + 1 + f, ip := d.ip + 1 + f + len, op := d.op + len }
  | none, some (w, len, off) => { d with len := len, off := off, ip := d.ip + 1 + w, op := d.op + len }
  | none, none => d

/-- The bytes a token that does not fail moves, when it is not a dry run. -/
def tokenMove (i : Instr) (epoch : Nat) (src : Nat → Byte) (d : DecoderRegs) (m : Memory) : Memory :=
  match literalForm i, copyForm i with
  | some (f, len), _ => moveLiteral src (d.ip + 1 + f) d.op len m
  | none, some (_, len, off) => moveCopy epoch d.op off len m
  | none, none => m

/-- What a token instruction does, all forms at once. -/
theorem exec_token {i : Instr} (h : i.space = .token) (s : State) :
    exec i s = .next
      (match tokenFailure i s.ilen.toNat s.dec with
       | some (c, d) => State.malformed { s with dec := d } c
       | none =>
         { s with
           dec := tokenAdvance i s.dec
           obuf := if s.dec.dry then s.obuf else tokenMove i s.epoch s.ibufByte s.dec s.obuf }) := by
  rcases token_form h with ⟨f, len, hf, _⟩ | ⟨w, len, off, hc, _⟩
  · rw [exec_literalForm s hf]
    simp only [tokenFailure, tokenAdvance, tokenMove, hf]
    by_cases g : f = 0 ∨ s.dec.ip + 1 + f ≤ s.ilen.toNat
    · rw [if_pos g, if_neg (not_not.mpr g)]
      rcases s.literal_cases f len with ⟨a, b, e⟩ | ⟨a, b, e⟩ | ⟨a, e⟩
      · simp [e, Nat.not_lt.mpr a, Nat.not_lt.mpr b]
      · simp [e, Nat.not_lt.mpr a, b]
      · simp [e, a]
    · rw [if_neg g, if_pos g]
  · have hl : literalForm i = none := by cases i <;> simp_all [literalForm, copyForm]
    rw [exec_copyForm s hc]
    simp only [tokenFailure, tokenAdvance, tokenMove, hc, hl]
    by_cases g : s.dec.ip + 1 + w ≤ s.ilen.toNat
    · rw [if_pos g, if_neg (by omega)]
      rcases s.copy_cases w len off with ⟨a, b, c, e⟩ | ⟨a, b, c, e⟩ | ⟨a, b, e⟩ | ⟨a, e⟩
      · simp [e, a, Nat.not_lt.mpr b, Nat.not_lt.mpr c]
      · simp [e, a, Nat.not_lt.mpr b, c]
      · simp [e, a, b]
      · rw [e, if_pos a]
    · rw [if_neg g, if_pos (by omega)]

/-- A failing token leaves the cursors and `dry` alone, and its cause is none of the header's nor `NONE`. -/
theorem tokenFailure_regs {i : Instr} {ilen : Nat} {d d' : DecoderRegs} {c : Cause}
    (h : tokenFailure i ilen d = some (c, d')) :
    c ≠ .none ∧ d' = { d with len := d'.len, off := d'.off, data := d'.data } := by
  unfold tokenFailure at h
  split at h
  · split_ifs at h <;> simp only [Option.some.injEq, Prod.mk.injEq] at h <;> obtain ⟨rfl, rfl⟩ := h <;> simp
  · split_ifs at h <;> simp only [Option.some.injEq, Prod.mk.injEq] at h <;> obtain ⟨rfl, rfl⟩ := h <;> simp
  · simp at h

/-- Whether a token fails, and with which cause, depends on `ILEN`, `ip`, `op` and `ulen` only (43_decoder R211, R221). -/
theorem tokenFailure_congr {i : Instr} {ilen : Nat} {d e : DecoderRegs} (h₁ : e.ip = d.ip) (h₂ : e.op = d.op)
    (h₃ : e.ulen = d.ulen) :
    (tokenFailure i ilen e).map Prod.fst = (tokenFailure i ilen d).map Prod.fst := by
  unfold tokenFailure
  split
  · rw [h₁, h₂, h₃]; split_ifs <;> rfl
  · rw [h₁, h₂, h₃]; split_ifs <;> rfl
  · rfl

/-- The cursors after a token that does not fail: past the token, at most `ILEN`, and within the declared length. -/
theorem tokenAdvance_bounds {i : Instr} {ilen : Nat} {d : DecoderRegs} (h : i.space = .token)
    (ok : tokenFailure i ilen d = none) :
    d.ip + 2 ≤ (tokenAdvance i d).ip ∧ (tokenAdvance i d).ip ≤ ilen ∧ d.op < (tokenAdvance i d).op ∧
      (tokenAdvance i d).op ≤ d.ulen ∧ (tokenAdvance i d).ulen = d.ulen ∧ (tokenAdvance i d).dry = d.dry ∧
      (tokenAdvance i d).tag = d.tag := by
  rcases token_form h with ⟨f, len, hf, h₁, _⟩ | ⟨w, len, off, hc, h₁, hw, _⟩
  · simp only [tokenFailure, hf] at ok
    split_ifs at ok
    simp only [tokenAdvance, hf]
    refine ⟨?_, ?_, ?_, ?_, trivial, trivial, trivial⟩ <;> omega
  · have hl : literalForm i = none := by cases i <;> simp_all [literalForm, copyForm]
    simp only [tokenFailure, hc, hl] at ok
    split_ifs at ok
    simp only [tokenAdvance, hc, hl]
    refine ⟨?_, ?_, ?_, ?_, trivial, trivial, trivial⟩ <;> omega

/-- A token writes only between the old and the new `op` (20_memory R62, 43_decoder R215). -/
theorem obufRead_tokenMove_outside (i : Instr) (epoch : Nat) (src : Nat → Byte) (d : DecoderRegs) (m : Memory) (a : Nat)
    (h : a < d.op ∨ (tokenAdvance i d).op ≤ a) :
    obufRead epoch (tokenMove i epoch src d m) a = obufRead epoch m a := by
  unfold tokenMove tokenAdvance at *
  rcases hl : literalForm i with _ | ⟨f, len⟩ <;> rcases hc : copyForm i with _ | ⟨w, len', off⟩ <;>
    simp only [hl, hc] at h ⊢
  · exact obufRead_moveCopy_outside _ _ _ _ _ _ h
  all_goals rw [obufRead, obufRead, lookup_moveLiteral, if_neg (by omega)]

/-- The bytes a literal moves (43_decoder R210). -/
theorem obufRead_tokenMove_literal {i : Instr} {f len : Nat} (hf : literalForm i = some (f, len)) (epoch : Nat)
    (src : Nat → Byte) (d : DecoderRegs) (m : Memory) (j : Nat) (hj : j < len) :
    obufRead epoch (tokenMove i epoch src d m) (d.op + j) = src (d.ip + 1 + f + j) := by
  simp only [tokenMove, hf, obufRead, lookup_moveLiteral]
  rw [if_pos (by omega)]; simp

/-- Moving keeps the canonical form. -/
theorem wf_tokenMove (i : Instr) (epoch : Nat) (src : Nat → Byte) (d : DecoderRegs) {m : Memory} (h : Cells.wf m) :
    Cells.wf (tokenMove i epoch src d m) := by
  unfold tokenMove
  split
  · exact Cells.wf_moveLiteral h _ _ _ _
  · exact Cells.wf_moveCopy h _ _ _ _
  · exact h

/-! ## The decoder's rejections and answers -/

/-- A token is rejected only for a field cut by the end of the bytes. -/
theorem decodeToken_error {t : Byte} {bs : List Byte} {e : DecodeError} (h : decodeToken (t :: bs) = .error e) :
    e = .fieldTruncated := by
  have field : ∀ {n mk}, takeField n bs mk = .error e → e = .fieldTruncated := fun {n mk} h => by
    unfold takeField at h; split_ifs at h; simpa using h.symm
  simp only [decodeToken, decodeLiteral] at h
  split_ifs at h
  all_goals exact field h

/-- What the token decoder reads is a token. -/
theorem decodeToken_space {bs rest : List Byte} {i : Instr} (h : decodeToken bs = .ok (i, rest)) : i.space = .token := by
  cases bs with
  | nil => simp [decodeToken] at h
  | cons t bs =>
    have field : ∀ {n mk}, (∀ v, (mk v : Instr).space = .token) → takeField n bs mk = .ok (i, rest) → i.space = .token :=
      fun {n mk} hm h => by obtain ⟨fld, -, -, rfl⟩ := takeField_ok h; exact hm _
    simp only [decodeToken, decodeLiteral] at h
    split_ifs at h
    · simp only [Except.ok.injEq, Prod.mk.injEq] at h; rw [← h.1]; rfl
    all_goals exact field (fun v => rfl) h

/-- A header is rejected for one of three causes (40_varint R131). -/
theorem decodeHeader_error {bs : List Byte} {e : DecodeError} (h : decodeHeader bs = .error e) :
    e = .varintTruncated ∨ e = .varintTooLong ∨ e = .varintOverflow := by
  have loop : ∀ (bs : List Byte) {vk vv}, varintDecodeLoop vk vv bs = .error e →
      e = .varintTruncated ∨ e = .varintTooLong ∨ e = .varintOverflow := fun bs => by
    induction bs with
    | nil => intro vk vv h; simp only [varintDecodeLoop, Except.error.injEq] at h; exact .inl h.symm
    | cons b bs ih =>
      intro vk vv h
      simp only [varintDecodeLoop] at h
      split_ifs at h
      · simp only [Except.error.injEq] at h; exact .inr (.inl h.symm)
      · simp only [Except.error.injEq] at h; exact .inr (.inr h.symm)
      · exact ih h
  simp only [decodeHeader] at h
  split at h
  · simp at h
  · rename_i he; simp only [Except.error.injEq] at h; exact loop bs (h ▸ he)

/-- What a header decode answers: the instruction of the varint, within the input's first five bytes. -/
theorem decodeHeader_ok {bs rest : List Byte} {i : Instr} (h : decodeHeader bs = .ok (i, rest)) :
    ∃ v c, varintDecode bs = .ok (v, c, rest) ∧ i = .hdr c (BitVec.ofNat 32 v) := by
  simp only [decodeHeader] at h
  split at h
  · rename_i v c r hv
    simp only [Except.ok.injEq, Prod.mk.injEq] at h
    obtain ⟨rfl, rfl⟩ := h
    exact ⟨v, c, hv, rfl⟩
  · simp at h

/-- An accepted varint: at most five bytes, all present, and a 32-bit value. -/
theorem varintDecode_bounds {bs rest : List Byte} {v c : Nat} (h : varintDecode bs = .ok (v, c, rest)) :
    1 ≤ c ∧ c ≤ 5 ∧ c ≤ bs.length ∧ v < 2 ^ 32 ∧ bs = varintBytes c v ++ rest := by
  obtain ⟨j, w, h1, h5, hc, hw, hw5, hv, hbs⟩ := varintDecodeLoop_ok (by omega) h
  simp only [Nat.zero_add, Nat.mul_zero, pow_zero, Nat.mul_one] at hv hc
  subst hv hc
  refine ⟨h1, by omega, by rw [hbs]; simp, ?_, hbs⟩
  rcases Nat.lt_or_ge c 5 with l | l
  · exact lt_of_lt_of_le hw (Nat.pow_le_pow_right (by norm_num) (by omega))
  · have : c = 5 := by omega
    subst this; exact hw5 rfl

end Sys2Proof.Machine
end

