-- ==== Sys2Proof/Tests/Slice0.lean ====
section
/-! SUPPORT. Tests: one step, or one definition, on the spec's own vectors (95_test_vectors), and one witness for the
hypotheses of each statement. Every expected value is the spec's. -/

namespace Sys2Proof.Tests

open Sys2Proof Sys2Proof.Machine

/-! ## States to test on -/

/-- A waiting CORE whose operand is `bytes`. -/
def inputState (bytes : List Byte) : State :=
  { State.reset with ibuf := Cells.writeAll [] 0 bytes, ilen := BitVec.ofNat 64 bytes.length }

/-- The status of a running command. -/
def busy : Status := { state := .busy, err := .ok, cause := .none }

/-- A CORE in the token loop: `bytes` stand at `IBUF[ip]` and end the input, `out` has been produced. -/
def tokenState (ulen ip : Nat) (out bytes : List Byte) (dry : Bool := false) : State :=
  { State.reset with
    status := busy
    activity := .tokens
    ibuf := Cells.writeAll [] ip bytes
    ilen := BitVec.ofNat 64 (ip + bytes.length)
    obuf := Cells.writeAll [] 0 out
    dec := { State.reset.dec with ulen := ulen, ip := ip, op := out.length, dry := dry } }

/-- A CORE in the encoder loop at `cur`, with the given table, over `bytes`. -/
def encodeState (bytes : List Byte) (cur : Nat) (ht : Table) : State :=
  { inputState bytes with
    status := busy
    activity := .encode
    ht := ht
    enc := { State.reset.enc with n := bytes.length, k := 8, cur := cur, wp := 1 } }

/-- What a step leaves: the status word, `ip`, `op`, `len`, and the first bytes of `OBUF`. -/
def decoded (o : Host.Outcome State Fault Refusal) (count : Nat) :
    Option (BitVec 8 × Nat × Nat × Nat × List Byte) :=
  match o with
  | .next t => some (t.status.word, t.dec.ip, t.dec.op, t.dec.len, (List.range count).map t.obufByte)
  | .fault _ => none
  | .refused _ => none

/-- What a step leaves in the host's registers: `STATUS`, `OLEN`, `RESULT`. -/
def regs (o : Host.Outcome State Fault Refusal) : Option (BitVec 8 × BitVec 64 × BitVec 32) :=
  match o with
  | .next t => some (t.status.word, t.olen, t.result)
  | .fault _ => none
  | .refused _ => none

/-- What an encoder step leaves: `cur`, `lit`, `miss`, `wp`, `mlen`, and the bytes written from the old `wp` on. -/
def encoded (o : Host.Outcome State Fault Refusal) (wp : Nat) : Option (List Nat × List Byte) :=
  match o with
  | .next t =>
    some ([t.enc.cur, t.enc.lit, t.enc.miss, t.enc.wp, t.enc.mlen],
      (List.range (t.enc.wp - wp)).map fun j => t.obufByte (wp + j))
  | .fault _ => none
  | .refused _ => none

/-! ## Well-formedness: each check refuses an ill-formed term (30_encoding R91, R92, R97) -/

theorem test_wf_header_no_bytes : (Instr.hdr 0 0).wf = false := by decide
theorem test_wf_header_six_bytes : (Instr.hdr 6 0).wf = false := by decide
theorem test_wf_header_value_too_wide : (Instr.hdr 1 128).wf = false := by decide
theorem test_wf_literal_tag_of_another_row : (Instr.lit 60).wf = false := by decide

/-! ## Decoding words written out from the encodings -/

/-- 30_encoding R91: `10101100 00000010` is 0101100 + 128 * 0000010 = 44 + 256 (V-V2). -/
theorem test_decode_hdr : decodeHeader [0b10101100, 0b00000010, 0x55] = .ok (.hdr 2 300, [0x55]) := by decide
/-- 40_varint R134 (V-V2): a padded header. -/
theorem test_decode_hdr_padded : decodeHeader [0xAC, 0x82, 0x00] = .ok (.hdr 3 300, []) := by decide
/-- 30_encoding R97: `tag[7:2] = 000100`, class 00 (V-D1). -/
theorem test_decode_lit : decodeToken [0b00010000, 0x68] = .ok (.lit 4, [0x68]) := by decide
/-- R98: `tag[7:2] = 60` (V-D4). -/
theorem test_decode_litx1 : decodeToken [0b11110000, 0x3C] = .ok (.litx1 60, []) := by decide
/-- R99: `tag[7:2] = 61`, little-endian escape bytes (V-D6). -/
theorem test_decode_litx2 : decodeToken [0b11110100, 0x00, 0x01] = .ok (.litx2 0x0100, []) := by decide
/-- R100: `tag[7:2] = 62` (V-D7). -/
theorem test_decode_litx3 : decodeToken [0b11111000, 0x4F, 0x12, 0x01] = .ok (.litx3 0x01124F, []) := by decide
/-- R101: `tag[7:2] = 63` (V-D8). -/
theorem test_decode_litx4 : decodeToken [0b11111100, 0x01, 0x00, 0x00, 0x00] = .ok (.litx4 1, []) := by decide
/-- R102: `tag[1:0] = 01`, length 4 + 5, offset bits 10:8 in `tag[7:5]` (V-D9). -/
theorem test_decode_copy1 : decodeToken [0b00010101, 0x01] = .ok (.copy1 5 1, []) := by decide
/-- R102 (V-D12, further decodings): length 4 + 0, offset 7 * 256 + 255. -/
theorem test_decode_copy1_far : decodeToken [0b11100001, 0xFF] = .ok (.copy1 0 2047, []) := by decide
/-- R103: `tag[1:0] = 10` (V-D12, further decodings): length 4, offset 2048. -/
theorem test_decode_copy2 : decodeToken [0b00001110, 0x00, 0x08] = .ok (.copy2 3 2048, []) := by decide
/-- R104: `tag[1:0] = 11` (V-D12, further decodings): length 10, offset 70000. -/
theorem test_decode_copy4 : decodeToken [0b00100111, 0x70, 0x11, 0x01, 0x00] = .ok (.copy4 9 70000, []) := by decide
/-- 30_encoding R118, R120: the eight values of `CMD`. -/
theorem test_decode_commands :
    [0, 1, 2, 3, 4, 5, 6, 7].map decodeCommand =
      [.error .reservedCommand, .ok .compress, .ok .uncompress, .ok .ulen, .ok .validate, .error .reservedCommand,
       .error .reservedCommand, .error .reservedCommand] := by decide
/-- V-D24: a token whose field bytes are cut. -/
theorem test_decode_cut_field : decodeToken [0xF4, 0x04] = .error .fieldTruncated := by decide

/-! ## Encoding (V-V1, V-E17, V-E18) -/

theorem test_varint_encode :
    [0, 127, 128, 16383, 2097152, 268435456, 4294967295].map varintEncode =
      [[0x00], [0x7F], [0x80, 0x01], [0xFF, 0x7F], [0x80, 0x80, 0x80, 0x01], [0x80, 0x80, 0x80, 0x80, 0x01],
       [0xFF, 0xFF, 0xFF, 0xFF, 0x0F]] := by decide
theorem test_literal_heads :
    [1, 60, 61, 256, 257, 65536, 65537, 16777216, 16777217].map (fun L => encode (literalInstr L)) =
      [[0x00], [0xEC], [0xF0, 0x3C], [0xF0, 0xFF], [0xF4, 0x00, 0x01], [0xF4, 0xFF, 0xFF], [0xF8, 0x00, 0x00, 0x01],
       [0xF8, 0xFF, 0xFF, 0xFF], [0xFC, 0x00, 0x00, 0x00, 0x01]] := by decide
theorem test_copy_classes :
    [(1, 4), (2047, 11), (1, 12), (5, 3), (2048, 4), (65535, 64), (65536, 4), (4294967295, 64)].map
        (fun p => encode (copyInstr p.1 p.2)) =
      [[0x01, 0x01], [0xFD, 0xFF], [0x2E, 0x01, 0x00], [0x0A, 0x05, 0x00], [0x0E, 0x00, 0x08], [0xFE, 0xFF, 0xFF],
       [0x0F, 0x00, 0x00, 0x01, 0x00], [0xFF, 0xFF, 0xFF, 0xFF, 0xFF]] := by decide

/-! ## The match finder (V-E19) -/

theorem test_hash_default :
    hashDefault 0x64636261 8 = 174 ∧ hashDefault 0x646E6161 8 = 174 ∧ hashDefault 0x20656854 12 = 2101 ∧
    hashDefault 0x1B1A1918 14 = 678 := by decide
theorem test_kbits :
    [0, 256, 257, 513, 8192, 8193, 4294967295].map (kbits defaultParams) = [8, 8, 9, 10, 13, 14, 14] := by decide

/-! ## One step each -/

/-- Section 6: after reset `STATUS = 00` and `CMD` reads 0. -/
theorem test_reset : State.reset.status.word = 0x00 ∧ State.reset.readReg .cmd = .value 0 := by decide
/-- Memory lists nothing after reset, in canonical form. -/
theorem test_reset_memory_wf : Memory.wf State.reset.ibuf ∧ Memory.wf State.reset.obuf := by decide

/-- P1, step 1. -/
theorem test_hdr :
    decoded (step { inputState [0x05, 0x10, 0x68, 0x65, 0x6C, 0x6C, 0x6F] with status := busy, activity := .header }) 0 =
      some (0x01, 1, 0, 0, []) := by decide
/-- V-D29. -/
theorem test_hdr_overflow :
    regs (step { inputState [0xFF, 0xFF, 0xFF, 0xFF, 0x1F] with status := busy, activity := .header }) =
      some (0x3A, 0, 0) := by decide
/-- V-D1. -/
theorem test_lit :
    decoded (step (tokenState 5 1 [] [0x10, 0x68, 0x65, 0x6C, 0x6C, 0x6F])) 5 =
      some (0x01, 7, 5, 5, [0x68, 0x65, 0x6C, 0x6C, 0x6F]) := by decide
/-- V-D22: one payload byte short. -/
theorem test_lit_truncated :
    regs (step (tokenState 5 1 [] [0x10, 0x68, 0x65, 0x6C, 0x6C])) = some (0x5A, 0, 0) := by decide
/-- V-D5. -/
theorem test_litx1 : decoded (step (tokenState 1 1 [] [0xF0, 0x00, 0x61])) 1 = some (0x01, 4, 1, 1, [0x61]) := by decide
/-- 43_decoder R204 with a one-byte payload (R112). -/
theorem test_litx2 :
    decoded (step (tokenState 1 1 [] [0xF4, 0x00, 0x00, 0x61])) 1 = some (0x01, 5, 1, 1, [0x61]) := by decide
/-- V-D24. -/
theorem test_litx2_cut : regs (step (tokenState 5 1 [] [0xF4, 0x04])) = some (0x4A, 0, 0) := by decide
/-- 43_decoder R205 with a two-byte payload (R112). -/
theorem test_litx3 :
    decoded (step (tokenState 2 1 [] [0xF8, 0x01, 0x00, 0x00, 0x61, 0x62])) 2 = some (0x01, 7, 2, 2, [0x61, 0x62]) := by
  decide
/-- The length of V-D7, `0x01124F + 1`, against a shorter declared length: the output check of 43_decoder R210. -/
theorem test_litx3_overrun :
    decoded (step (tokenState 5 1 [] [0xF8, 0x4F, 0x12, 0x01, 0x61])) 0 = some (0x8A, 1, 0, 70224, []) := by decide
/-- V-D8. -/
theorem test_litx4 :
    decoded (step (tokenState 2 1 [] [0xFC, 0x01, 0x00, 0x00, 0x00, 0x61, 0x62])) 2 =
      some (0x01, 8, 2, 2, [0x61, 0x62]) := by decide
/-- V-D19: a length of 2^32. -/
theorem test_litx4_longest :
    decoded (step (tokenState 5 1 [] [0xFC, 0xFF, 0xFF, 0xFF, 0xFF, 0x00])) 0 =
      some (0x8A, 1, 0, 4294967296, []) := by decide
/-- V-D9: an overlapping copy. -/
theorem test_copy1 :
    decoded (step (tokenState 10 3 [0x61] [0x15, 0x01])) 10 =
      some (0x01, 5, 10, 9, List.replicate 10 0x61) := by decide
/-- V-D14. -/
theorem test_copy1_range : regs (step (tokenState 5 3 [0x61] [0x01, 0x02])) = some (0x7A, 0, 0) := by decide
/-- The accepted `COPY2 len=3` of section 3. -/
theorem test_copy2 :
    decoded (step (tokenState 4 3 [0x61] [0x0A, 0x01, 0x00])) 4 = some (0x01, 6, 4, 3, List.replicate 4 0x61) := by decide
/-- V-D26. -/
theorem test_copy2_zero : regs (step (tokenState 3 3 [0x61] [0x06, 0x00, 0x00])) = some (0x6A, 0, 0) := by decide
/-- The accepted `COPY4` of section 3. -/
theorem test_copy4 :
    decoded (step (tokenState 8 6 [0x61, 0x62, 0x63, 0x64] [0x0F, 0x04, 0x00, 0x00, 0x00])) 8 =
      some (0x01, 11, 8, 4, [0x61, 0x62, 0x63, 0x64, 0x61, 0x62, 0x63, 0x64]) := by decide
/-- V-D27: the offset is tested before the overrun. -/
theorem test_copy4_order :
    regs (step (tokenState 2 3 [0x61] [0x0B, 0x02, 0x00, 0x00, 0x00])) = some (0x7A, 0, 0) := by decide
/-- V-D20 and section 5: the end-of-stream check for `UNCOMPRESS` and for `VALIDATE`. -/
theorem test_end_of_stream :
    regs (step (tokenState 1 3 [0x61] [])) = some (0x02, 1, 0) ∧
    regs (step (tokenState 2 3 [0x61] [])) = some (0x9A, 0, 0) ∧
    regs (step (tokenState 1 3 [0x61] [] true)) = some (0x02, 0, 1) ∧
    regs (step (tokenState 2 3 [0x61] [] true)) = some (0x02, 0, 0) := by decide
/-- Section 5. -/
theorem test_ulen :
    regs (exec .ulen (inputState [0x05, 0x10])) = some (0x02, 0, 5) ∧
    regs (exec .ulen (inputState [])) = some (0x1A, 0, 0) ∧
    regs (exec .ulen (inputState [0x80, 0x80, 0x80, 0x80, 0x80, 0x00])) = some (0x2A, 0, 0) := by decide
/-- Section 6: `STATUS` reads 01 after the launch. -/
theorem test_launches :
    regs (exec .uncompress (inputState [0x00])) = some (0x01, 0, 0) ∧
    regs (exec .decompress (inputState [0x00])) = some (0x01, 0, 0) ∧
    regs (exec .validate (inputState [0x00])) = some (0x01, 0, 0) ∧
    regs (exec .compress (inputState [0x00])) = some (0x01, 0, 0) := by decide
/-- V-E16. -/
theorem test_compress_too_large :
    regs (exec .compress { inputState [] with ilen := 0x100000000 }) = some (0x06, 0, 0) := by decide
/-- V-E4, the only probe. -/
theorem test_compress_miss :
    encoded ((encodeState [0x61, 0x62, 0x63, 0x64] 0 []).encoderStep defaultParams) 1 = some ([1, 0, 1, 1, 0], []) := by
  decide
/-- V-E5, the matching probe. -/
theorem test_compress_match :
    encoded ((encodeState [0x61, 0x62, 0x63, 0x64, 0x61, 0x62, 0x63, 0x64] 4 [(174, 0)]).encoderStep defaultParams) 1 =
      some ([8, 8, 0, 8, 4], [0x0C, 0x61, 0x62, 0x63, 0x64, 0x01, 0x04]) := by decide
/-- V-E3: the end of a three-byte input. -/
theorem test_compress_rest :
    encoded ((encodeState [0x61, 0x62, 0x63] 0 []).encoderStep defaultParams) 1 =
      some ([0, 3, 0, 5, 0], [0x08, 0x61, 0x62, 0x63]) := by decide
/-- V-R: a reserved code changes nothing, and the write leaves the schedule. -/
theorem test_reserved_command :
    step { inputState [0x00] with host := [.writeCmd 5] } = .next (inputState [0x00]) := rfl
/-- What the host asks: a table word placed where the next step fetches it runs. -/
theorem test_fetch_words :
    decodeTableWord 0 0 = some (.hdr 1 0) ∧ decodeTableWord 8 0xEC = some (.lit 59) ∧
    decodeTableWord 8 0x15 = some (.copy1 5 0) ∧ decodeTableWord 3 4 = some .validate ∧
    regs (step (State.reset.withFetchWord 3 1)) = some (0x01, 0, 0) ∧
    regs (step (State.reset.withFetchWord 8 0x10)) = some (0x8A, 0, 0) := by decide

/-! ## Witnesses: for each statement, states and operands that meet its hypotheses, clause by clause -/

/-- A command that ends in its launch. -/
theorem completes_now {i : Instr} {s t : State} (h : exec i s = .next t) (d : t.status.state = .done) :
    Completes i s t := ⟨t, 0, h, rfl, d⟩

/-- A command that ends in two steps after its launch. -/
theorem completes_two {i : Instr} {s s₁ t : State} (h : exec i s = .next s₁) (k : steps 2 s₁ = .next t)
    (d : t.status.state = .done) : Completes i s t := ⟨s₁, 2, h, k, d⟩

theorem ready_input (bytes : List Byte) : (inputState bytes).Ready := ⟨nofun, rfl⟩

theorem witness_EncodedInstructionDecodesBack :
    (Instr.hdr 5 0xFFFFFFFF).wf ∧ (Instr.hdr 1 127).wf ∧ (Instr.lit 59).wf ∧ (Instr.copy1 7 2047).wf ∧
    Instr.decompress.wf := by decide
theorem witness_DecodedInstructionReencodes :
    decode .header [0x80, 0x00] = .ok (.hdr 2 0, []) ∧ decode .token [0xEC, 0xFF] = .ok (.lit 59, [0xFF]) ∧
    decode .command [0x04] = .ok (.validate, []) := by decide
theorem witness_EveryTagValueIsOneToken :
    (0xEC#8).toNat % 4 = 0 ∧ (0xEC#8).toNat ≤ 0xEC ∧ (0xF0#8).toNat = 0xF0 ∧ (0xF4#8).toNat = 0xF4 ∧
    (0xF8#8).toNat = 0xF8 ∧ (0xFC#8).toNat = 0xFC ∧ (0xFD#8).toNat % 4 = 1 ∧ (0xFE#8).toNat % 4 = 2 ∧
    (0xFF#8).toNat % 4 = 3 := by decide
theorem witness_VarintEncodingIsMinimal : 4294967295 < 2 ^ 32 ∧ varintSize 127 = 1 ∧ varintSize 128 = 2 := by decide
theorem witness_VarintReadsBackFromInput :
    4294967295 < 2 ^ 32 ∧ (inputState [0xFF, 0xFF, 0xFF, 0xFF, 0x0F, 0x80]).input = varintEncode 4294967295 ++ [0x80] := by
  decide
theorem witness_VarintDecodeResult_truncated :
    let s := inputState [0xFF, 0xFF, 0xFF, 0xFF]
    s.ilen.toNat = 4 ∧ ∀ a < 4, 128 ≤ (s.ibufByte a).toNat := by decide
theorem witness_VarintDecodeResult_too_long :
    let s := inputState [0x80, 0x80, 0x80, 0x80, 0x80]
    5 ≤ s.ilen.toNat ∧ ∀ a < 5, 128 ≤ (s.ibufByte a).toNat := by decide
theorem witness_VarintDecodeResult_overflow :
    let s := inputState [0x80, 0x80, 0x80, 0x80, 0x10]
    4 < s.ilen.toNat ∧ (∀ a < 4, 128 ≤ (s.ibufByte a).toNat) ∧ (s.ibufByte 4).toNat < 128 ∧
      16 ≤ (s.ibufByte 4).toNat := by decide
theorem witness_VarintDecodeResult_value :
    let s := inputState [0xFF, 0xFF, 0xFF, 0xFF, 0x0F]
    4 < s.ilen.toNat ∧ (∀ a < 4, 128 ≤ (s.ibufByte a).toNat) ∧ (s.ibufByte 4).toNat < 16 := by decide

theorem witness_StepRunsTheDecodedInstruction :
    (let s := tokenState 5 1 [] [0x10]
     s.host = [] ∧ s.status.state = .busy ∧ s.activity = .tokens ∧ s.dec.ip < s.ilen.toNat ∧
       decodeToken s.tokenBytes = .ok (.lit 4, [])) ∧
    (let s := { inputState [0x05] with status := busy, activity := .header }
     s.host = [] ∧ s.status.state = .busy ∧ s.activity = .header ∧ decodeHeader s.headerBytes = .ok (.hdr 1 5, [])) ∧
    (let s := { inputState [] with host := [.writeCmd 1] }
     s.host = [.writeCmd 1] ∧ s.status.state ≠ .busy ∧ decodeCommand 1 = .ok .compress) ∧
    (let s := encodeState [0x61] 0 []
     s.host = [] ∧ s.status.state = .busy ∧ s.activity = .encode) := by decide
theorem witness_RejectedFetchRaisesItsCause :
    (let s := { inputState [0x80] with status := busy, activity := .header }
     s.host = [] ∧ s.status.state = .busy ∧ s.activity = .header ∧
       decodeHeader s.headerBytes = .error .varintTruncated) ∧
    decodeHeader (inputState [0x80, 0x80, 0x80, 0x80, 0x80]).headerBytes = .error .varintTooLong ∧
    decodeHeader (inputState [0x80, 0x80, 0x80, 0x80, 0x10]).headerBytes = .error .varintOverflow ∧
    (let s := tokenState 5 1 [] [0xF4, 0x04]
     s.host = [] ∧ s.status.state = .busy ∧ s.activity = .tokens ∧ s.dec.ip < s.ilen.toNat ∧
       decodeToken s.tokenBytes = .error .fieldTruncated) := by decide
theorem witness_CoreWaitsForALaunch : State.reset.Ready := ⟨by decide, rfl⟩
theorem witness_IgnoredCommandWriteChangesNothing :
    (let s := { tokenState 5 1 [] [0x10] with host := [.writeCmd 1, .pass] }
     s.host = [.writeCmd 1, .pass] ∧ s.status.state = .busy) ∧
    (let s := { inputState [] with host := [.writeCmd 7] }
     s.host = [.writeCmd 7] ∧ (7 : BitVec 3) = 7) := by decide
theorem witness_HostBufferWrites :
    (let s := { tokenState 5 1 [] [0x10] with host := [.writeIlen 1] }
     s.host = [.writeIlen 1] ∧ s.status.state = .busy) ∧
    (let s := { inputState [] with host := [.writeIlen 1] }
     s.host = [.writeIlen 1] ∧ s.status.state ≠ .busy) ∧
    (let s := { tokenState 5 1 [] [0x10] with host := [.writeIbuf 0xFFFFFFFFFFFFFFFF 1] }
     s.host = [.writeIbuf 0xFFFFFFFFFFFFFFFF 1] ∧ s.status.state = .busy) ∧
    (let s := { inputState [] with host := [.writeIbuf 0xFFFFFFFFFFFFFFFF 1] }
     s.host = [.writeIbuf 0xFFFFFFFFFFFFFFFF 1] ∧ s.status.state ≠ .busy) := by decide
theorem witness_ResetStopsAnyCommand :
    ({ tokenState 5 1 [] [0x10] with host := [.reset] } : State).host = [.reset] := rfl
theorem witness_DecodeLaunchesClearResults : (inputState [0x05]).status.state ≠ .busy := by decide
theorem witness_CompressLaunchInitialises :
    let s := { inputState [] with ilen := 0xFFFFFFFF }
    s.status.state ≠ .busy ∧ s.ilen.toNat ≤ 2 ^ 32 - 1 := by decide
theorem witness_OversizedInputIsTooLarge :
    let s := { inputState [] with ilen := 0x100000000 }
    s.status.state ≠ .busy ∧ 2 ^ 32 - 1 < s.ilen.toNat := by decide
theorem witness_UlenAnswersTheHeader :
    (let s := inputState [0xFF, 0xFF, 0xFF, 0xFF, 0x0F]
     s.status.state ≠ .busy ∧ varintDecode s.headerBytes = .ok (4294967295, 5, [])) ∧
    (let s := inputState []
     s.status.state ≠ .busy ∧ varintDecode s.headerBytes = .error .varintTruncated) ∧
    varintDecode (inputState [0x80, 0x80, 0x80, 0x80, 0x80]).headerBytes = .error .varintTooLong ∧
    varintDecode (inputState [0x80, 0x80, 0x80, 0x80, 0x10]).headerBytes = .error .varintOverflow := by decide
theorem witness_HeaderSetsTheCursors : 2 ≤ (inputState [0x80, 0x00]).ilen.toNat ∧ (inputState [0x80]).ilen.toNat < 2 := by
  decide

theorem witness_LiteralCopiesItsPayload :
    let s := tokenState 2 1 [] [0xFC, 0x01, 0x00, 0x00, 0x00, 0x61, 0x62]
    literalForm (.litx4 1) = some (4, 2) ∧ s.dec.ip + 1 + 4 ≤ s.ilen.toNat ∧ s.dec.op + 2 ≤ s.dec.ulen ∧
      s.dec.ip + 1 + 4 + 2 ≤ s.ilen.toNat := by decide
theorem witness_LiteralRaisesInOrder :
    (let s := tokenState 5 1 [] [0xF0]
     literalForm (.litx1 0) = some (1, 1) ∧ s.ilen.toNat < s.dec.ip + 1 + 1) ∧
    (let s := tokenState 0 1 [] [0x00, 0x61]
     literalForm (.lit 0) = some (0, 1) ∧ s.dec.ulen < s.dec.op + 1) ∧
    (let s := tokenState 1 1 [] [0x00]
     literalForm (.lit 0) = some (0, 1) ∧ s.dec.op + 1 ≤ s.dec.ulen ∧ s.ilen.toNat < s.dec.ip + 1 + 0 + 1) := by decide
theorem witness_CopyRepeatsEarlierOutput :
    let s := tokenState 65 3 [0x61] [0xFE, 0x01, 0x00]
    copyForm (.copy2 63 1) = some (2, 64, 1) ∧ s.dec.ip + 1 + 2 ≤ s.ilen.toNat ∧ (1 : Nat) ≠ 0 ∧ 1 ≤ s.dec.op ∧
      s.dec.op + 64 ≤ s.dec.ulen := by decide
theorem witness_CopyClosedForm :
    let s := { tokenState 10 3 [0x61] [0x15, 0x01] with
      dec := { (tokenState 10 3 [0x61] [0x15, 0x01]).dec with len := 9, off := 1 } }
    s.dec.dry = false ∧ s.dec.off ≠ 0 ∧ s.dec.off ≤ s.dec.op ∧ s.dec.op + s.dec.len ≤ s.dec.ulen := by decide
theorem witness_CopyRaisesInOrder :
    (let s := tokenState 5 3 [0x61] [0x01]
     copyForm (.copy1 0 1) = some (1, 4, 1) ∧ s.ilen.toNat < s.dec.ip + 1 + 1) ∧
    (let s := tokenState 5 3 [0x61] [0x01, 0x00]
     copyForm (.copy1 0 0) = some (1, 4, 0) ∧ s.dec.ip + 1 + 1 ≤ s.ilen.toNat) ∧
    (let s := tokenState 5 3 [0x61] [0x01, 0x02]
     copyForm (.copy1 0 2) = some (1, 4, 2) ∧ s.dec.ip + 1 + 1 ≤ s.ilen.toNat ∧ s.dec.op < 2) ∧
    (let s := tokenState 4 3 [0x61] [0x01, 0x01]
     copyForm (.copy1 0 1) = some (1, 4, 1) ∧ s.dec.ip + 1 + 1 ≤ s.ilen.toNat ∧ 1 ≤ s.dec.op ∧
       s.dec.ulen < s.dec.op + 4) := by decide
theorem witness_EndOfStreamCheck :
    (let s := tokenState 1 3 [0x61] []
     s.host = [] ∧ s.status = { state := .busy, err := .ok, cause := .none } ∧ s.activity = .tokens ∧
       s.dec.ip = s.ilen.toNat ∧ s.dec.op = s.dec.ulen ∧ s.dec.dry = false) ∧
    (let s := tokenState 1 3 [0x61] [] true
     s.dec.ip = s.ilen.toNat ∧ s.dec.op = s.dec.ulen ∧ s.dec.dry = true) ∧
    (let s := tokenState 2 3 [0x61] []
     s.dec.ip = s.ilen.toNat ∧ s.dec.op ≠ s.dec.ulen) := by decide
theorem witness_TokenStepStaysInBounds :
    let s := tokenState 1 1 [] [0x00, 0x61]
    s.host = [] ∧ s.status.state = .busy ∧ s.activity = .tokens ∧ s.dec.ip < s.ilen.toNat ∧ ∃ t, step s = .next t :=
  ⟨rfl, rfl, rfl, by decide, _, rfl⟩
theorem witness_DecoderReadsStayInBounds :
    let s := tokenState 10 3 [0x61] [0x15, 0x01]
    s.host = [] ∧ s.status.state = .busy ∧ s.activity = .tokens ∧
    (∀ a < s.ilen.toNat, ({ s with ibuf := Cells.write s.ibuf 5 0xFF } : State).ibufByte a = s.ibufByte a) ∧
    s.dec.dry = false ∧
    (∀ a < s.dec.op, ({ s with obuf := Cells.write s.obuf 1 0xFF } : State).obufByte a = s.obufByte a) ∧
    ∃ t, step s = .next t := by
  refine ⟨rfl, rfl, rfl, ?_, rfl, ?_, _, rfl⟩ <;> intro a h
  · simp only [State.ibufByte]; rw [Cells.lookup_write_other]; intro e; subst e; exact absurd h (by decide)
  · simp only [State.obufByte, obufRead]; rw [Cells.lookup_write_other]; intro e; subst e; exact absurd h (by decide)
theorem witness_DryRunTakesTheSamePath :
    (Instr.copy1 5 1).space = .token ∧ (tokenState 10 3 [0x61] [0x15, 0x01]).status.state = .busy := by decide
theorem witness_DecodeCommandsTerminate : (inputState [0x05]).Ready := ready_input _

/-- The empty block decompresses in two steps (S7). -/
theorem witness_UncompressFailsWholesale :
    (inputState [0x00]).Ready ∧ (∃ t, Completes .uncompress (inputState [0x00]) t ∧ t.Succeeded) ∧
    ∃ t, Completes .uncompress (inputState [0x05]) t ∧ t.status.err = .malformedInput :=
  ⟨ready_input _, ⟨_, completes_two rfl rfl rfl, rfl⟩, ⟨_, completes_two rfl rfl rfl, rfl⟩⟩
theorem witness_ValidateNeverFails : (inputState [0x05]).Ready := ready_input _
theorem witness_ValidateAgreesWithUncompress : (inputState [0x00]).Ready := ready_input _
theorem witness_UlenForetellsUncompress :
    ∃ v, (inputState [0x00]).Ready ∧ Completes .uncompress (inputState [0x00]) v ∧ v.Succeeded :=
  ⟨_, ready_input _, completes_two rfl rfl rfl, rfl⟩
theorem witness_TruncatedBlockIsRejected :
    ∃ v, (inputState [0x80, 0x00]).Ready ∧ (inputState [0x80]).Ready ∧
      Completes .uncompress (inputState [0x80, 0x00]) v ∧ v.Succeeded ∧
      (inputState [0x80]).input = (inputState [0x80, 0x00]).input.dropLast :=
  ⟨_, ready_input _, ready_input _, completes_two rfl rfl rfl, rfl, by decide⟩
theorem witness_TrailingBytesAreRejected :
    ∃ v, (inputState [0x00]).Ready ∧ (inputState [0x00, 0x00]).Ready ∧ Completes .uncompress (inputState [0x00]) v ∧
      v.Succeeded ∧ ([0x00] : List Byte) ≠ [] ∧ (inputState [0x00, 0x00]).input = (inputState [0x00]).input ++ [0x00] :=
  ⟨_, ready_input _, ready_input _, completes_two rfl rfl rfl, rfl, by decide, by decide⟩

theorem hashDefault_lt (w : Word32) {k : Nat} (h : k ≤ 32) : hashDefault w k < 2 ^ k := by
  unfold hashDefault
  rw [Nat.shiftRight_eq_div_pow, Nat.div_lt_iff_lt_mul (by positivity), ← Nat.pow_add, show k + (32 - k) = 32 by omega]
  exact (w * 0x1E35A7BD#32).isLt
/-- The default parameters, with the hash cut to tables of at most 2^32 entries, meet 00_scope R13. -/
theorem witness_KbitsIsTheLeastFit :
    ({ defaultParams with hash := fun w k => if k ≤ 32 then hashDefault w k else 0 } : Params).Ok :=
  ⟨by decide, by decide, by decide, fun w k => by
    show (if k ≤ 32 then hashDefault w k else 0) < 2 ^ k
    split
    · exact hashDefault_lt w (by assumption)
    · positivity⟩
theorem witness_ProbeReadsBeforeItWrites :
    Cells.lookup (encodeState [0x61, 0x62, 0x63, 0x64] 0 []).ht 174 = none ∧
    (defaultParams.hash ((encodeState [0x61, 0x62, 0x63, 0x64] 0 []).window 0) 8 = 174) := by decide
theorem witness_ProbeFindsTheLongestRun :
    let s := encodeState [0x61, 0x62, 0x63, 0x64, 0x61, 0x62, 0x63, 0x64, 0x65] 4 [(174, 0)]
    s.enc.cur ≤ s.enc.n ∧ 0 < s.enc.cur ∧ Cells.lookup s.ht (defaultParams.hash (s.window s.enc.cur) s.enc.k) = some 0 ∧
      s.enc.cur + (s.probe defaultParams).enc.mlen < s.enc.n := by decide
theorem witness_LiteralFormIsShortest :
    1 ≤ 2 ^ 32 ∧ (Instr.litx4 4294967295).wf = true ∧ literalForm (.litx4 4294967295) = some (4, 2 ^ 32) := by decide
theorem witness_CopyClassIsShortest :
    1 ≤ 2048 ∧ 2048 < 2 ^ 32 ∧ 1 ≤ 4 ∧ 4 ≤ 64 ∧ copyForm (.copy4 3 2048) = some (4, 4, 2048) := by decide
theorem witness_MatchSplitsIntoCopies : 1 ≤ 1 ∧ 1 < 2 ^ 32 ∧ 1 ≤ 999 := by decide
theorem witness_MissStepWidensTheStride :
    let s := encodeState [0x61, 0x62, 0x63, 0x64] 0 []
    s.enc.est = .scanning ∧ s.enc.cur + 4 ≤ s.enc.n ∧ (s.probe defaultParams).enc.mlen < 4 := by decide
theorem witness_MatchStepEmitsLiteralThenCopies :
    let s := encodeState [0x61, 0x62, 0x63, 0x64, 0x61, 0x62, 0x63, 0x64] 4 [(174, 0)]
    s.enc.est = .scanning ∧ s.enc.cur + 4 ≤ s.enc.n ∧ 4 ≤ (s.probe defaultParams).enc.mlen ∧ s.enc.lit < s.enc.cur := by
  decide
theorem witness_EndOfInputEmitsTheRest :
    let s := encodeState [0x61, 0x62, 0x63] 0 []
    s.enc.est = .scanning ∧ s.enc.n < s.enc.cur + 4 ∧ s.enc.lit < s.enc.n := by decide
theorem witness_CompressTerminates :
    (∃ t, (encodeState [0x61, 0x62, 0x63, 0x64] 0 []).enc.est = .scanning ∧
      (encodeState [0x61, 0x62, 0x63, 0x64] 0 []).encoderStep defaultParams = .next t) ∧
    (inputState [0x61]).Ready ∧ (inputState [0x61]).ilen.toNat ≤ 2 ^ 32 - 1 :=
  ⟨⟨_, rfl, rfl⟩, ready_input _, by decide⟩

/-- One byte compresses in two steps after the launch, whatever the parameters (V-E2). -/
theorem witness_compressed :
    ∃ t, (inputState [0x61]).Ready ∧ (inputState [0x61]).ilen.toNat ≤ 2 ^ 32 - 1 ∧
      Completes .compress (inputState [0x61]) t ∧ (inputState [0x01, 0x00, 0x61]).Ready ∧
      (inputState [0x01, 0x00, 0x61]).input = t.output :=
  ⟨_, ready_input _, by decide, completes_two rfl rfl rfl, ready_input _, by decide⟩
theorem witness_CompressedSizeIsBounded :
    ∃ t, (inputState [0x61]).Ready ∧ (inputState [0x61]).ilen.toNat ≤ 2 ^ 32 - 1 ∧
      Completes .compress (inputState [0x61]) t :=
  ⟨_, ready_input _, by decide, completes_two rfl rfl rfl⟩
theorem witness_IncompressibleInputIsOneLiteral :
    ∃ t, (inputState [0x61]).Ready ∧ (inputState [0x61]).ilen.toNat ≤ 2 ^ 32 - 1 ∧
      (∀ p q, p < q → q + 4 ≤ (inputState [0x61]).ilen.toNat →
        (inputState [0x61]).ibufRange p 4 ≠ (inputState [0x61]).ibufRange q 4) ∧
      Completes .compress (inputState [0x61]) t :=
  ⟨_, ready_input _, by decide, fun p q _ h => absurd h (by show ¬q + 4 ≤ 1; omega), completes_two rfl rfl rfl⟩
theorem witness_EmptyInputIsTheZeroByte :
    (inputState []).Ready ∧ (inputState []).ilen = 0 ∧ (inputState [0x00]).Ready ∧ (inputState [0x00]).input = [0] :=
  ⟨ready_input _, by decide, ready_input _, by decide⟩
theorem witness_UlenOfCompressedIsTheLength :
    ∃ t, Completes .compress (inputState [0x61]) t ∧ (inputState [0x01, 0x00, 0x61]).input = t.output :=
  ⟨_, completes_two rfl rfl rfl, by decide⟩
theorem witness_UncompressUndoesCompress :
    (inputState [0x61]).Ready ∧ (inputState [0x61]).ilen.toNat ≤ 2 ^ 32 - 1 := ⟨ready_input _, by decide⟩

/-- Two states with the same operand and everything else different. -/
theorem witness_NoStateReachesTheNextCommand :
    ∃ t, Instr.ulen.space = .command ∧ (inputState [0x05]).Ready ∧
      ({ inputState [0x05] with
          dec := (tokenState 9 9 [0x61] [0x00] true).dec, ht := [(3, 4)], obuf := [(0, 1)], olen := 7 } : State).Ready ∧
      ({ inputState [0x05] with
          dec := (tokenState 9 9 [0x61] [0x00] true).dec, ht := [(3, 4)], obuf := [(0, 1)], olen := 7 } : State).input =
        (inputState [0x05]).input ∧
      Completes .ulen (inputState [0x05]) t :=
  ⟨_, rfl, ready_input _, ⟨by decide, rfl⟩, by decide, completes_now rfl rfl⟩
theorem witness_WhoWritesWhat :
    (∃ t, step (encodeState [0x61, 0x62, 0x63, 0x64] 0 []) = .next t ∧ (encodeState [0x61, 0x62, 0x63, 0x64] 0 []).host = [] ∧
      t.ht ≠ (encodeState [0x61, 0x62, 0x63, 0x64] 0 []).ht) ∧
    (∃ t, step { encodeState [0x61] 0 [] with host := [.poll] } = .next t ∧
      (encodeState [0x61] 0 []).status.state = .busy) ∧
    (∃ t, step { inputState [0x61] with host := [.writeCmd 1] } = .next t) ∧
    ∃ t, step (tokenState 2 3 [0x61] []) = .next t ∧ (tokenState 2 3 [0x61] []).status.state ≠ .idle :=
  ⟨⟨_, rfl, rfl, List.cons_ne_nil _ _⟩, ⟨_, rfl, rfl⟩, ⟨_, rfl⟩, _, rfl, by decide⟩
theorem witness_HostReadsFollowTheWindows :
    (tokenState 5 1 [] [0x10]).status.state = .busy ∧ Reg.cmd ≠ .status ∧ (inputState []).status.state ≠ .busy ∧
    (let s := { inputState [] with status := { state := .done, err := .ok, cause := .none }, olen := 1 }
     s.status.state = .done ∧ s.status.err = .ok ∧ 0 < s.olen.toNat ∧ s.olen.toNat ≤ 1) := by decide
/-- `UNCOMPRESS` of `01 00 61` ends with one result byte. -/
theorem witness_OnlyResultBytesAreReadable :
    Instr.uncompress.space = .command ∧ (inputState [0x01, 0x00, 0x61]).Ready ∧
    ∃ t, Completes .uncompress (inputState [0x01, 0x00, 0x61]) t ∧ t.output = [0x61] :=
  ⟨rfl, ready_input _, _, ⟨_, 3, rfl, rfl, rfl⟩, by decide⟩
/-- A state of the token loop, and one of the encoder loop, that meet the invariant. -/
theorem witness_StepKeepsTheInvariant :
    (tokenState 10 3 [0x61] [0x15, 0x01]).Inv ∧
    ({ encodeState [0x61] 0 [] with
        enc := { (encodeState [0x61] 0 []).enc with k := Config.params.htMinBits } } : State).Inv := by
  have k : Config.params.htMinBits ≤ 32 := by simp only [Config.params]; omega
  refine ⟨⟨by decide, by decide, by decide, ⟨by decide, by decide, by decide, by decide⟩,
      ⟨by decide, by decide, by decide, by decide, by decide, by decide, by decide, by decide, by decide, by decide,
        by decide, by decide, nofun, by decide, by decide, by decide, by decide, by decide⟩,
      fun _ _ => ⟨by decide, by decide⟩, nofun⟩,
    ⟨by decide, by decide, by decide, ⟨by decide, by decide, by decide, by decide⟩,
      ⟨by decide, by decide, by decide, by decide, by decide, by decide, by decide, ?_, by decide, by decide,
        by decide, by decide, nofun, by decide, by decide, by decide, by decide, by decide⟩, nofun,
      fun _ _ => ⟨by decide, Nat.le_refl _, ?_, by decide, by decide, by decide, nofun, by decide, nofun, by decide,
        nofun⟩⟩⟩
  · show Config.params.htMinBits < 2 ^ 6
    omega
  · show Config.params.htMinBits ≤ Config.params.htMaxBits
    simp only [Config.params]; omega

end Sys2Proof.Tests
end

section
/-! The step, one equation per case (43_decoder R200, R201; 10_state R22; 42_encoder R170). -/

namespace Sys2Proof.Machine

/-! ## One equation per case of the step -/

theorem step_of_no_moves {s : State} (quiet : s.host = []) : step s = s.coreStep := by
  unfold step; rw [quiet]

theorem step_waiting {s : State} (quiet : s.host = []) (waiting : s.status.state ≠ .busy) : step s = .next s := by
  rw [step_of_no_moves quiet, State.coreStep]
  cases hs : s.status.state with
  | idle => rfl
  | done => rfl
  | busy => exact absurd hs waiting

theorem step_header {s : State} (quiet : s.host = []) (busy : s.status.state = .busy) (act : s.activity = .header) :
    step s = s.runDecoded (decodeHeader s.headerBytes) := by
  simp only [step_of_no_moves quiet, State.coreStep, busy, act]

theorem step_tokens {s : State} (quiet : s.host = []) (busy : s.status.state = .busy) (act : s.activity = .tokens) :
    step s = s.tokenStep := by
  simp only [step_of_no_moves quiet, State.coreStep, busy, act]

theorem step_encode {s : State} (quiet : s.host = []) (busy : s.status.state = .busy) (act : s.activity = .encode) :
    step s = s.encoderStep Config.params := by
  simp only [step_of_no_moves quiet, State.coreStep, busy, act]

theorem State.tokenStep_fetch {s : State} (more : s.dec.ip < s.ilen.toNat) :
    s.tokenStep = s.loadTag.runDecoded (decodeToken s.tokenBytes) := if_pos more

theorem State.tokenStep_end {s : State} (last : s.ilen.toNat ≤ s.dec.ip) : s.tokenStep = .next s.endOfStream :=
  if_neg (Nat.not_lt.mpr last)

theorem State.runDecoded_ok {s : State} {d : Except DecodeError (Instr × List Byte)} {i : Instr} {rest : List Byte}
    (h : d = .ok (i, rest)) : s.runDecoded d = exec i s := by subst h; rfl

theorem State.runDecoded_error {s : State} {d : Except DecodeError (Instr × List Byte)} {e : DecodeError}
    (h : d = .error e) : s.runDecoded d = .next (s.malformed (causeOf e)) := by subst h; rfl

/-- A write of a valid code to `CMD` is taken off the schedule and launches its command (10_state R22). -/
theorem step_writeCmd {s : State} {c : BitVec 3} {ms : List HostMove} {i : Instr} (move : s.host = .writeCmd c :: ms)
    (waiting : s.status.state ≠ .busy) (dec : decodeCommand c = .ok i) : step s = exec i { s with host := ms } := by
  unfold step
  rw [move]
  simp [State.hostStep, State.commandWrite, waiting, dec]

/-- Settles O10, from the equations of the step: each clause is one of its cases. -/
theorem stepRunsTheDecodedInstruction : Obligations.StepRunsTheDecodedInstruction := by
  intro s i rest
  refine ⟨fun quiet busy act more dec => ?_, fun quiet busy act dec => ?_, fun c ms move waiting dec => ?_,
    fun quiet busy act => step_encode quiet busy act⟩
  · rw [step_tokens quiet busy act, State.tokenStep_fetch more, State.runDecoded_ok dec, State.loadTag]
  · rw [step_header quiet busy act, State.runDecoded_ok dec]
  · exact step_writeCmd move waiting dec

end Sys2Proof.Machine
end

section
/-! Everything a running CORE can do in one step that the host leaves to it, and the induction over a run. -/

namespace Sys2Proof.Machine

/-- `CoreStep s t`: a running CORE in `s` goes to `t` in one step; one constructor per branch of the decoder body
(43_decoder R200, R201) and of the encoder's loop (42_encoder R170, R174). -/
inductive CoreStep (s : State) : State → Prop
  | header {v c : Nat} {rest : List Byte} (act : s.activity = .header)
      (dec : varintDecode s.headerBytes = .ok (v, c, rest)) :
      CoreStep s { s with
        dec := { s.dec with ulen := v, ip := c, op := 0 }, vc := { vv := v, vk := c - 1 }, activity := .tokens }
  | headerRejected {e : DecodeError} (act : s.activity = .header) (dec : varintDecode s.headerBytes = .error e) :
      CoreStep s (s.malformed (causeOf e))
  | token {i : Instr} {rest : List Byte} (act : s.activity = .tokens) (more : s.dec.ip < s.ilen.toNat)
      (dec : decodeToken s.tokenBytes = .ok (i, rest)) (ok : tokenFailure i s.ilen.toNat s.loadTag.dec = none) :
      CoreStep s { s with
        dec := tokenAdvance i s.loadTag.dec
        obuf := if s.dec.dry then s.obuf else tokenMove i s.epoch s.ibufByte s.loadTag.dec s.obuf }
  | tokenFailed {i : Instr} {rest : List Byte} {c : Cause} {d : DecoderRegs} (act : s.activity = .tokens)
      (more : s.dec.ip < s.ilen.toNat) (dec : decodeToken s.tokenBytes = .ok (i, rest))
      (bad : tokenFailure i s.ilen.toNat s.loadTag.dec = some (c, d)) :
      CoreStep s (State.malformed { s with dec := d } c)
  | tokenRejected {e : DecodeError} (act : s.activity = .tokens) (more : s.dec.ip < s.ilen.toNat)
      (dec : decodeToken s.tokenBytes = .error e) : CoreStep s (s.loadTag.malformed .fieldTruncated)
  | endOfStream (act : s.activity = .tokens) (last : s.ilen.toNat ≤ s.dec.ip) : CoreStep s s.endOfStream
  | scan (act : s.activity = .encode) (est : s.enc.est = .scanning) : CoreStep s (s.scanStep Config.params)
  | complete (act : s.activity = .encode) (est : s.enc.est = .done) : CoreStep s s.completeCompress

/-! ## The steps of a CORE the host leaves alone are exactly these -/

@[simp] theorem State.length_headerBytes (s : State) : s.headerBytes.length = min 5 s.ilen.toNat :=
  s.length_ibufRange _ _

/-- A header the decoder reads lies in the input, so `HDR` sets the cursors (40_varint R131, R136). -/
theorem runDecoded_header {s : State} {v c : Nat} {rest : List Byte}
    (dec : varintDecode s.headerBytes = .ok (v, c, rest)) :
    s.runDecoded (decodeHeader s.headerBytes) = .next { s with
      dec := { s.dec with ulen := v, ip := c, op := 0 }, vc := { vv := v, vk := c - 1 }, activity := .tokens } := by
  obtain ⟨-, -, inInput, v32, -⟩ := varintDecode_bounds dec
  rw [s.length_headerBytes] at inInput
  have inIlen : c ≤ s.ilen.toNat := by omega
  have word : (BitVec.ofNat 32 v).toNat = v := by rw [BitVec.toNat_ofNat, Nat.mod_eq_of_lt v32]
  have asInstr : decodeHeader s.headerBytes = .ok (.hdr c (BitVec.ofNat 32 v), rest) := by rw [decodeHeader, dec]
  rw [State.runDecoded_ok asInstr, exec, execHdr, if_pos inIlen, word]

theorem runDecoded_headerRejected {s : State} {e : DecodeError} (dec : varintDecode s.headerBytes = .error e) :
    s.runDecoded (decodeHeader s.headerBytes) = .next (s.malformed (causeOf e)) :=
  State.runDecoded_error (by rw [decodeHeader, dec])

/-- While `ip < ILEN` there is a tag, so only cut fields reject a token. -/
theorem decodeToken_tokenBytes_error {s : State} {e : DecodeError} (more : s.dec.ip < s.ilen.toNat)
    (dec : decodeToken s.tokenBytes = .error e) : e = .fieldTruncated := by
  obtain ⟨n, hn⟩ : ∃ n, min 5 (s.ilen.toNat - s.dec.ip) = n + 1 := ⟨min 5 (s.ilen.toNat - s.dec.ip) - 1, by omega⟩
  rw [State.tokenBytes, hn, s.ibufRange_succ] at dec
  exact decodeToken_error dec

theorem CoreStep.step {s t : State} (quiet : s.host = []) (busy : s.status.state = .busy) (h : CoreStep s t) :
    step s = .next t := by
  cases h with
  | header act dec => rw [step_header quiet busy act, runDecoded_header dec]
  | headerRejected act dec => rw [step_header quiet busy act, runDecoded_headerRejected dec]
  | token act more dec ok =>
    rw [step_tokens quiet busy act, State.tokenStep_fetch more, State.runDecoded_ok dec,
      exec_token (decodeToken_space dec), State.loadTag_ilen, ok]
    rfl
  | tokenFailed act more dec bad =>
    rw [step_tokens quiet busy act, State.tokenStep_fetch more, State.runDecoded_ok dec,
      exec_token (decodeToken_space dec), State.loadTag_ilen, bad]
    rfl
  | tokenRejected act more dec =>
    rw [step_tokens quiet busy act, State.tokenStep_fetch more, State.runDecoded_error dec,
      decodeToken_tokenBytes_error more dec, causeOf]
  | endOfStream act last => rw [step_tokens quiet busy act, State.tokenStep_end last]
  | scan act est => rw [step_encode quiet busy act, State.encoderStep, est]
  | complete act est => rw [step_encode quiet busy act, State.encoderStep, est]

/-- The encoder faults only while `EMITTING` (42_encoder R174, log 10); everywhere else a running CORE can step. -/
theorem exists_coreStep {s : State} (emitting : s.activity = .encode → s.enc.est ≠ .emitting) : ∃ t, CoreStep s t := by
  cases act : s.activity with
  | header =>
    cases dec : varintDecode s.headerBytes with
    | ok r => exact ⟨_, .header act dec⟩
    | error e => exact ⟨_, .headerRejected act dec⟩
  | tokens =>
    rcases Nat.lt_or_ge s.dec.ip s.ilen.toNat with more | last
    · cases dec : decodeToken s.tokenBytes with
      | error e => exact ⟨_, .tokenRejected act more dec⟩
      | ok r =>
        cases bad : tokenFailure r.1 s.ilen.toNat s.loadTag.dec with
        | none => exact ⟨_, .token act more dec bad⟩
        | some f => exact ⟨_, .tokenFailed act more dec bad⟩
    · exact ⟨_, .endOfStream act last⟩
  | encode =>
    cases est : s.enc.est with
    | scanning => exact ⟨_, .scan act est⟩
    | emitting => exact absurd est (emitting act)
    | done => exact ⟨_, .complete act est⟩

theorem step_next_iff {s t : State} (quiet : s.host = []) (busy : s.status.state = .busy) :
    step s = .next t ↔ CoreStep s t := by
  refine ⟨fun h => ?_, CoreStep.step quiet busy⟩
  have emitting : s.activity = .encode → s.enc.est ≠ .emitting := fun act est => by
    rw [step_encode quiet busy act, State.encoderStep, est] at h
    cases h
  obtain ⟨u, hu⟩ := exists_coreStep emitting
  rw [hu.step quiet busy, Host.Outcome.next.injEq] at h
  exact h ▸ hu

/-! ## What the moves of the encoder leave unchanged -/

theorem State.emitMatch_eq (s : State) :
    s.emitMatch = { s with obuf := s.emitMatch.obuf, enc := { s.enc with wp := s.emitMatch.enc.wp } } := by
  unfold State.emitMatch; split <;> rfl

theorem State.endOfInput_eq (s : State) :
    s.endOfInput = { s with
      obuf := s.endOfInput.obuf
      enc := { s.enc with lit := s.enc.n, est := .done, wp := s.endOfInput.enc.wp } } := by
  unfold State.endOfInput; split <;> rfl

/-- The table entry a probe at the cursor reads and overwrites (41_matchfinder R155, R157). -/
def State.probeIndex (P : Params) (s : State) : Nat := P.hash (s.window s.enc.cur) s.enc.k

theorem State.probe_eq (P : Params) (s : State) :
    s.probe P = { s with
      ht := Cells.write s.ht (s.probeIndex P) s.enc.cur
      enc := { s.enc with
        h := s.probeIndex P, cand := Cells.lookup s.ht (s.probeIndex P)
        mlen := (s.probe P).enc.mlen, dist := (s.probe P).enc.dist } } := by
  unfold State.probe State.validateStep; split <;> rfl

theorem State.scanStep_end {P : Params} {s : State} (last : s.enc.n < s.enc.cur + 4) : s.scanStep P = s.endOfInput :=
  if_pos last

theorem State.scanStep_match {P : Params} {s : State} (more : s.enc.cur + 4 ≤ s.enc.n)
    (found : 4 ≤ (s.probe P).enc.mlen) : s.scanStep P = (s.probe P).matchStep := by
  simp only [State.scanStep, if_neg (Nat.not_lt.mpr more), if_pos found]

theorem State.scanStep_miss {P : Params} {s : State} (more : s.enc.cur + 4 ≤ s.enc.n)
    (missed : (s.probe P).enc.mlen < 4) : s.scanStep P = (s.probe P).missStep P := by
  simp only [State.scanStep, if_neg (Nat.not_lt.mpr more), if_neg (Nat.not_le.mpr missed)]

theorem State.scanStep_cases (P : Params) (s : State) :
    (s.enc.n < s.enc.cur + 4 ∧ s.scanStep P = s.endOfInput) ∨
    (s.enc.cur + 4 ≤ s.enc.n ∧ 4 ≤ (s.probe P).enc.mlen ∧ s.scanStep P = (s.probe P).matchStep) ∨
    (s.enc.cur + 4 ≤ s.enc.n ∧ (s.probe P).enc.mlen < 4 ∧ s.scanStep P = (s.probe P).missStep P) := by
  rcases Nat.lt_or_ge s.enc.n (s.enc.cur + 4) with last | more
  · exact .inl ⟨last, State.scanStep_end last⟩
  · rcases Nat.lt_or_ge (s.probe P).enc.mlen 4 with missed | found
    · exact .inr (.inr ⟨more, missed, State.scanStep_miss more missed⟩)
    · exact .inr (.inl ⟨more, found, State.scanStep_match more found⟩)

theorem State.scanStep_eq (P : Params) (s : State) :
    s.scanStep P = { s with enc := (s.scanStep P).enc, ht := (s.scanStep P).ht, obuf := (s.scanStep P).obuf } := by
  rcases s.scanStep_cases P with ⟨-, e⟩ | ⟨-, -, e⟩ | ⟨-, -, e⟩ <;> rw [e]
  · rw [s.endOfInput_eq]
  · rw [State.matchStep, State.emitMatch_eq, s.probe_eq P]
  · rw [State.missStep, s.probe_eq P]

/-! ## Induction over a run -/

/-- What every step keeps holds at the end of a run. -/
theorem steps_induction {p : State → Prop} (keep : ∀ s t, p s → step s = .next t → p t) {k : Nat} {s t : State}
    (start : p s) (run : steps k s = .next t) : p t := by
  induction k generalizing s with
  | zero => cases run; exact start
  | succ k ih =>
    rw [steps] at run
    split at run
    · rename_i s' one; exact ih (keep s s' start one) run
    all_goals cases run

/-- A relation that every step keeps in lockstep is kept along a run. -/
theorem steps_simulation {r : State → State → Prop}
    (sim : ∀ s u t, r s u → step s = .next t → ∃ v, step u = .next v ∧ r t v) {k : Nat} {s u t : State}
    (start : r s u) (run : steps k s = .next t) : ∃ v, steps k u = .next v ∧ r t v := by
  induction k generalizing s u with
  | zero => cases run; exact ⟨u, rfl, start⟩
  | succ k ih =>
    rw [steps] at run
    split at run
    · rename_i s' one
      obtain ⟨u', two, next⟩ := sim s u s' start one
      rw [steps, two]
      exact ih next run
    all_goals cases run

end Sys2Proof.Machine
end

section
/-! What a command leaves for the host: the launch of each command in one equation, an induction over the run of a
command, and with it the legal `STATUS` and the result bytes (10_state R25, R46; 60_exceptions R271). -/

namespace Sys2Proof.Machine

/-! ## The launch of a command, all commands at once (10_state R53) -/

/-- What a command does to the initialised state when it is launched; an instruction that is no command does nothing. -/
def commandBody : Instr → State → State
  | .compress, s => s.startCompress Config.params
  | .uncompress, s | .decompress, s => s.startDecode false
  | .ulen, s => s.peekLength
  | .validate, s => s.startDecode true
  | .hdr _ _, s | .lit _, s | .litx1 _, s | .litx2 _, s | .litx3 _, s | .litx4 _, s => s
  | .copy1 _ _, s | .copy2 _ _, s | .copy4 _ _, s => s

theorem exec_command {i : Instr} {s : State} (cmd : i.space = .command) (waiting : s.status.state ≠ .busy) :
    exec i s = .next (commandBody i s.beginCommand) := by
  have launch (body : State → State) : Host.Outcome.next (s.launch body) =
      (.next (body s.beginCommand) : Host.Outcome State Fault Refusal) := by rw [s.launch_ready body waiting]
  cases i with
  | compress | uncompress | decompress | ulen | validate => exact launch _
  | _ => cases cmd

theorem State.peekLength_ok {s : State} {v c : Nat} {rest : List Byte}
    (dec : varintDecode s.headerBytes = .ok (v, c, rest)) :
    s.peekLength = { s with
      status := { s.status with state := .done }, result := BitVec.ofNat 32 v, vc := { vv := v, vk := c - 1 } } := by
  rw [State.peekLength, dec]

theorem State.peekLength_error {s : State} {e : DecodeError} (dec : varintDecode s.headerBytes = .error e) :
    s.peekLength = s.raise .malformedInput (causeOf e) := by
  rw [State.peekLength, dec]

theorem State.startCompress_cases (P : Params) (s : State) :
    (s.ilen.toNat ≤ 2 ^ 32 - 1 ∧ s.startCompress P = s.beginEncode P) ∨
    (2 ^ 32 - 1 < s.ilen.toNat ∧ s.startCompress P = s.raise .inputTooLarge .none) := by
  rcases Nat.lt_or_ge (2 ^ 32 - 1) s.ilen.toNat with large | fits
  · exact .inr ⟨large, if_neg (Nat.not_le.mpr large)⟩
  · exact .inl ⟨fits, if_pos fits⟩

theorem commandBody_host (i : Instr) (s : State) : (commandBody i s).host = s.host := by
  cases i with
  | compress => rcases s.startCompress_cases Config.params with ⟨-, e⟩ | ⟨-, e⟩ <;> rw [commandBody, e] <;> rfl
  | ulen =>
    cases dec : varintDecode s.headerBytes with
    | ok r => rw [commandBody, State.peekLength_ok dec]
    | error e => rw [commandBody, State.peekLength_error dec, State.raise_host]
  | _ => rfl

/-! ## Induction over the run of a command -/

theorem CoreStep.host {s t : State} (h : CoreStep s t) : t.host = s.host := by
  cases h with
  | header | token | complete => rfl
  | headerRejected | tokenFailed | tokenRejected => simp
  | endOfStream => rcases s.endOfStream_cases with ⟨-, -, e⟩ | ⟨-, -, e⟩ | ⟨-, e⟩ <;> simp [e]
  | scan => rw [s.scanStep_eq]

/-- What the launch of a command establishes and every step of the running CORE keeps holds when the command ends. -/
theorem Completes.induction {p : State → Prop} {i : Instr} {s t : State} (h : Completes i s t)
    (cmd : i.space = .command) (ready : s.Ready) (launch : p (commandBody i s.beginCommand))
    (keep : ∀ s t, s.status.state = .busy → p s → CoreStep s t → p t) : p t := by
  obtain ⟨s₁, k, first, run, -⟩ := h
  rw [exec_command cmd ready.waiting, Host.Outcome.next.injEq] at first
  have start : s₁.host = [] ∧ p s₁ := first ▸ ⟨(commandBody_host i _).trans ready.no_moves, launch⟩
  refine (steps_induction (p := fun s => s.host = [] ∧ p s) (fun s t hs one => ?_) start run).2
  obtain ⟨quiet, hp⟩ := hs
  by_cases busy : s.status.state = .busy
  · have move := (step_next_iff quiet busy).mp one
    exact ⟨move.host.trans quiet, keep s t busy hp move⟩
  · rw [step_waiting quiet busy, Host.Outcome.next.injEq] at one
    exact one ▸ ⟨quiet, hp⟩

/-! ## `STATUS` stays legal (10_state R23, R25, R26) -/

theorem State.StatusLegal.congr {s t : State} (h : s.StatusLegal) (status : t.status = s.status)
    (olen : t.olen = s.olen) (result : t.result = s.result) : t.StatusLegal := by
  obtain ⟨cause_iff, err_ok, olen_zero, result_zero⟩ := h
  exact ⟨by rwa [status], by rwa [status], by rwa [status, olen], by rwa [status, result]⟩

theorem State.beginCommand_statusLegal (s : State) : s.beginCommand.StatusLegal := by
  constructor <;> simp

/-- A raise is legal when only `MalformedInput` comes with a cause (60_exceptions R262). -/
theorem State.raise_statusLegal (s : State) {err : Err} {c : Cause} (h : c ≠ .none ↔ err = .malformedInput) :
    (s.raise err c).StatusLegal := by
  constructor <;> simp [h]

theorem State.finishValidate_statusLegal (s : State) (v : Bool) : (s.finishValidate v).StatusLegal := by
  constructor <;> simp

theorem State.malformed_statusLegal (s : State) {c : Cause} (h : c ≠ .none) : (s.malformed c).StatusLegal := by
  unfold State.malformed
  split
  · exact s.finishValidate_statusLegal false
  · exact s.raise_statusLegal (iff_of_true h rfl)

/-- A running command has raised nothing, so it can end in a success with any results. -/
theorem State.StatusLegal.done {s t : State} (h : s.StatusLegal) (busy : s.status.state = .busy)
    (status : t.status = { s.status with state := .done }) : t.StatusLegal := by
  have ok : s.status.err = .ok := h.err_ok (by simp [busy])
  have cause := h.cause_iff
  constructor <;> simp_all

theorem causeOf_varint_error {bs : List Byte} {e : DecodeError} (dec : varintDecode bs = .error e) :
    causeOf e ≠ .none := by
  rcases decodeHeader_error (bs := bs) (e := e) (by rw [decodeHeader, dec]) with rfl | rfl | rfl <;> simp [causeOf]

theorem commandBody_statusLegal (i : Instr) {s : State} (busy : s.status.state = .busy) (h : s.StatusLegal) :
    (commandBody i s).StatusLegal := by
  cases i with
  | compress =>
    rcases s.startCompress_cases Config.params with ⟨-, e⟩ | ⟨-, e⟩ <;> rw [commandBody, e]
    · exact h.congr rfl rfl rfl
    · exact s.raise_statusLegal (by simp)
  | ulen =>
    cases dec : varintDecode s.headerBytes with
    | ok r => rw [commandBody, State.peekLength_ok dec]; exact h.done busy rfl
    | error e =>
      rw [commandBody, State.peekLength_error dec]
      exact s.raise_statusLegal (iff_of_true (causeOf_varint_error dec) rfl)
  | _ => exact h.congr rfl rfl rfl

theorem CoreStep.statusLegal {s t : State} (busy : s.status.state = .busy) (h : s.StatusLegal) (move : CoreStep s t) :
    t.StatusLegal := by
  cases move with
  | header | token => exact h.congr rfl rfl rfl
  | headerRejected act dec => exact s.malformed_statusLegal (causeOf_varint_error dec)
  | tokenFailed act more dec bad => exact State.malformed_statusLegal _ (tokenFailure_regs bad).1
  | tokenRejected => exact State.malformed_statusLegal _ (by simp)
  | endOfStream =>
    rcases s.endOfStream_cases with ⟨-, -, e⟩ | ⟨-, -, e⟩ | ⟨-, e⟩ <;> rw [e]
    · exact s.finishValidate_statusLegal true
    · exact h.done busy rfl
    · exact s.malformed_statusLegal (by simp)
  | scan => rw [s.scanStep_eq]; exact h.congr rfl rfl rfl
  | complete => exact h.done busy rfl

theorem Completes.statusLegal {i : Instr} {s t : State} (cmd : i.space = .command) (ready : s.Ready)
    (h : Completes i s t) : t.StatusLegal :=
  h.induction cmd ready (commandBody_statusLegal i rfl s.beginCommand_statusLegal)
    fun _ _ busy legal move => move.statusLegal busy legal

/-! ## `ULEN` and `VALIDATE` have no output (44_peek_validate R240, R242) -/

/-- No output so far, and none to come: what runs, if anything does, is the decoder body in dry mode. -/
structure State.NoOutput (s : State) : Prop where
  olen : s.olen = 0
  dry : s.status.state = .busy → s.activity ≠ .encode ∧ s.dec.dry = true

theorem State.noOutput_of_done {s : State} (olen : s.olen = 0) (done : s.status.state = .done) : s.NoOutput :=
  ⟨olen, fun busy => by simp [done] at busy⟩

theorem State.malformed_noOutput (s : State) (c : Cause) : (s.malformed c).NoOutput :=
  State.noOutput_of_done (s.malformed_olen c) (s.malformed_state c)

theorem CoreStep.noOutput {s t : State} (busy : s.status.state = .busy) (h : s.NoOutput) (move : CoreStep s t) :
    t.NoOutput := by
  obtain ⟨olen, dry⟩ := h
  obtain ⟨act, isDry⟩ := dry busy
  cases move with
  | header => exact ⟨olen, fun _ => ⟨by simp, isDry⟩⟩
  | token act' more dec ok =>
    obtain ⟨-, -, -, -, -, keepsDry, -⟩ := tokenAdvance_bounds (decodeToken_space dec) ok
    exact ⟨olen, fun _ => ⟨act, keepsDry.trans isDry⟩⟩
  | headerRejected | tokenFailed | tokenRejected => exact State.malformed_noOutput _ _
  | endOfStream =>
    rcases s.endOfStream_cases with ⟨-, -, e⟩ | ⟨-, notDry, -⟩ | ⟨-, e⟩
    · rw [e]; exact State.noOutput_of_done rfl rfl
    · simp [isDry] at notDry
    · rw [e]; exact s.malformed_noOutput _
  | scan act' | complete act' => exact absurd act' act

theorem peekLength_noOutput {s : State} (olen : s.olen = 0) : s.peekLength.NoOutput := by
  cases dec : varintDecode s.headerBytes with
  | ok r => rw [State.peekLength_ok dec]; exact State.noOutput_of_done olen rfl
  | error e => rw [State.peekLength_error dec]; exact State.noOutput_of_done rfl rfl

theorem Completes.noOutput {i : Instr} {s t : State} (answer : i = .ulen ∨ i = .validate) (ready : s.Ready)
    (h : Completes i s t) : t.NoOutput := by
  have keep : ∀ s t : State, s.status.state = .busy → s.NoOutput → CoreStep s t → t.NoOutput :=
    fun _ _ busy none move => move.noOutput busy none
  rcases answer with rfl | rfl
  · exact h.induction rfl ready (peekLength_noOutput s.beginCommand_olen) keep
  · exact h.induction rfl ready ⟨rfl, fun _ => ⟨by simp [commandBody, State.startDecode], rfl⟩⟩ keep

/-! ## The result bytes -/

theorem State.output_getElem?_of_lt {t : State} {a : Nat} (h : a < t.olen.toNat) :
    t.output[a]? = some (t.obufByte a) := by simp [State.output, h]

theorem State.output_getElem?_of_le {t : State} {a : Nat} (h : t.olen.toNat ≤ a) : t.output[a]? = none := by
  simp [State.output, h]

theorem State.output_of_olen_zero {t : State} (h : t.olen = 0) : t.output = [] := by simp [State.output, h]

/-- Settles O59: a legal `STATUS` gives no `OLEN` to an error, and `ULEN` and `VALIDATE` never set it. -/
theorem onlyResultBytesAreReadable : Obligations.OnlyResultBytesAreReadable := by
  intro i s t cmd ready ends
  have legal : t.StatusLegal := ends.statusLegal cmd ready
  obtain ⟨-, -, -, -, done⟩ := id ends
  refine ⟨fun a => ?_, fun noResult => State.output_of_olen_zero ?_⟩
  · rcases Nat.lt_or_ge a t.olen.toNat with below | above
    · have ok : t.status.err = .ok := by
        by_contra err
        simp [legal.olen_zero (.inr err)] at below
      rw [State.output_getElem?_of_lt below]
      simp [State.readObuf, done, ok, below]
    · rw [State.output_getElem?_of_le above]
      simp [State.readObuf, done, Nat.not_lt.mpr above]
  · rcases noResult with err | answer
    · exact legal.olen_zero (.inr err)
    · exact (ends.noOutput answer ready).olen

end Sys2Proof.Machine
end

section
/-! The shared operations read only what they may: each answers alike from memories that agree on the bytes in its
range (20_memory R61, R62; 41_matchfinder R156). -/

namespace Sys2Proof.Machine

/-! ## `OBUF` after a write -/

theorem obufRead_write (epoch : Nat) (m : Memory) (x : Nat) (b : Byte) (a : Nat) :
    obufRead epoch (Cells.write m x b) a = if a = x then b else obufRead epoch m a := by
  rw [obufRead, Cells.lookup_write]; split <;> rfl

theorem obufRead_writeAll (epoch : Nat) (m : Memory) (x : Nat) (bs : List Byte) (a : Nat) :
    obufRead epoch (Cells.writeAll m x bs) a =
      if x ≤ a then (bs[a - x]?).getD (obufRead epoch m a) else obufRead epoch m a := by
  rw [obufRead, Cells.lookup_writeAll]
  by_cases low : x ≤ a
  · rw [if_pos low]
    by_cases high : a < x + bs.length
    · rw [if_pos ⟨low, high⟩, List.getElem?_eq_getElem (by omega)]; rfl
    · rw [if_neg (by omega), List.getElem?_eq_none (by omega)]; rfl
  · rw [if_neg (by omega), if_neg low]; rfl

theorem obufRead_moveLiteral (epoch : Nat) (src : Nat → Byte) (data op count : Nat) (m : Memory) (a : Nat) :
    obufRead epoch (moveLiteral src data op count m) a =
      if op ≤ a ∧ a < op + count then src (data + (a - op)) else obufRead epoch m a := by
  rw [obufRead, lookup_moveLiteral]; split <;> rfl

/-! ## The moves of a token -/

/-- A copy from equal output below `op` gives equal output below the new `op`: it reads only behind itself. -/
theorem obufRead_moveCopy_congr {ep₁ ep₂ op off : Nat} {m₁ m₂ : Memory} (pos : off ≠ 0) (le : off ≤ op)
    (same : ∀ a < op, obufRead ep₂ m₂ a = obufRead ep₁ m₁ a) (count : Nat) :
    ∀ a < op + count,
      obufRead ep₂ (moveCopy ep₂ op off count m₂) a = obufRead ep₁ (moveCopy ep₁ op off count m₁) a := by
  induction count with
  | zero => exact same
  | succ i ih =>
    intro a ha
    simp only [moveCopy, copyByte, obufRead_write]
    split
    · exact ih _ (by omega)
    · exact ih a (by omega)

theorem obufRead_moveLiteral_congr {ep₁ ep₂ data op count : Nat} {src₁ src₂ : Nat → Byte} {m₁ m₂ : Memory}
    (src : ∀ a < data + count, src₂ a = src₁ a) (same : ∀ a < op, obufRead ep₂ m₂ a = obufRead ep₁ m₁ a) :
    ∀ a < op + count,
      obufRead ep₂ (moveLiteral src₂ data op count m₂) a = obufRead ep₁ (moveLiteral src₁ data op count m₁) a := by
  intro a ha
  simp only [obufRead_moveLiteral]
  split
  · exact src _ (by omega)
  · exact same a (by omega)

/-- Where a token leaves the cursors depends on where it found them. -/
theorem tokenAdvance_cursors_congr {d e : DecoderRegs} (i : Instr) (ip : e.ip = d.ip) (op : e.op = d.op) :
    (tokenAdvance i e).ip = (tokenAdvance i d).ip ∧ (tokenAdvance i e).op = (tokenAdvance i d).op := by
  unfold tokenAdvance; split <;> simp [ip, op]

theorem literalForm_of_copyForm {i : Instr} {r : Nat × Nat × Nat} (h : copyForm i = some r) : literalForm i = none := by
  cases i with
  | copy1 | copy2 | copy4 => rfl
  | _ => cases h

/-- A token that passes its checks reads the input below `ILEN` and the output below `op` only. -/
theorem obufRead_tokenMove_congr {i : Instr} {ilen ep₁ ep₂ : Nat} {src₁ src₂ : Nat → Byte} {d e : DecoderRegs}
    {m₁ m₂ : Memory} (tok : i.space = .token) (ok : tokenFailure i ilen d = none) (ip : e.ip = d.ip) (op : e.op = d.op)
    (src : ∀ a < ilen, src₂ a = src₁ a) (same : ∀ a < d.op, obufRead ep₂ m₂ a = obufRead ep₁ m₁ a) :
    ∀ a < (tokenAdvance i d).op,
      obufRead ep₂ (tokenMove i ep₂ src₂ e m₂) a = obufRead ep₁ (tokenMove i ep₁ src₁ d m₁) a := by
  rcases token_form tok with ⟨f, len, form, -⟩ | ⟨w, len, off, form, -⟩
  · simp only [tokenFailure, form] at ok
    split_ifs at ok
    simp only [tokenMove, tokenAdvance, form, ip, op]
    exact obufRead_moveLiteral_congr (fun a ha => src a (by omega)) same
  · have noLiteral := literalForm_of_copyForm form
    simp only [tokenFailure, form, noLiteral] at ok
    split_ifs at ok with _ zero
    simp only [tokenMove, tokenAdvance, form, noLiteral, op]
    exact obufRead_moveCopy_congr zero (by omega) same len

/-! ## What a probe finds (41_matchfinder R156) -/

theorem State.probe_mlen_of_none {P : Params} {s : State} (empty : Cells.lookup s.ht (s.probeIndex P) = none) :
    (s.probe P).enc.mlen = 0 := by
  have cand : (s.lookupStep P).enc.cand = none := empty
  rw [State.probe, State.validateStep, cand]; rfl

theorem State.probe_of_some {P : Params} {s : State} {c : Nat}
    (entry : Cells.lookup s.ht (s.probeIndex P) = some c) :
    (s.probe P).enc.mlen = commonRun s.ibufByte (s.enc.n - s.enc.cur) c s.enc.cur ∧
      (s.probe P).enc.dist = s.enc.cur - c := by
  have cand : (s.lookupStep P).enc.cand = some c := entry
  rw [State.probe, State.validateStep, cand]; exact ⟨rfl, rfl⟩

/-- A run of equal bytes reads below its bound only. -/
theorem commonRun_congr {rd₁ rd₂ : Nat → Byte} {n : Nat} (same : ∀ a < n, rd₂ a = rd₁ a) {bound c p : Nat}
    (hc : c + bound ≤ n) (hp : p + bound ≤ n) : commonRun rd₂ bound c p = commonRun rd₁ bound c p := by
  induction bound generalizing c p with
  | zero => rfl
  | succ bound ih =>
    rw [commonRun, commonRun, same c (by omega), same p (by omega), ih (by omega) (by omega)]

theorem one_le_stride (P : Params) (miss : Nat) : 1 ≤ stride P miss := by
  unfold stride
  split
  · exact Nat.le_add_right _ _
  · exact le_refl _

theorem Config.params_hash_lt (w : Word32) (k : Nat) : Config.params.hash w k < 2 ^ k :=
  Nat.mod_lt _ (by positivity)

end Sys2Proof.Machine
end

section
/-! Two COREs that run the same command on the same operand stay in lockstep, whatever else they held (00_scope R10,
70_reset R301): the relation, and that every step of a running CORE keeps it. -/

namespace Sys2Proof.Machine

/-! ## What two COREs in lockstep have in common -/

/-- The same host-visible registers and the same operand (00_scope R10). -/
structure SameView (s u : State) : Prop where
  status : u.status = s.status
  olen : u.olen = s.olen
  result : u.result = s.result
  ilen : u.ilen = s.ilen
  bytes : ∀ a < s.ilen.toNat, u.ibufByte a = s.ibufByte a

/-- The same decoder cursors and the same output so far (43_decoder R200; 20_memory R62). -/
structure SameDecoder (s u : State) : Prop where
  ulen : u.dec.ulen = s.dec.ulen
  ip : u.dec.ip = s.dec.ip
  op : u.dec.op = s.dec.op
  dry : u.dec.dry = s.dec.dry
  written : s.dec.dry = false → ∀ a < s.dec.op, u.obufByte a = s.obufByte a

/-- The same encoder registers (42_encoder R171), the same table entries in use and the same output so far. The results
of the last probe are no part of it: the next probe overwrites them. -/
structure SameEncoder (s u : State) : Prop where
  n : u.enc.n = s.enc.n
  k : u.enc.k = s.enc.k
  cur : u.enc.cur = s.enc.cur
  lit : u.enc.lit = s.enc.lit
  miss : u.enc.miss = s.enc.miss
  wp : u.enc.wp = s.enc.wp
  est : u.enc.est = s.enc.est
  table : ∀ j < 2 ^ s.enc.k, Cells.lookup u.ht j = Cells.lookup s.ht j
  written : ∀ a < s.enc.wp, u.obufByte a = s.obufByte a

/-- Every table entry in use is below `bound` (41_matchfinder R155). -/
def State.TableBelow (s : State) (bound : Nat) : Prop :=
  ∀ j < 2 ^ s.enc.k, ∀ c, Cells.lookup s.ht j = some c → c < bound

/-- Two running COREs at the same point of the same command. -/
inductive SameProgress (s u : State) : Prop
  | header (act : s.activity = .header) (act' : u.activity = .header) (dry : u.dec.dry = s.dec.dry)
  | tokens (act : s.activity = .tokens) (act' : u.activity = .tokens) (dec : SameDecoder s u)
  | encode (act : s.activity = .encode) (act' : u.activity = .encode) (enc : SameEncoder s u)
      (n_eq : s.enc.n = s.ilen.toNat) (table : s.TableBelow s.enc.cur)

/-- Both COREs run at the same point, or both have ended with the same results. -/
inductive Lockstep (s u : State) : Prop
  | running (view : SameView s u) (busy : s.status.state = .busy) (progress : SameProgress s u)
  | ended (view : SameView s u) (done : s.status.state = .done)
      (output : ∀ a < s.olen.toNat, u.obufByte a = s.obufByte a)

theorem Lockstep.view {s u : State} (h : Lockstep s u) : SameView s u := by
  cases h with
  | running view | ended view => exact view

theorem Lockstep.endedWithoutOutput {s u : State} (view : SameView s u) (done : s.status.state = .done)
    (olen : s.olen = 0) : Lockstep s u :=
  .ended view done (by simp [olen])

/-! ## What the operand determines -/

theorem SameView.ibufRange {s u : State} (h : SameView s u) {a n : Nat} (inside : a + n ≤ s.ilen.toNat) :
    u.ibufRange a n = s.ibufRange a n :=
  List.map_congr_left fun i hi => h.bytes _ (by have := List.mem_range.mp hi; omega)

theorem SameView.headerBytes {s u : State} (h : SameView s u) : u.headerBytes = s.headerBytes := by
  rw [State.headerBytes, h.ilen]; exact h.ibufRange (by omega)

theorem SameView.tokenBytes {s u : State} (h : SameView s u) (ip : u.dec.ip = s.dec.ip)
    (more : s.dec.ip < s.ilen.toNat) : u.tokenBytes = s.tokenBytes := by
  rw [State.tokenBytes, h.ilen, ip]; exact h.ibufRange (by omega)

theorem SameView.window {s u : State} (h : SameView s u) {p : Nat} (inside : p + 4 ≤ s.ilen.toNat) :
    u.window p = s.window p := by
  rw [State.window, State.window, h.ibufRange inside]

theorem SameView.setDec {s u : State} (h : SameView s u) (d d' : DecoderRegs) :
    SameView { s with dec := d } { u with dec := d' } :=
  ⟨h.status, h.olen, h.result, h.ilen, h.bytes⟩

/-! ## Raising and ending together -/

theorem SameView.malformed {s u : State} (h : SameView s u) (dry : u.dec.dry = s.dec.dry) (c : Cause) :
    SameView (s.malformed c) (u.malformed c) where
  status := by rw [State.malformed_status, State.malformed_status, dry]
  olen := by simp
  result := by simp
  ilen := by simp [h.ilen]
  bytes := by
    rw [State.ibufByte_congr (s.malformed_ibuf c) (s.malformed_epoch c),
      State.ibufByte_congr (u.malformed_ibuf c) (u.malformed_epoch c), s.malformed_ilen]
    exact h.bytes

theorem SameView.lockstep_malformed {s u : State} (h : SameView s u) (dry : u.dec.dry = s.dec.dry) (c : Cause) :
    Lockstep (s.malformed c) (u.malformed c) :=
  .endedWithoutOutput (h.malformed dry c) (s.malformed_state c) (s.malformed_olen c)

theorem SameView.lockstep_raise {s u : State} (h : SameView s u) (err : Err) (c : Cause) :
    Lockstep (s.raise err c) (u.raise err c) :=
  .endedWithoutOutput ⟨rfl, rfl, rfl, h.ilen, h.bytes⟩ rfl rfl

theorem toNat_ofNat_le (w n : Nat) : (BitVec.ofNat w n).toNat ≤ n := by
  rw [BitVec.toNat_ofNat]; exact Nat.mod_le _ _

theorem SameDecoder.lockstep_endOfStream {s u : State} (h : SameDecoder s u) (view : SameView s u) :
    Lockstep s.endOfStream u.endOfStream := by
  have twin : u.endOfStream = if s.dec.op = s.dec.ulen then
      if s.dec.dry then u.finishValidate true else u.completeUncompress else u.malformed .lengthMismatch := by
    rw [State.endOfStream, h.op, h.ulen, h.dry]
  rw [twin, State.endOfStream]
  split_ifs with all dry
  · exact .endedWithoutOutput ⟨rfl, rfl, rfl, view.ilen, view.bytes⟩ rfl rfl
  · refine .ended ⟨by simp [view.status], by simp [h.ulen], view.result, view.ilen, view.bytes⟩ rfl fun a ha => ?_
    exact h.written (by simpa using dry) a (by rw [all]; exact ha.trans_le (toNat_ofNat_le 64 s.dec.ulen))
  · exact view.lockstep_malformed h.dry _

theorem SameEncoder.lockstep_complete {s u : State} (h : SameEncoder s u) (view : SameView s u) :
    Lockstep s.completeCompress u.completeCompress := by
  refine .ended ⟨by simp [view.status], by simp [h.wp], view.result, view.ilen, view.bytes⟩ rfl fun a ha => ?_
  exact h.written a (ha.trans_le (toNat_ofNat_le 64 s.enc.wp))

/-! ## A token in lockstep -/

theorem SameDecoder.token {s u : State} (h : SameDecoder s u) (view : SameView s u) {i : Instr}
    (tok : i.space = .token) (ok : tokenFailure i s.ilen.toNat s.loadTag.dec = none)
    (ok' : tokenFailure i u.ilen.toNat u.loadTag.dec = none) :
    SameDecoder
      { s with
        dec := tokenAdvance i s.loadTag.dec
        obuf := if s.dec.dry then s.obuf else tokenMove i s.epoch s.ibufByte s.loadTag.dec s.obuf }
      { u with
        dec := tokenAdvance i u.loadTag.dec
        obuf := if u.dec.dry then u.obuf else tokenMove i u.epoch u.ibufByte u.loadTag.dec u.obuf } := by
  obtain ⟨-, -, -, -, ulen, dry, -⟩ := tokenAdvance_bounds tok ok
  obtain ⟨-, -, -, -, ulen', dry', -⟩ := tokenAdvance_bounds tok ok'
  obtain ⟨ip, op⟩ := tokenAdvance_cursors_congr (d := s.loadTag.dec) (e := u.loadTag.dec) i h.ip h.op
  refine ⟨(ulen'.trans h.ulen).trans ulen.symm, ip, op, (dry'.trans h.dry).trans dry.symm, fun notDry => ?_⟩
  have wet : s.dec.dry = false := dry.symm.trans notDry
  have wet' : u.dec.dry = false := h.dry.trans wet
  simp only [State.obufByte, wet, wet', Bool.false_eq_true, if_false]
  exact obufRead_tokenMove_congr tok ok h.ip h.op view.bytes (h.written wet)

/-- Two decoders at the same cursors pass or fail the checks of a token alike. -/
theorem SameDecoder.tokenFailure_cause {s u : State} (h : SameDecoder s u) (view : SameView s u) (i : Instr) :
    (tokenFailure i u.ilen.toNat u.loadTag.dec).map Prod.fst =
      (tokenFailure i s.ilen.toNat s.loadTag.dec).map Prod.fst := by
  rw [view.ilen]; exact tokenFailure_congr h.ip h.op h.ulen

theorem SameDecoder.tokenFailure_none {s u : State} (h : SameDecoder s u) (view : SameView s u) {i : Instr}
    (ok : tokenFailure i s.ilen.toNat s.loadTag.dec = none) : tokenFailure i u.ilen.toNat u.loadTag.dec = none := by
  have cause := h.tokenFailure_cause view i
  rw [ok] at cause
  exact Option.map_eq_none_iff.mp cause

theorem SameDecoder.tokenFailure_some {s u : State} (h : SameDecoder s u) (view : SameView s u) {i : Instr} {c : Cause}
    {d : DecoderRegs} (bad : tokenFailure i s.ilen.toNat s.loadTag.dec = some (c, d)) :
    ∃ d', tokenFailure i u.ilen.toNat u.loadTag.dec = some (c, d') ∧ d'.dry = d.dry := by
  have cause := h.tokenFailure_cause view i
  rw [bad] at cause
  obtain ⟨⟨c', d'⟩, bad', rfl⟩ := Option.map_eq_some_iff.mp cause
  refine ⟨d', bad', ?_⟩
  rw [(tokenFailure_regs bad').2, (tokenFailure_regs bad).2]
  exact h.dry

/-! ## An encoder step in lockstep -/

theorem SameEncoder.put {s u : State} (h : SameEncoder s u) (bs : List Byte) : SameEncoder (s.put bs) (u.put bs) where
  n := h.n
  k := h.k
  cur := h.cur
  lit := h.lit
  miss := h.miss
  wp := by simp [h.wp]
  est := h.est
  table := h.table
  written a ha := by
    have inside : a < s.enc.wp + bs.length := ha
    simp only [State.obufByte, State.put_epoch, State.put_obuf, obufRead_writeAll, h.wp]
    split
    · rw [List.getElem?_eq_getElem (by omega), Option.getD_some, Option.getD_some]
    · exact h.written a (by omega)

theorem SameEncoder.emitLiteral {s u : State} (h : SameEncoder s u) (view : SameView s u) {start L : Nat}
    (inside : start + L ≤ s.ilen.toNat) : SameEncoder (s.emitLiteral start L) (u.emitLiteral start L) := by
  rw [State.emitLiteral, State.emitLiteral, view.ibufRange inside]; exact h.put _

theorem SameEncoder.endOfInput {s u : State} (h : SameEncoder s u) (view : SameView s u)
    (n_eq : s.enc.n = s.ilen.toNat) : SameEncoder s.endOfInput u.endOfInput := by
  unfold State.endOfInput
  rw [h.lit, h.n]
  split
  · have rest := h.emitLiteral view (start := s.enc.lit) (L := s.enc.n - s.enc.lit) (by omega)
    exact ⟨rest.n, rest.k, rest.cur, rest.n, rest.miss, rest.wp, rfl, rest.table, rest.written⟩
  · exact ⟨h.n, h.k, h.cur, h.n, h.miss, h.wp, rfl, h.table, h.written⟩

theorem SameEncoder.emitMatch {s u : State} (h : SameEncoder s u) (view : SameView s u)
    (inside : s.enc.cur ≤ s.ilen.toNat) (mlen : u.enc.mlen = s.enc.mlen) (dist : u.enc.dist = s.enc.dist) :
    SameEncoder s.emitMatch u.emitMatch := by
  unfold State.emitMatch
  rw [h.lit, h.cur, mlen, dist]
  split
  · exact (h.emitLiteral view (by omega)).put _
  · exact h.put _

theorem SameEncoder.matchStep {s u : State} (h : SameEncoder s u) (view : SameView s u)
    (inside : s.enc.cur ≤ s.ilen.toNat) (mlen : u.enc.mlen = s.enc.mlen) (dist : u.enc.dist = s.enc.dist) :
    SameEncoder s.matchStep u.matchStep := by
  obtain ⟨n, k, -, -, -, wp, -, table, written⟩ := h.emitMatch view inside mlen dist
  have cursor : u.enc.cur + u.enc.mlen = s.enc.cur + s.enc.mlen := by rw [h.cur, mlen]
  exact ⟨n, k, cursor, cursor, rfl, wp, rfl, table, written⟩

theorem SameEncoder.missStep {s u : State} (h : SameEncoder s u) (P : Params) :
    SameEncoder (s.missStep P) (u.missStep P) :=
  ⟨h.n, h.k, by simp [h.cur, h.miss], h.lit, by simp [h.miss], h.wp, h.est, h.table, h.written⟩

/-! ### The probe -/

section Probe

variable {P : Params} {s u : State}

theorem SameEncoder.probeIndex (h : SameEncoder s u) (view : SameView s u) (inside : s.enc.cur + 4 ≤ s.ilen.toNat) :
    u.probeIndex P = s.probeIndex P := by
  rw [State.probeIndex, State.probeIndex, h.cur, h.k, view.window inside]

theorem SameEncoder.probe (h : SameEncoder s u) (index : u.probeIndex P = s.probeIndex P) :
    SameEncoder (s.probe P) (u.probe P) := by
  rw [s.probe_eq P, u.probe_eq P]
  refine ⟨h.n, h.k, h.cur, h.lit, h.miss, h.wp, h.est, fun j hj => ?_, h.written⟩
  rw [Cells.lookup_write, Cells.lookup_write, index, h.cur, h.table j hj]

/-- Two probes from the same entry, all entries behind the cursor, find the same run, and a run at the same distance. -/
theorem SameEncoder.probe_found (h : SameEncoder s u) (view : SameView s u) (n_eq : s.enc.n = s.ilen.toNat)
    (table : s.TableBelow s.enc.cur) (inside : s.enc.cur + 4 ≤ s.enc.n)
    (index : u.probeIndex P = s.probeIndex P) (inTable : s.probeIndex P < 2 ^ s.enc.k) :
    (u.probe P).enc.mlen = (s.probe P).enc.mlen ∧
      (0 < (s.probe P).enc.mlen → (u.probe P).enc.dist = (s.probe P).enc.dist) := by
  have entry : Cells.lookup u.ht (u.probeIndex P) = Cells.lookup s.ht (s.probeIndex P) := by
    rw [index, h.table _ inTable]
  cases found : Cells.lookup s.ht (s.probeIndex P) with
  | none =>
    have none := State.probe_mlen_of_none found
    exact ⟨(State.probe_mlen_of_none (entry.trans found)).trans none.symm, fun pos => by omega⟩
  | some c =>
    have behind : c < s.enc.cur := table _ inTable c found
    obtain ⟨mlen, dist⟩ := State.probe_of_some found
    obtain ⟨mlen', dist'⟩ := State.probe_of_some (entry.trans found)
    rw [mlen, mlen', dist, dist', h.cur, h.n]
    exact ⟨commonRun_congr view.bytes (by omega) (by omega), fun _ => rfl⟩

theorem SameView.probe (view : SameView s u) : SameView (s.probe P) (u.probe P) := by
  rw [s.probe_eq P, u.probe_eq P]
  exact ⟨view.status, view.olen, view.result, view.ilen, view.bytes⟩

theorem State.TableBelow.mono {b b' : Nat} (h : s.TableBelow b) (le : b ≤ b') : s.TableBelow b' :=
  fun j hj c hc => (h j hj c hc).trans_le le

/-- The probe puts the cursor in the table, so all entries are behind any later cursor. -/
theorem State.TableBelow.probe (h : s.TableBelow s.enc.cur) : (s.probe P).TableBelow (s.enc.cur + 1) := by
  rw [s.probe_eq P]
  intro j hj c hc
  rw [Cells.lookup_write] at hc
  split at hc
  · cases hc; exact Nat.lt_succ_self _
  · exact (h j hj c hc).trans (Nat.lt_succ_self _)

@[simp] theorem State.probe_cur : (s.probe P).enc.cur = s.enc.cur := by rw [s.probe_eq P]
@[simp] theorem State.probe_n : (s.probe P).enc.n = s.enc.n := by rw [s.probe_eq P]
@[simp] theorem State.probe_ilen : (s.probe P).ilen = s.ilen := by rw [s.probe_eq P]

end Probe

/-! ### The scan -/

theorem SameView.scanStep {s u : State} (view : SameView s u) (P : Params) :
    SameView (s.scanStep P) (u.scanStep P) := by
  rw [s.scanStep_eq, u.scanStep_eq]
  exact ⟨view.status, view.olen, view.result, view.ilen, view.bytes⟩

theorem State.scanStep_n (P : Params) (s : State) : (s.scanStep P).enc.n = s.enc.n := by
  rcases s.scanStep_cases P with ⟨-, e⟩ | ⟨-, -, e⟩ | ⟨-, -, e⟩ <;> rw [e]
  · rw [s.endOfInput_eq]
  · rw [State.matchStep, State.emitMatch_eq]; exact s.probe_n
  · exact s.probe_n

/-- A step that probes moves the cursor past what it put in the table. -/
theorem State.TableBelow.scanStep {P : Params} {s : State} (h : s.TableBelow s.enc.cur) :
    (s.scanStep P).TableBelow (s.scanStep P).enc.cur := by
  rcases s.scanStep_cases P with ⟨-, e⟩ | ⟨-, found, e⟩ | ⟨-, -, e⟩ <;> rw [e]
  · rw [s.endOfInput_eq]; exact h
  · have moved : s.enc.cur + 1 ≤ (s.probe P).matchStep.enc.cur := by
      show s.enc.cur + 1 ≤ (s.probe P).enc.cur + (s.probe P).enc.mlen
      rw [State.probe_cur]; omega
    refine State.TableBelow.mono ?_ moved
    rw [State.matchStep, State.emitMatch_eq]
    exact h.probe
  · have moved : s.enc.cur + 1 ≤ ((s.probe P).missStep P).enc.cur := by
      have := one_le_stride P (s.probe P).enc.miss
      simp only [State.missStep_enc, State.probe_cur]; omega
    exact State.TableBelow.mono (s := (s.probe P).missStep P) h.probe moved

theorem SameEncoder.scanStep {P : Params} {s u : State} (h : SameEncoder s u) (view : SameView s u)
    (hash_lt : ∀ w k, P.hash w k < 2 ^ k) (n_eq : s.enc.n = s.ilen.toNat) (table : s.TableBelow s.enc.cur) :
    SameEncoder (s.scanStep P) (u.scanStep P) := by
  have more' (more : s.enc.cur + 4 ≤ s.enc.n) : u.enc.cur + 4 ≤ u.enc.n := by rwa [h.cur, h.n]
  have index (more : s.enc.cur + 4 ≤ s.enc.n) : u.probeIndex P = s.probeIndex P := h.probeIndex view (by omega)
  have same (more : s.enc.cur + 4 ≤ s.enc.n) :=
    h.probe_found view n_eq table more (index more) (hash_lt _ _)
  rcases s.scanStep_cases P with ⟨last, e⟩ | ⟨more, found, e⟩ | ⟨more, missed, e⟩ <;> rw [e]
  · rw [State.scanStep_end (by rwa [h.cur, h.n])]
    exact h.endOfInput view n_eq
  · obtain ⟨mlen, dist⟩ := same more
    rw [State.scanStep_match (more' more) (by rwa [mlen])]
    exact (h.probe (index more)).matchStep view.probe (by simp; omega) mlen (dist (by omega))
  · obtain ⟨mlen, -⟩ := same more
    rw [State.scanStep_miss (more' more) (by rwa [mlen])]
    exact (h.probe (index more)).missStep P

/-! ## One step in lockstep -/

theorem SameView.step_header {s u t : State} (view : SameView s u) (busy : s.status.state = .busy)
    (act : s.activity = .header) (act' : u.activity = .header) (dry : u.dec.dry = s.dec.dry) (move : CoreStep s t) :
    ∃ v, CoreStep u v ∧ Lockstep t v := by
  have bytes := view.headerBytes
  cases move with
  | header _ dec =>
    exact ⟨_, .header act' (bytes ▸ dec), .running ⟨view.status, view.olen, view.result, view.ilen, view.bytes⟩ busy
      (.tokens rfl rfl ⟨rfl, rfl, rfl, dry, fun _ a ha => absurd ha (Nat.not_lt_zero a)⟩)⟩
  | headerRejected _ dec => exact ⟨_, .headerRejected act' (bytes ▸ dec), view.lockstep_malformed dry _⟩
  | token other | tokenFailed other | tokenRejected other | endOfStream other | scan other | complete other =>
    simp [act] at other

theorem SameDecoder.step {s u t : State} (h : SameDecoder s u) (view : SameView s u) (busy : s.status.state = .busy)
    (act : s.activity = .tokens) (act' : u.activity = .tokens) (move : CoreStep s t) :
    ∃ v, CoreStep u v ∧ Lockstep t v := by
  have more' (more : s.dec.ip < s.ilen.toNat) : u.dec.ip < u.ilen.toNat := by rwa [h.ip, view.ilen]
  have bytes := view.tokenBytes h.ip
  cases move with
  | token _ more dec ok =>
    have ok' := h.tokenFailure_none view ok
    exact ⟨_, .token act' (more' more) (bytes more ▸ dec) ok',
      .running ⟨view.status, view.olen, view.result, view.ilen, view.bytes⟩ busy
        (.tokens act act' (h.token view (decodeToken_space dec) ok ok'))⟩
  | tokenFailed _ more dec bad =>
    obtain ⟨d', bad', dry⟩ := h.tokenFailure_some view bad
    exact ⟨_, .tokenFailed act' (more' more) (bytes more ▸ dec) bad', (view.setDec _ _).lockstep_malformed dry _⟩
  | tokenRejected _ more dec =>
    have loaded : SameView s.loadTag u.loadTag := view.setDec _ _
    exact ⟨_, .tokenRejected act' (more' more) (bytes more ▸ dec), loaded.lockstep_malformed h.dry _⟩
  | endOfStream _ last => exact ⟨_, .endOfStream act' (by rwa [h.ip, view.ilen]), h.lockstep_endOfStream view⟩
  | header other | headerRejected other | scan other | complete other => simp [act] at other

theorem SameEncoder.step {s u t : State} (h : SameEncoder s u) (view : SameView s u) (busy : s.status.state = .busy)
    (act : s.activity = .encode) (act' : u.activity = .encode) (n_eq : s.enc.n = s.ilen.toNat)
    (table : s.TableBelow s.enc.cur) (move : CoreStep s t) : ∃ v, CoreStep u v ∧ Lockstep t v := by
  cases move with
  | scan _ est =>
    have frame := s.scanStep_eq Config.params
    have frame' := u.scanStep_eq Config.params
    refine ⟨_, .scan act' (h.est.trans est), .running (view.scanStep _) (by rw [frame]; exact busy)
      (.encode (by rw [frame]; exact act) (by rw [frame']; exact act')
        (h.scanStep view Config.params_hash_lt n_eq table) ?_ table.scanStep)⟩
    rw [State.scanStep_n, n_eq, frame]
  | complete _ est => exact ⟨_, .complete act' (h.est.trans est), h.lockstep_complete view⟩
  | header other | headerRejected other | token other | tokenFailed other | tokenRejected other | endOfStream other =>
    simp [act] at other

/-- What one CORE does the other does too, and they stay in lockstep. -/
theorem Lockstep.step {s u t : State} (h : Lockstep s u) (busy : s.status.state = .busy) (move : CoreStep s t) :
    ∃ v, CoreStep u v ∧ Lockstep t v := by
  cases h with
  | ended _ done => simp [busy] at done
  | running view _ progress =>
    cases progress with
    | header act act' dry => exact view.step_header busy act act' dry move
    | tokens act act' dec => exact dec.step view busy act act' move
    | encode act act' enc n_eq table => exact enc.step view busy act act' n_eq table move

end Sys2Proof.Machine
end

section
/-! The launch puts two COREs with the same operand in lockstep, so a command's outcome depends on its operand alone
(00_scope R10, 70_reset R301, 60_exceptions R275). -/

namespace Sys2Proof.Machine

/-! ## The launch -/

/-- Equal operands are equal lengths and equal bytes below them, and a launch clears the rest of the view. -/
theorem sameView_beginCommand {s u : State} (input : u.input = s.input) : SameView s.beginCommand u.beginCommand := by
  have length : u.ilen.toNat = s.ilen.toNat := by
    simpa only [State.input, State.length_ibufRange] using congrArg List.length input
  refine ⟨rfl, rfl, rfl, BitVec.eq_of_toNat_eq length, fun a ha => ?_⟩
  have below : a < s.ilen.toNat := ha
  have byte : u.ibufByte a = s.ibufByte a := by
    simpa [State.input, State.ibufRange, length, below] using congrArg (·[a]?) input
  exact byte

/-- The encoder's registers and table just before the header is written (42_encoder R171). -/
def State.encoderInit (P : Params) (s : State) : State :=
  { s with
    enc := { s.enc with
      n := s.ilen.toNat, k := kbits P s.ilen.toNat, cur := 0, lit := 0, miss := 0, wp := 0, est := .scanning }
    ht := Cells.clearBelow s.ht (2 ^ kbits P s.ilen.toNat)
    vc := { vv := s.ilen.toNat / 128 ^ ((varintEncode s.ilen.toNat).length - 1)
            vk := (varintEncode s.ilen.toNat).length - 1 }
    activity := .encode }

theorem State.beginEncode_eq (P : Params) (s : State) :
    s.beginEncode P = (s.encoderInit P).put (varintEncode s.ilen.toNat) := rfl

/-- The table entries in use are emptied, whatever they held (42_encoder R171). -/
theorem State.encoderInit_table (P : Params) (s : State) {j : Nat} (inUse : j < 2 ^ kbits P s.ilen.toNat) :
    Cells.lookup (s.encoderInit P).ht j = none :=
  (Cells.lookup_clearBelow _ _ _).trans (if_pos inUse)

theorem SameView.encoderInit {s u : State} (view : SameView s u) (P : Params) :
    SameEncoder (s.encoderInit P) (u.encoderInit P) where
  n := congrArg BitVec.toNat view.ilen
  k := by simp only [State.encoderInit, view.ilen]
  cur := rfl
  lit := rfl
  miss := rfl
  wp := rfl
  est := rfl
  table j hj := by
    rw [s.encoderInit_table P hj, u.encoderInit_table P (by rw [view.ilen]; exact hj)]
  written a ha := absurd ha (Nat.not_lt_zero a)

theorem SameView.lockstep_beginEncode {s u : State} (view : SameView s u) (busy : s.status.state = .busy) (P : Params) :
    Lockstep (s.beginEncode P) (u.beginEncode P) := by
  rw [s.beginEncode_eq, u.beginEncode_eq, view.ilen]
  refine .running ⟨view.status, view.olen, view.result, view.ilen, view.bytes⟩ busy
    (.encode rfl rfl ((view.encoderInit P).put _) rfl fun j hj c hc => ?_)
  have empty : Cells.lookup (s.encoderInit P).ht j = none := s.encoderInit_table P hj
  exact absurd (empty.symm.trans hc) nofun

theorem SameView.lockstep_startCompress {s u : State} (view : SameView s u) (busy : s.status.state = .busy)
    (P : Params) : Lockstep (s.startCompress P) (u.startCompress P) := by
  unfold State.startCompress
  rw [view.ilen]
  split
  · exact view.lockstep_beginEncode busy P
  · exact view.lockstep_raise _ _

theorem SameView.lockstep_peekLength {s u : State} (view : SameView s u) (olen : s.olen = 0) :
    Lockstep s.peekLength u.peekLength := by
  cases dec : varintDecode s.headerBytes with
  | ok r =>
    rw [State.peekLength_ok dec, State.peekLength_ok (view.headerBytes ▸ dec)]
    exact .endedWithoutOutput ⟨by simp [view.status], view.olen, rfl, view.ilen, view.bytes⟩ rfl olen
  | error e =>
    rw [State.peekLength_error dec, State.peekLength_error (view.headerBytes ▸ dec)]
    exact view.lockstep_raise _ _

theorem SameView.lockstep_startDecode {s u : State} (view : SameView s u) (busy : s.status.state = .busy) (dry : Bool) :
    Lockstep (s.startDecode dry) (u.startDecode dry) :=
  .running ⟨view.status, view.olen, view.result, view.ilen, view.bytes⟩ busy (.header rfl rfl rfl)

theorem SameView.lockstep_launch {i : Instr} {s u : State} (cmd : i.space = .command)
    (view : SameView s.beginCommand u.beginCommand) :
    Lockstep (commandBody i s.beginCommand) (commandBody i u.beginCommand) := by
  cases i with
  | compress => exact view.lockstep_startCompress rfl _
  | uncompress | decompress => exact view.lockstep_startDecode rfl false
  | ulen => exact view.lockstep_peekLength rfl
  | validate => exact view.lockstep_startDecode rfl true
  | _ => cases cmd

/-! ## The run -/

/-- Two COREs in lockstep that their hosts leave alone. -/
def LeftAlone (s u : State) : Prop := s.host = [] ∧ u.host = [] ∧ Lockstep s u

/-- Two waiting COREs in lockstep both wait, two running ones make the same move. -/
theorem LeftAlone.step {s u t : State} (h : LeftAlone s u) (one : step s = .next t) :
    ∃ v, step u = .next v ∧ LeftAlone t v := by
  obtain ⟨quiet, quiet', same⟩ := h
  have status : u.status = s.status := same.view.status
  by_cases busy : s.status.state = .busy
  · have move := (step_next_iff quiet busy).mp one
    obtain ⟨v, move', next⟩ := same.step busy move
    exact ⟨v, move'.step quiet' (status ▸ busy), move.host.trans quiet, move'.host.trans quiet', next⟩
  · rw [step_waiting quiet busy, Host.Outcome.next.injEq] at one
    subst one
    exact ⟨u, step_waiting quiet' (status ▸ busy), quiet, quiet', same⟩

theorem Lockstep.output_eq {s u : State} (h : Lockstep s u) (done : s.status.state = .done) : u.output = s.output := by
  cases h with
  | running _ busy => simp [busy] at done
  | ended view _ output =>
    rw [State.output, State.output, view.olen]
    exact List.map_congr_left fun a ha => output a (List.mem_range.mp ha)

/-- Settles O54: launched on the same operand, two COREs are in lockstep to the end of the command. -/
theorem noStateReachesTheNextCommand : Obligations.NoStateReachesTheNextCommand := by
  rintro i s u t cmd ready ready' input ⟨s₁, k, first, run, done⟩
  rw [exec_command cmd ready.waiting, Host.Outcome.next.injEq] at first
  subst first
  have quiet := (commandBody_host i s.beginCommand).trans ready.no_moves
  have quiet' := (commandBody_host i u.beginCommand).trans ready'.no_moves
  have launched := SameView.lockstep_launch cmd (sameView_beginCommand input)
  obtain ⟨v, run', -, -, same⟩ :=
    steps_simulation (r := LeftAlone) (fun _ _ _ h => h.step) ⟨quiet, quiet', launched⟩ run
  obtain ⟨status, olen, result, -, -⟩ := same.view
  exact ⟨v, ⟨_, k, exec_command cmd ready'.waiting, run', status ▸ done⟩, status, olen, result,
    fun _ => same.output_eq done⟩

end Sys2Proof.Machine
end

section
/-! What a waiting CORE shows and does (10_state R21, R42, R46, R47, R52; 70_reset R300, R310), and what the launch of a
command leaves (10_state R53). -/

namespace Sys2Proof.Machine

/-! ## Waiting and reading -/

/-- Settles O8: the values of the reset state. -/
theorem resetLeavesIdleRegisters : Obligations.ResetLeavesIdleRegisters :=
  ⟨rfl, rfl, rfl, rfl, rfl, ⟨nofun, rfl⟩⟩

/-- Settles O12, by induction on the number of steps: each one waits. -/
theorem coreWaitsForALaunch : Obligations.CoreWaitsForALaunch := by
  intro s k ready
  induction k with
  | zero => rfl
  | succ k ih => rw [steps, step_waiting ready.no_moves ready.waiting]; exact ih

theorem State.readReg_busy {s : State} (busy : s.status.state = .busy) {r : Reg} (other : r ≠ .status) :
    s.readReg r = .notAllowed := by
  cases r with
  | status => exact absurd rfl other
  | cmd | ilen | olen | result => exact if_pos busy

theorem State.readObuf_busy {s : State} (busy : s.status.state = .busy) (a : Nat) : s.readObuf a = .notAllowed :=
  if_pos busy

theorem State.readObuf_result {s : State} {a : Nat} (done : s.status.state = .done) (ok : s.status.err = .ok)
    (below : a < s.olen.toNat) : s.readObuf a = .value (s.obufByte a) := by
  simp [State.readObuf, done, ok, below]

theorem State.readObuf_unspecified {s : State} {a : Nat} (waiting : s.status.state ≠ .busy)
    (noResult : s.status.state ≠ .done ∨ s.status.err ≠ .ok ∨ s.olen.toNat ≤ a) : s.readObuf a = .unspecified := by
  rw [State.readObuf, if_neg waiting, if_neg]
  rintro ⟨done, ok, below⟩
  rcases noResult with notDone | notOk | above
  · exact notDone done
  · exact notOk ok
  · exact absurd below (Nat.not_lt.mpr above)

/-- Settles O58: the two windows of a read, while `BUSY` and after it. -/
theorem hostReadsFollowTheWindows : Obligations.HostReadsFollowTheWindows := by
  refine ⟨⟨rfl, rfl, rfl, rfl, rfl⟩, fun s => ⟨rfl, fun busy => ⟨fun _ => State.readReg_busy busy,
    State.readObuf_busy busy⟩, fun waiting => ⟨if_neg waiting, if_neg waiting, if_neg waiting, if_neg waiting,
    fun a => ⟨State.readObuf_result, State.readObuf_unspecified waiting⟩⟩⟩⟩

/-! ## Host writes of the operand -/

theorem step_of_move {s : State} {m : HostMove} {ms : List HostMove} (move : s.host = m :: ms) :
    step s = ({ s with host := ms } : State).hostStep m := by
  unfold step; rw [move]

/-- One `IBUF` byte written: that byte, and all others as they were. -/
theorem State.ibufByte_write (s : State) (x : Nat) (b : Byte) (a : Nat) :
    ({ s with ibuf := Cells.write s.ibuf x b } : State).ibufByte a = if a = x then b else s.ibufByte a := by
  rw [State.ibufByte, Cells.lookup_write]; split <;> rfl

/-- Settles O14: the two guards of each write. -/
theorem hostBufferWrites : Obligations.HostBufferWrites := by
  intro s ms v b
  refine ⟨fun move => ?_, fun move => ?_⟩ <;> rw [step_of_move move]
  · exact ⟨fun busy => if_pos busy, fun waiting => if_neg waiting⟩
  · exact ⟨fun busy => if_pos busy, fun waiting => ⟨_, if_neg waiting, rfl, s.ibufByte_write v.toNat b⟩⟩

/-! ## The launches -/

/-- Settles O16: the common initialisation and the start of the decoder body. -/
theorem decodeLaunchesClearResults : Obligations.DecodeLaunchesClearResults :=
  fun _ waiting => ⟨exec_command rfl waiting, exec_command rfl waiting, exec_command rfl waiting⟩

/-- The header stands at the start of `OBUF`, and every byte after it is as it was (42_encoder R172). -/
theorem State.beginEncode_obufByte (P : Params) (s : State) (a : Nat) :
    (s.beginEncode P).obufByte a = (varintEncode s.ilen.toNat)[a]?.getD (s.obufByte a) := by
  rw [s.beginEncode_eq, State.obufByte, State.put_obuf]
  exact (obufRead_writeAll _ _ _ _ _).trans (if_pos (Nat.zero_le a))

/-- The entries of the table in use are emptied, the others are as they were (42_encoder R171). -/
theorem State.beginEncode_table (P : Params) (s : State) (j : Nat) :
    Cells.lookup (s.beginEncode P).ht j = if j < 2 ^ kbits P s.ilen.toNat then none else Cells.lookup s.ht j :=
  Cells.lookup_clearBelow _ _ _

/-- The registers of a new `COMPRESS` after its header (42_encoder R171, R172). -/
theorem State.beginEncode_enc (P : Params) (s : State) :
    (s.beginEncode P).enc = { s.enc with
      n := s.ilen.toNat, k := kbits P s.ilen.toNat, cur := 0, lit := 0, miss := 0
      wp := (varintEncode s.ilen.toNat).length, est := .scanning } := by
  simp [s.beginEncode_eq, State.encoderInit]

/-- Settles O18: the common initialisation, the encoder's own, and the header. -/
theorem compressLaunchInitialises : Obligations.CompressLaunchInitialises := by
  intro s waiting small
  have enc := s.beginCommand.beginEncode_enc Config.params
  have k : (s.beginCommand.beginEncode Config.params).enc.k = kbits Config.params s.ilen.toNat := by rw [enc]; rfl
  refine ⟨s.beginCommand.beginEncode Config.params, ?_, rfl, rfl, rfl, rfl, enc, fun j inUse => ?_, fun j unused => ?_,
    fun j inHeader => ?_, fun a after => ?_, rfl⟩
  · rw [exec_command rfl waiting, commandBody, State.startCompress, State.beginCommand_ilen, if_pos small]
  · exact (State.beginEncode_table _ _ j).trans (if_pos (k ▸ inUse))
  · exact (State.beginEncode_table _ _ j).trans (if_neg (Nat.not_lt.mpr (k ▸ unused)))
  · rw [State.beginEncode_obufByte, State.beginCommand_ilen, List.getElem?_eq_getElem inHeader, Option.getD_some]
  · rw [State.beginEncode_obufByte, State.beginCommand_ilen, List.getElem?_eq_none after, Option.getD_none]
    exact congrFun (State.obufByte_congr rfl rfl) a

end Sys2Proof.Machine
end

section
/-! The bounds of what the encoder works with: the parameters in force, the table size, the bytes of a token and the
length of a match (00_scope R13; 41_matchfinder R153, R156; 42_encoder R180 to R182). -/

namespace Sys2Proof.Machine

/-! ## The parameters and the table size -/

theorem Config.params_ok : Config.params.Ok where
  one_le_min := Nat.le_add_right _ _
  min_le_max := Nat.le_add_right _ _
  max_le := by
    have span : Config.rawSpanBits % (32 - Config.rawMinBits % 32) < 32 - Config.rawMinBits % 32 :=
      Nat.mod_lt _ (by omega)
    simp only [Config.params]; omega
  hash_lt := Config.params_hash_lt

theorem kbitsLoop_bounds (P : Params) (n fuel : Nat) {k : Nat} (le : k ≤ P.htMaxBits) :
    k ≤ kbitsLoop P n fuel k ∧ kbitsLoop P n fuel k ≤ P.htMaxBits := by
  induction fuel generalizing k with
  | zero => exact ⟨Nat.le_refl k, le⟩
  | succ fuel ih =>
    rw [kbitsLoop]
    split
    · rename_i more
      obtain ⟨low, high⟩ := ih (k := k + 1) more.1
      exact ⟨Nat.le_of_succ_le low, high⟩
    · exact ⟨Nat.le_refl k, le⟩

/-- The table size lies between its bounds (41_matchfinder R153). -/
theorem kbits_bounds {P : Params} (h : P.Ok) (n : Nat) :
    P.htMinBits ≤ kbits P n ∧ kbits P n ≤ P.htMaxBits :=
  kbitsLoop_bounds P n _ h.min_le_max

theorem hash_lt_word {P : Params} (h : P.Ok) (w : Word32) {k : Nat} (le : k ≤ P.htMaxBits) :
    P.hash w k < 2 ^ 32 :=
  (h.hash_lt w k).trans_le (Nat.pow_le_pow_right (by norm_num) (le.trans h.max_le))

/-! ## The bytes of the header and of the tokens -/

theorem length_varintEncodeLoop_le (fuel v : Nat) : (varintEncodeLoop fuel v).length ≤ fuel + 1 := by
  induction fuel generalizing v with
  | zero => exact Nat.le_refl 1
  | succ fuel ih =>
    rw [varintEncodeLoop]
    split
    · exact Nat.succ_le_succ (ih (v / 128))
    · exact Nat.le_add_left 1 (fuel + 1)

/-- A header has at most five bytes (30_encoding R92). -/
theorem length_varintEncode_le (v : Nat) : (varintEncode v).length ≤ 5 := length_varintEncodeLoop_le 4 v

/-- A literal's tag and escape bytes cost at most `2 / 5` of a byte for each of its `L` payload bytes, which the size bound
grants (42_encoder R185), and `3 / 5` more. -/
theorem length_encode_literalInstr_le {L : Nat} (pos : 1 ≤ L) : 5 * (encode (literalInstr L)).length ≤ 2 * L + 3 := by
  unfold literalInstr
  split_ifs <;> simp only [encode, List.length_cons, List.length_nil, length_toLe] <;> omega

theorem length_encode_copyInstr_le (off l : Nat) : (encode (copyInstr off l)).length ≤ 5 := by
  unfold copyInstr
  split_ifs <;> simp [encode]

/-- At most five bytes for every piece of 64 bytes, the last one begun included (42_encoder R181). -/
theorem length_flatMap_matchInstrsLoop_le (off fuel : Nat) {L : Nat} (pos : 1 ≤ L) :
    ((matchInstrsLoop off fuel L).flatMap encode).length ≤ 5 * ((L + 63) / 64) := by
  have single (l : Nat) : ([copyInstr off l].flatMap encode).length ≤ 5 := by
    simpa using length_encode_copyInstr_le off l
  induction fuel generalizing L with
  | zero => exact (single L).trans (by omega)
  | succ fuel ih =>
    rw [matchInstrsLoop]
    split
    · have rest := ih (L := L - 64) (by omega)
      have piece := length_encode_copyInstr_le off 64
      rw [List.flatMap_cons, List.length_append]
      omega
    · exact (single L).trans (by omega)

/-- The copies of a match of `L` bytes cost at most `7 / 5` of a byte for each, and leave the `3 / 5` that the literal
before them may lack (42_encoder R185). -/
theorem length_flatMap_matchInstrs_le (off : Nat) {L : Nat} (four : 4 ≤ L) :
    5 * ((matchInstrs off L).flatMap encode).length + 3 ≤ 7 * L := by
  have pieces : ((matchInstrs off L).flatMap encode).length ≤ 5 * ((L + 63) / 64) :=
    length_flatMap_matchInstrsLoop_le off _ (by omega)
  omega

/-! ## The probe -/

theorem commonRun_le (rd : Nat → Byte) (bound c p : Nat) : commonRun rd bound c p ≤ bound := by
  induction bound generalizing c p with
  | zero => exact Nat.le_refl 0
  | succ bound ih =>
    rw [commonRun]
    split
    · exact Nat.succ_le_succ (ih _ _)
    · exact Nat.zero_le _

/-- A match ends by the end of the input (41_matchfinder R156). -/
theorem State.probe_mlen_le (P : Params) (s : State) : (s.probe P).enc.mlen ≤ s.enc.n - s.enc.cur := by
  cases entry : Cells.lookup s.ht (s.probeIndex P) with
  | none => rw [State.probe_mlen_of_none entry]; exact Nat.zero_le _
  | some c => rw [(State.probe_of_some entry).1]; exact commonRun_le _ _ _ _

/-- A probe leaves `dist` alone or sets it to a distance back from the cursor (41_matchfinder R156). -/
theorem State.probe_dist_le (P : Params) (s : State) : (s.probe P).enc.dist ≤ max s.enc.dist s.enc.cur := by
  cases entry : Cells.lookup s.ht (s.probeIndex P) with
  | none =>
    have cand : (s.lookupStep P).enc.cand = none := entry
    rw [State.probe, State.validateStep, cand]
    exact le_max_left _ _
  | some c => rw [(State.probe_of_some entry).2]; exact (Nat.sub_le _ _).trans (le_max_right _ _)

theorem stride_le (P : Params) (miss : Nat) : stride P miss ≤ 1 + miss := by
  unfold stride
  split
  · exact Nat.add_le_add_left (Nat.shiftRight_le _ _) 1
  · exact Nat.le_add_right _ _

/-! ## The write pointer (42_encoder R185) -/

/-- The tokens of a match keep the bound of seven bytes written for five bytes read. -/
theorem State.emitMatch_wp_le {s : State} (four : 4 ≤ s.enc.mlen) (le : s.enc.lit ≤ s.enc.cur)
    (bound : 5 * s.enc.wp ≤ 25 + 7 * s.enc.lit) :
    5 * s.emitMatch.enc.wp ≤ 25 + 7 * (s.enc.cur + s.enc.mlen) := by
  have copies := length_flatMap_matchInstrs_le s.enc.dist four
  unfold State.emitMatch
  split
  · have literal := length_encode_literalInstr_le (L := s.enc.cur - s.enc.lit) (by omega)
    simp only [State.emitCopy_enc, State.emitLiteral_enc, List.length_append, State.length_ibufRange]
    omega
  · simp only [State.emitCopy_enc]
    omega

/-- The last literal ends within the size bound. -/
theorem State.endOfInput_wp_le {s : State} (le : s.enc.lit ≤ s.enc.n) (bound : 5 * s.enc.wp ≤ 25 + 7 * s.enc.lit) :
    s.endOfInput.enc.wp ≤ maxCompressed s.enc.n := by
  unfold State.endOfInput maxCompressed
  split
  · have literal := length_encode_literalInstr_le (L := s.enc.n - s.enc.lit) (by omega)
    simp only [State.emitLiteral_enc, List.length_append, State.length_ibufRange]
    omega
  · show s.enc.wp ≤ _
    omega

end Sys2Proof.Machine
end

section
/-! The invariant in three parts: what holds of the memories and registers whether or not a command runs, the legal
`STATUS`, and the ranges of the running command (10_state R30 to R33). -/

namespace Sys2Proof.Machine

/-! ## The parts -/

/-- The decoder registers fit their widths (10_state R30). -/
structure DecoderRegs.Fits (d : DecoderRegs) : Prop where
  ulen : d.ulen < 2 ^ 32
  ip : d.ip < 2 ^ 64
  op : d.op < 2 ^ 32
  len : d.len < 2 ^ 33
  off : d.off < 2 ^ 32
  data : d.data < 2 ^ 64

/-- The encoder registers fit their widths (10_state R31). -/
structure EncoderRegs.Fits (e : EncoderRegs) : Prop where
  n : e.n < 2 ^ 32
  k : e.k < 2 ^ 6
  cur : e.cur < 2 ^ 33
  lit : e.lit < 2 ^ 32
  miss : e.miss < 2 ^ 32
  h : e.h < 2 ^ 32
  cand : ∀ c, e.cand = some c → c < 2 ^ 32
  mlen : e.mlen < 2 ^ 32
  dist : e.dist < 2 ^ 32
  wp : e.wp < 2 ^ 64

/-- The varint unit's scratch registers fit their widths (10_state R32). -/
structure VarintRegs.Fits (v : VarintRegs) : Prop where
  vv : v.vv < 2 ^ 32
  vk : v.vk < 2 ^ 3

theorem State.widthsLegal_iff {s : State} : s.WidthsLegal ↔ s.dec.Fits ∧ s.enc.Fits ∧ s.vc.Fits := by
  constructor
  · rintro ⟨ulen, ip, op, len, off, data, n, k, cur, lit, miss, h, cand, mlen, dist, wp, vv, vk⟩
    exact ⟨⟨ulen, ip, op, len, off, data⟩, ⟨n, k, cur, lit, miss, h, cand, mlen, dist, wp⟩, ⟨vv, vk⟩⟩
  · rintro ⟨⟨ulen, ip, op, len, off, data⟩, ⟨n, k, cur, lit, miss, h, cand, mlen, dist, wp⟩, ⟨vv, vk⟩⟩
    exact ⟨ulen, ip, op, len, off, data, n, k, cur, lit, miss, h, cand, mlen, dist, wp, vv, vk⟩

/-- Canonical memories and registers within their widths: the part of the invariant that holds at all times. -/
structure State.Sound (s : State) : Prop where
  ibuf : Memory.wf s.ibuf
  obuf : Memory.wf s.obuf
  ht : Cells.wf s.ht
  dec : s.dec.Fits
  enc : s.enc.Fits
  vc : s.vc.Fits

/-- The running command's registers are in their ranges. -/
structure State.InRange (s : State) : Prop where
  decoder : s.activity = .tokens → s.DecoderLegal
  encoder : s.activity = .encode → s.EncoderLegal

theorem State.inv_iff {s : State} :
    s.Inv ↔ s.Sound ∧ s.StatusLegal ∧ (s.status.state = .busy → s.InRange) := by
  constructor
  · rintro ⟨ibuf, obuf, ht, status, widths, decoder, encoder⟩
    obtain ⟨dec, enc, vc⟩ := State.widthsLegal_iff.mp widths
    exact ⟨⟨ibuf, obuf, ht, dec, enc, vc⟩, status, fun busy => ⟨decoder busy, encoder busy⟩⟩
  · rintro ⟨⟨ibuf, obuf, ht, dec, enc, vc⟩, status, inRange⟩
    exact ⟨ibuf, obuf, ht, status, State.widthsLegal_iff.mpr ⟨dec, enc, vc⟩, fun busy => (inRange busy).decoder,
      fun busy => (inRange busy).encoder⟩

section
variable {s : State}

theorem State.Inv.sound (h : s.Inv) : s.Sound := (State.inv_iff.mp h).1

theorem State.Inv.inRange (h : s.Inv) (busy : s.status.state = .busy) : s.InRange := (State.inv_iff.mp h).2.2 busy

/-- A CORE that runs nothing has no ranges to keep. -/
theorem State.inv_of_not_busy (sound : s.Sound) (legal : s.StatusLegal) (waiting : s.status.state ≠ .busy) : s.Inv :=
  State.inv_iff.mpr ⟨sound, legal, fun busy => absurd busy waiting⟩

theorem State.inRange_of_header (act : s.activity = .header) : s.InRange :=
  ⟨fun other => by simp [act] at other, fun other => by simp [act] at other⟩

theorem State.inRange_of_tokens (act : s.activity = .tokens) (h : s.DecoderLegal) : s.InRange :=
  ⟨fun _ => h, fun other => by simp [act] at other⟩

theorem State.inRange_of_encode (act : s.activity = .encode) (h : s.EncoderLegal) : s.InRange :=
  ⟨fun other => by simp [act] at other, fun _ => h⟩

/-- The schedule is no part of the invariant. -/
theorem State.Inv.setHost (h : s.Inv) (ms : List HostMove) : ({ s with host := ms } : State).Inv := by
  obtain ⟨sound, legal, inRange⟩ := State.inv_iff.mp h
  exact State.inv_iff.mpr ⟨{ sound with }, { legal with }, fun busy =>
    ⟨fun act => { (inRange busy).decoder act with }, fun act => { (inRange busy).encoder act with }⟩⟩

theorem State.Sound.beginCommand (h : s.Sound) : s.beginCommand.Sound := { h with }

theorem State.Sound.raise (h : s.Sound) (err : Err) (c : Cause) : (s.raise err c).Sound := { h with }

theorem State.Sound.malformed (h : s.Sound) (c : Cause) : (s.malformed c).Sound := by
  rw [s.malformed_eq]; exact { h with }

theorem State.Sound.setDec (h : s.Sound) {d : DecoderRegs} (fits : d.Fits) : ({ s with dec := d } : State).Sound :=
  { h with dec := fits }

/-- The end of the stream changes `STATUS` and the results only. -/
theorem State.Sound.endOfStream (h : s.Sound) : s.endOfStream.Sound := by
  rcases s.endOfStream_cases with ⟨-, -, e⟩ | ⟨-, -, e⟩ | ⟨-, e⟩ <;> rw [e]
  · exact { h with }
  · exact { h with }
  · exact h.malformed _

theorem State.endOfStream_state : s.endOfStream.status.state = .done := by
  rcases s.endOfStream_cases with ⟨-, -, e⟩ | ⟨-, -, e⟩ | ⟨-, e⟩ <;> rw [e]
  · rfl
  · rfl
  · exact s.malformed_state _

end

/-! ## The decoder -/

theorem literalForm_len_le {i : Instr} {f len : Nat} (h : literalForm i = some (f, len)) : len ≤ 2 ^ 32 := by
  cases i <;> simp only [literalForm, Option.some.injEq, Prod.mk.injEq, reduceCtorEq] at h <;> omega

theorem copyForm_bounds {i : Instr} {w len off : Nat} (h : copyForm i = some (w, len, off)) :
    len < 2 ^ 33 ∧ off < 2 ^ 32 := by
  cases i <;> simp only [copyForm, Option.some.injEq, Prod.mk.injEq, reduceCtorEq] at h <;> omega

/-- The header's cursors and the varint unit fit (40_varint R136). -/
theorem DecoderRegs.Fits.header {d : DecoderRegs} (h : d.Fits) {bs rest : List Byte} {v c : Nat}
    (dec : varintDecode bs = .ok (v, c, rest)) : ({ d with ulen := v, ip := c, op := 0 } : DecoderRegs).Fits := by
  obtain ⟨-, five, -, v32, -⟩ := varintDecode_bounds dec
  exact ⟨v32, by show c < 2 ^ 64; omega, by norm_num, h.len, h.off, h.data⟩

theorem varintRegs_fits_of_decode {bs rest : List Byte} {v c : Nat} (dec : varintDecode bs = .ok (v, c, rest)) :
    ({ vv := v, vk := c - 1 } : VarintRegs).Fits := by
  obtain ⟨-, five, -, v32, -⟩ := varintDecode_bounds dec
  exact ⟨v32, by show c - 1 < 2 ^ 3; omega⟩

/-- A literal's length and the place of its payload fit once its fields lie in the input (43_decoder R202 to R206). -/
theorem DecoderRegs.Fits.setLiteral {d : DecoderRegs} (h : d.Fits) {i : Instr} {f len ilen : Nat}
    (form : literalForm i = some (f, len)) (ilen64 : ilen < 2 ^ 64) (inside : d.ip + 1 + f ≤ ilen) :
    ({ d with len := len, data := d.ip + 1 + f } : DecoderRegs).Fits := by
  have := literalForm_len_le form
  exact ⟨h.ulen, h.ip, h.op, by show len < 2 ^ 33; omega, h.off, by show d.ip + 1 + f < 2 ^ 64; omega⟩

theorem DecoderRegs.Fits.setCopy {d : DecoderRegs} (h : d.Fits) {i : Instr} {w len off : Nat}
    (form : copyForm i = some (w, len, off)) : ({ d with len := len, off := off } : DecoderRegs).Fits :=
  ⟨h.ulen, h.ip, h.op, (copyForm_bounds form).1, (copyForm_bounds form).2, h.data⟩

/-- Moving the cursors within the input and the declared length. -/
theorem DecoderRegs.Fits.setCursors {d : DecoderRegs} (h : d.Fits) {ip op : Nat} (hip : ip < 2 ^ 64)
    (hop : op ≤ d.ulen) : ({ d with ip := ip, op := op } : DecoderRegs).Fits :=
  ⟨h.ulen, hip, hop.trans_lt h.ulen, h.len, h.off, h.data⟩

theorem DecoderRegs.Fits.tokenAdvance {d : DecoderRegs} (h : d.Fits) {i : Instr} {ilen : Nat} (tok : i.space = .token)
    (ilen64 : ilen < 2 ^ 64) (ok : tokenFailure i ilen d = none) : (tokenAdvance i d).Fits := by
  rcases token_form tok with ⟨f, len, form, -⟩ | ⟨w, len, off, form, -⟩
  · simp only [tokenFailure, form] at ok
    split_ifs at ok
    simp only [Machine.tokenAdvance, form]
    exact (h.setLiteral form ilen64 (by omega)).setCursors (by omega) (by show d.op + len ≤ d.ulen; omega)
  · have noLiteral := literalForm_of_copyForm form
    simp only [tokenFailure, form, noLiteral] at ok
    split_ifs at ok
    simp only [Machine.tokenAdvance, form, noLiteral]
    exact (h.setCopy form).setCursors (by omega) (by show d.op + len ≤ d.ulen; omega)

/-- The registers a failing token leaves fit too, since it writes them after its field check only (log 23). -/
theorem DecoderRegs.Fits.tokenFailure {d d' : DecoderRegs} (h : d.Fits) {i : Instr} {ilen : Nat} {c : Cause}
    (ilen64 : ilen < 2 ^ 64) (more : d.ip < ilen) (bad : tokenFailure i ilen d = some (c, d')) : d'.Fits := by
  unfold Machine.tokenFailure at bad
  split at bad
  · rename_i f len form
    split_ifs at bad with whole <;> simp only [Option.some.injEq, Prod.mk.injEq] at bad <;> rw [← bad.2]
    · exact h.setLiteral form ilen64 (by omega)
    · exact h.setLiteral form ilen64 (by omega)
    · exact h
  · rename_i w len off _ form
    split_ifs at bad <;> simp only [Option.some.injEq, Prod.mk.injEq] at bad <;> rw [← bad.2]
    · exact h
    all_goals exact h.setCopy form
  · simp at bad

/-! ## The encoder -/

section
variable {P : Params} {s : State}

@[simp] theorem State.probe_k : (s.probe P).enc.k = s.enc.k := by rw [s.probe_eq P]
@[simp] theorem State.probe_lit : (s.probe P).enc.lit = s.enc.lit := by rw [s.probe_eq P]
@[simp] theorem State.probe_miss : (s.probe P).enc.miss = s.enc.miss := by rw [s.probe_eq P]
@[simp] theorem State.probe_wp : (s.probe P).enc.wp = s.enc.wp := by rw [s.probe_eq P]
@[simp] theorem State.probe_est : (s.probe P).enc.est = s.enc.est := by rw [s.probe_eq P]

theorem State.matchStep_eq (s : State) :
    s.matchStep = { s with
      obuf := s.emitMatch.obuf
      enc := { s.enc with
        wp := s.emitMatch.enc.wp, cur := s.enc.cur + s.enc.mlen, lit := s.enc.cur + s.enc.mlen, miss := 0
        est := .scanning } } := by
  rw [State.matchStep, s.emitMatch_eq]

/-- After a probe the entries in use are the old ones and the cursor, each a place where four bytes are left. -/
theorem State.EncoderLegal.probe_table (h : s.EncoderLegal) (more : s.enc.cur + 4 ≤ s.enc.n) {j c : Nat}
    (inUse : j < 2 ^ s.enc.k) (entry : Cells.lookup (s.probe P).ht j = some c) : c ≤ s.enc.cur ∧ c + 4 ≤ s.enc.n := by
  rw [s.probe_eq P, Cells.lookup_write] at entry
  split at entry
  · cases entry; exact ⟨Nat.le_refl _, more⟩
  · exact ⟨(h.table_lt j c inUse entry).1.le, (h.table_lt j c inUse entry).2⟩

theorem State.EncoderLegal.endOfInput (h : s.EncoderLegal) (est : s.enc.est = .scanning) :
    s.endOfInput.EncoderLegal := by
  have wp := State.endOfInput_wp_le h.lit_le_n (h.wp_le est)
  rw [s.endOfInput_eq]
  exact ⟨h.n_eq, h.k_ge, h.k_le, nofun, Nat.le_refl _, h.miss_le, h.table_lt, nofun, fun _ => rfl, nofun, fun _ => wp⟩

theorem State.EncoderLegal.matchStep (h : s.EncoderLegal) (est : s.enc.est = .scanning)
    (more : s.enc.cur + 4 ≤ s.enc.n) (found : 4 ≤ (s.probe P).enc.mlen) : (s.probe P).matchStep.EncoderLegal := by
  have inside := s.probe_mlen_le P
  have wp := State.emitMatch_wp_le found (by simpa using h.lit_le_cur est) (by simpa using h.wp_le est)
  rw [State.matchStep_eq]
  refine ⟨by simpa using h.n_eq, by simpa using h.k_ge, by simpa using h.k_le, fun _ => Nat.le_refl _, ?_,
    Nat.zero_le _, fun j c inUse entry => ?_, nofun, nofun, fun _ => wp, nofun⟩
  · simp only [State.probe_cur, State.probe_n]; omega
  · have place := h.probe_table more (by simpa using inUse) entry
    simp only [State.probe_cur, State.probe_n]; omega

theorem State.EncoderLegal.missStep (h : s.EncoderLegal) (est : s.enc.est = .scanning)
    (more : s.enc.cur + 4 ≤ s.enc.n) : ((s.probe P).missStep P).EncoderLegal := by
  have advance := one_le_stride P s.enc.miss
  have behind := h.lit_le_cur est
  have missed := h.miss_le
  refine ⟨by simpa using h.n_eq, by simpa using h.k_ge, by simpa using h.k_le, fun _ => ?_, by simpa using h.lit_le_n,
    ?_, fun j c inUse entry => ?_, by simp [est], by simp [est], fun _ => by simpa using h.wp_le est, by simp [est]⟩
  · simp only [State.missStep_enc, State.probe_lit, State.probe_cur, State.probe_miss]; omega
  · simp only [State.missStep_enc, State.probe_cur, State.probe_miss]; omega
  · have place := h.probe_table more (by simpa using inUse) entry
    simp only [State.missStep_enc, State.probe_cur, State.probe_miss, State.probe_n]; omega

/-- A `Step` of the encoder keeps its ranges (42_encoder R174 to R177). -/
theorem State.EncoderLegal.scanStep (h : s.EncoderLegal) (est : s.enc.est = .scanning) :
    (s.scanStep P).EncoderLegal := by
  rcases s.scanStep_cases P with ⟨-, e⟩ | ⟨more, found, e⟩ | ⟨more, -, e⟩ <;> rw [e]
  · exact h.endOfInput est
  · exact h.matchStep est more found
  · exact h.missStep est more

/-- What a probe finds fits: an index of the table, a place in the input, a length and a distance within it. -/
theorem EncoderRegs.Fits.probe (fits : s.enc.Fits) (h : s.EncoderLegal) (more : s.enc.cur + 4 ≤ s.enc.n) :
    (s.probe Config.params).enc.Fits := by
  have n32 := fits.n
  have mlen := s.probe_mlen_le Config.params
  have dist := s.probe_dist_le Config.params
  have dist32 := fits.dist
  rw [s.probe_eq Config.params]
  refine ⟨n32, fits.k, fits.cur, fits.lit, fits.miss, hash_lt_word Config.params_ok _ h.k_le, fun c cand => ?_, ?_, ?_,
    fits.wp⟩
  · have place := h.table_lt _ c (Config.params_hash_lt _ _) cand
    omega
  · show (s.probe Config.params).enc.mlen < 2 ^ 32
    omega
  · show (s.probe Config.params).enc.dist < 2 ^ 32
    omega

theorem EncoderRegs.Fits.scanStep (fits : s.enc.Fits) (h : s.EncoderLegal) (est : s.enc.est = .scanning) :
    (s.scanStep Config.params).enc.Fits := by
  have n32 := fits.n
  have missed := h.miss_le
  have legal := h.scanStep (P := Config.params) est
  rcases s.scanStep_cases Config.params with ⟨last, e⟩ | ⟨more, found, e⟩ | ⟨more, -, e⟩ <;> rw [e] at legal ⊢
  · have wp := legal.wp_done (by rw [s.endOfInput_eq])
    rw [s.endOfInput_eq] at wp ⊢
    refine ⟨n32, fits.k, fits.cur, n32, fits.miss, fits.h, fits.cand, fits.mlen, fits.dist, ?_⟩
    simp only [maxCompressed] at wp ⊢; omega
  · have probed := fits.probe h more
    have mlen := s.probe_mlen_le Config.params
    have wp := legal.wp_le rfl
    rw [State.matchStep_eq] at wp ⊢
    simp only [State.probe_cur] at wp ⊢
    refine ⟨probed.n, probed.k, ?_, ?_, by norm_num, probed.h, probed.cand, probed.mlen, probed.dist, ?_⟩ <;>
      dsimp only at wp ⊢ <;> omega
  · have probed := fits.probe h more
    have advance := stride_le Config.params s.enc.miss
    refine ⟨probed.n, probed.k, ?_, probed.lit, ?_, probed.h, probed.cand, probed.mlen, probed.dist, probed.wp⟩ <;>
      simp only [State.missStep_enc, State.probe_cur, State.probe_miss] <;> omega

theorem State.wf_emitMatch (h : Cells.wf s.obuf) : Cells.wf s.emitMatch.obuf := by
  unfold State.emitMatch
  split
  · exact Cells.wf_writeAll (Cells.wf_writeAll h _ _) _ _
  · exact Cells.wf_writeAll h _ _

theorem State.wf_endOfInput (h : Cells.wf s.obuf) : Cells.wf s.endOfInput.obuf := by
  unfold State.endOfInput
  split
  · exact Cells.wf_writeAll h _ _
  · exact h

/-- A `Step` of the encoder writes consecutive bytes and one table entry, which keeps the canonical form. -/
theorem State.wf_scanStep (obuf : Cells.wf s.obuf) (ht : Cells.wf s.ht) :
    Cells.wf (s.scanStep P).obuf ∧ Cells.wf (s.scanStep P).ht := by
  have probed : Cells.wf (s.probe P).obuf ∧ Cells.wf (s.probe P).ht := by
    rw [s.probe_eq P]; exact ⟨obuf, Cells.wf_write ht _ _⟩
  rcases s.scanStep_cases P with ⟨-, e⟩ | ⟨-, -, e⟩ | ⟨-, -, e⟩ <;> rw [e]
  · exact ⟨State.wf_endOfInput obuf, by rw [s.endOfInput_eq]; exact ht⟩
  · rw [State.matchStep_eq]; exact ⟨State.wf_emitMatch probed.1, probed.2⟩
  · exact probed

end

end Sys2Proof.Machine
end

section
/-! Every step keeps the invariant: the moves of a running CORE, the launches, and the other moves of the host. -/

namespace Sys2Proof.Machine

/-! ## The moves of a running CORE -/

section
variable {s : State} (busy : s.status.state = .busy)
include busy

theorem State.coreStep_header (act : s.activity = .header) :
    s.coreStep = s.runDecoded (decodeHeader s.headerBytes) := by simp only [State.coreStep, busy, act]

theorem State.coreStep_tokens (act : s.activity = .tokens) : s.coreStep = s.tokenStep := by
  simp only [State.coreStep, busy, act]

theorem State.coreStep_encode (act : s.activity = .encode) : s.coreStep = s.encoderStep Config.params := by
  simp only [State.coreStep, busy, act]

/-- The move is the same whatever the host has still to do. -/
theorem CoreStep.coreStep {t : State} (h : CoreStep s t) : s.coreStep = .next t := by
  cases h with
  | header act dec => rw [State.coreStep_header busy act, runDecoded_header dec]
  | headerRejected act dec => rw [State.coreStep_header busy act, runDecoded_headerRejected dec]
  | token act more dec ok =>
    rw [State.coreStep_tokens busy act, State.tokenStep_fetch more, State.runDecoded_ok dec,
      exec_token (decodeToken_space dec), State.loadTag_ilen, ok]
    rfl
  | tokenFailed act more dec bad =>
    rw [State.coreStep_tokens busy act, State.tokenStep_fetch more, State.runDecoded_ok dec,
      exec_token (decodeToken_space dec), State.loadTag_ilen, bad]
    rfl
  | tokenRejected act more dec =>
    rw [State.coreStep_tokens busy act, State.tokenStep_fetch more, State.runDecoded_error dec,
      decodeToken_tokenBytes_error more dec, causeOf]
  | endOfStream act last => rw [State.coreStep_tokens busy act, State.tokenStep_end last]
  | scan act est | complete act est => rw [State.coreStep_encode busy act, State.encoderStep, est]

end

theorem CoreStep.sound {s t : State} (inv : s.Inv) (busy : s.status.state = .busy) (move : CoreStep s t) : t.Sound := by
  have sound := inv.sound
  have loaded : s.loadTag.dec.Fits := { sound.dec with }
  cases move with
  | header act dec => exact { sound with dec := sound.dec.header dec, vc := varintRegs_fits_of_decode dec }
  | headerRejected => exact sound.malformed _
  | token act more dec ok =>
    refine { sound with obuf := ?_, dec := loaded.tokenAdvance (decodeToken_space dec) s.ilen.isLt ok }
    show Cells.wf (if s.dec.dry then s.obuf else _)
    split
    · exact sound.obuf
    · exact wf_tokenMove _ _ _ _ sound.obuf
  | tokenFailed act more dec bad => exact (sound.setDec (loaded.tokenFailure s.ilen.isLt more bad)).malformed _
  | tokenRejected => exact (sound.setDec loaded).malformed _
  | endOfStream => exact sound.endOfStream
  | scan act est =>
    have fits := sound.enc.scanStep ((inv.inRange busy).encoder act) est
    obtain ⟨obuf, ht⟩ := State.wf_scanStep (P := Config.params) sound.obuf sound.ht
    rw [s.scanStep_eq]
    exact { sound with obuf, ht, enc := fits }
  | complete => exact { sound with }

/-- A command that goes on is in its ranges: the cursors of a token are bounded by its checks, those of the encoder by
its `Step`. -/
theorem CoreStep.inRange {s t : State} (inv : s.Inv) (busy : s.status.state = .busy) (move : CoreStep s t)
    (busy' : t.status.state = .busy) : t.InRange := by
  cases move with
  | header act dec =>
    obtain ⟨-, -, inInput, -, -⟩ := varintDecode_bounds dec
    rw [s.length_headerBytes] at inInput
    exact State.inRange_of_tokens rfl ⟨inInput.trans (min_le_right _ _), Nat.zero_le _⟩
  | token act more dec ok =>
    obtain ⟨-, ip, -, op, ulen, -⟩ := tokenAdvance_bounds (decodeToken_space dec) ok
    exact State.inRange_of_tokens act ⟨ip, op.trans ulen.ge⟩
  | scan act est =>
    exact State.inRange_of_encode (by rw [s.scanStep_eq]; exact act)
      (((inv.inRange busy).encoder act).scanStep est)
  | headerRejected | tokenFailed | tokenRejected => simp at busy'
  | endOfStream => simp [State.endOfStream_state] at busy'
  | complete => simp at busy'

theorem CoreStep.inv {s t : State} (inv : s.Inv) (busy : s.status.state = .busy) (move : CoreStep s t) : t.Inv :=
  State.inv_iff.mpr ⟨move.sound inv busy, move.statusLegal busy inv.status, move.inRange inv busy⟩

/-! ## The launches -/

/-- The registers and the emptied table of a new `COMPRESS` (42_encoder R171, R172). -/
theorem State.beginEncode_encoderLegal (s : State) : (s.beginEncode Config.params).EncoderLegal := by
  obtain ⟨k_ge, k_le⟩ := kbits_bounds Config.params_ok s.ilen.toNat
  have header := length_varintEncode_le s.ilen.toNat
  rw [s.beginEncode_eq]
  refine ⟨rfl, k_ge, k_le, fun _ => Nat.le_refl _, Nat.zero_le _, Nat.le_refl _, fun j c inUse entry => ?_, nofun,
    nofun, fun _ => ?_, nofun⟩
  · exact absurd ((s.encoderInit_table Config.params inUse).symm.trans entry) nofun
  · show 5 * (0 + (varintEncode s.ilen.toNat).length) ≤ 25 + 7 * 0
    omega

theorem State.Sound.beginEncode {s : State} (h : s.Sound) (small : s.ilen.toNat ≤ 2 ^ 32 - 1) :
    (s.beginEncode Config.params).Sound := by
  have k_le := (kbits_bounds Config.params_ok s.ilen.toNat).2.trans Config.params_ok.max_le
  have header := length_varintEncode_le s.ilen.toNat
  have group := Nat.div_le_self s.ilen.toNat (128 ^ ((varintEncode s.ilen.toNat).length - 1))
  rw [s.beginEncode_eq]
  exact {
    ibuf := h.ibuf
    obuf := Cells.wf_writeAll h.obuf _ _
    ht := Cells.wf_clearBelow h.ht _
    dec := h.dec
    enc := { h.enc with
      n := by show s.ilen.toNat < 2 ^ 32; omega
      k := by show kbits Config.params s.ilen.toNat < 2 ^ 6; omega
      cur := by norm_num [State.encoderInit]
      lit := by norm_num [State.encoderInit]
      miss := by norm_num [State.encoderInit]
      wp := by show 0 + (varintEncode s.ilen.toNat).length < 2 ^ 64; omega }
    vc := {
      vv := by show s.ilen.toNat / 128 ^ ((varintEncode s.ilen.toNat).length - 1) < 2 ^ 32; omega
      vk := by show (varintEncode s.ilen.toNat).length - 1 < 2 ^ 3; omega } }

theorem State.Sound.peekLength {s : State} (h : s.Sound) : s.peekLength.Sound := by
  cases dec : varintDecode s.headerBytes with
  | ok r => rw [State.peekLength_ok dec]; exact { h with vc := varintRegs_fits_of_decode dec }
  | error e => rw [State.peekLength_error dec]; exact h.raise _ _

theorem State.peekLength_state (s : State) : s.peekLength.status.state = .done := by
  cases dec : varintDecode s.headerBytes with
  | ok r => rw [State.peekLength_ok dec]
  | error e => rw [State.peekLength_error dec]; rfl

/-- A launch establishes the ranges of its command, whatever the registers held. -/
theorem State.Sound.inv_commandBody {i : Instr} {s : State} (cmd : i.space = .command) (h : s.Sound)
    (busy : s.status.state = .busy) (status : s.StatusLegal) : (commandBody i s).Inv := by
  have legal := commandBody_statusLegal i busy status
  cases i with
  | compress =>
    rcases s.startCompress_cases Config.params with ⟨small, e⟩ | ⟨-, e⟩ <;> rw [commandBody, e] at legal ⊢
    · exact State.inv_iff.mpr
        ⟨h.beginEncode small, legal, fun _ => State.inRange_of_encode rfl s.beginEncode_encoderLegal⟩
    · exact State.inv_of_not_busy (h.raise _ _) legal (by simp)
  | uncompress | decompress | validate =>
    exact State.inv_iff.mpr ⟨{ h with dec := { h.dec with } }, legal, fun _ => State.inRange_of_header rfl⟩
  | ulen => exact State.inv_of_not_busy h.peekLength legal (by simp [commandBody, State.peekLength_state])
  | _ => cases cmd

theorem decodeCommand_space {c : BitVec 3} {i : Instr} (dec : decodeCommand c = .ok i) : i.space = .command := by
  unfold decodeCommand at dec
  split_ifs at dec <;> cases dec <;> rfl

/-! ## The step -/

/-- An outcome that keeps the invariant: no fault, and any next state meets it. -/
structure KeepsInv (o : Host.Outcome State Fault Refusal) : Prop where
  next : ∀ t, o = .next t → t.Inv
  no_fault : ∀ r, o ≠ .fault r

theorem State.Inv.keepsInv_next {t : State} (h : t.Inv) : KeepsInv (.next t) :=
  ⟨fun _ e => Host.Outcome.next.inj e ▸ h, nofun⟩

theorem keepsInv_refused (r : Refusal) : KeepsInv (.refused r) := by
  constructor <;> simp

section
variable {s : State}

/-- The CORE waits, or makes a move that keeps the invariant; it never finds the encoder `EMITTING` (log 10). -/
theorem State.Inv.keepsInv_coreStep (h : s.Inv) : KeepsInv s.coreStep := by
  cases busy : s.status.state with
  | idle | done => simp only [State.coreStep, busy]; exact h.keepsInv_next
  | busy =>
    obtain ⟨t, move⟩ := exists_coreStep (s := s) fun act => (h.encoder busy act).not_emitting
    rw [move.coreStep busy]
    exact (move.inv h busy).keepsInv_next

theorem State.Inv.keepsInv_commandWrite (h : s.Inv) (c : BitVec 3) : KeepsInv (s.commandWrite c) := by
  unfold State.commandWrite
  split
  · exact h.keepsInv_next
  · rename_i waiting
    split
    · rename_i i dec
      have cmd := decodeCommand_space dec
      rw [exec_command cmd waiting]
      exact (h.sound.beginCommand.inv_commandBody cmd rfl s.beginCommand_statusLegal).keepsInv_next
    · exact h.keepsInv_next

/-- A host write while the CORE waits changes no working register. -/
theorem State.Inv.setInput (h : s.Inv) (waiting : s.status.state ≠ .busy) {ibuf : Memory} (wf : Memory.wf ibuf)
    (ilen : BitVec 64) : ({ s with ibuf := ibuf, ilen := ilen } : State).Inv :=
  State.inv_of_not_busy { h.sound with ibuf := wf } { h.status with } waiting

/-- Settles O56: every reset value is 0 or empty, and no command runs. -/
theorem invariantHoldsAtReset : Obligations.InvariantHoldsAtReset := by
  refine State.inv_of_not_busy ⟨.nil, .nil, .nil, ?_, ?_, ?_⟩ ?_ (by decide) <;> constructor <;> decide

theorem State.inv_resetEvent (s : State) : s.resetEvent.Inv := by
  obtain ⟨sound, legal, -⟩ := State.inv_iff.mp invariantHoldsAtReset
  exact State.inv_of_not_busy { sound with } { legal with } (by simp)

theorem State.Inv.keepsInv_hostStep (h : s.Inv) (m : HostMove) : KeepsInv (s.hostStep m) := by
  cases m with
  | pass => exact h.keepsInv_coreStep
  | poll =>
    show KeepsInv (if s.status.state = .busy then ({ s with host := .poll :: s.host } : State).coreStep else .next s)
    split
    · exact (h.setHost _).keepsInv_coreStep
    · exact h.keepsInv_next
  | writeIlen v =>
    show KeepsInv (if s.status.state = .busy then .refused _ else .next _)
    split
    · exact keepsInv_refused _
    · rename_i waiting; exact (h.setInput waiting h.ibuf_wf v).keepsInv_next
  | writeIbuf addr b =>
    show KeepsInv (if s.status.state = .busy then .refused _ else .next _)
    split
    · exact keepsInv_refused _
    · rename_i waiting; exact (h.setInput waiting (Cells.wf_write h.ibuf_wf _ b) s.ilen).keepsInv_next
  | writeCmd c => exact h.keepsInv_commandWrite c
  | reset => exact s.inv_resetEvent.keepsInv_next

/-- A step is a move of the CORE, or a move of the host taken off the schedule. -/
theorem State.Inv.keepsInv_step (h : s.Inv) : KeepsInv (step s) := by
  unfold step
  split
  · exact h.keepsInv_coreStep
  · exact (h.setHost _).keepsInv_hostStep _

end

/-- Settles O57: whatever moves next, the CORE or the host, keeps the invariant. -/
theorem stepKeepsTheInvariant : Obligations.StepKeepsTheInvariant := by
  intro s h
  obtain ⟨next, no_fault⟩ := h.keepsInv_step
  exact ⟨next, no_fault⟩

end Sys2Proof.Machine
end

section
/-! The decoder body reads `IBUF` below `ILEN` and `OBUF` below `op` only: from two states that differ in other bytes of
the buffers it takes the same step (20_memory R61, R62; 43_decoder R220). -/

namespace Sys2Proof.Machine

/-- The state with other contents of the two buffers. -/
def State.withBuffers (s : State) (ibuf obuf : Memory) : State := { s with ibuf := ibuf, obuf := obuf }

/-! ## Ending a command reads no buffer -/

theorem State.malformed_withBuffers (s : State) (ibuf obuf : Memory) (c : Cause) :
    (s.malformed c).withBuffers ibuf obuf = (s.withBuffers ibuf obuf).malformed c := by
  have twin : (s.withBuffers ibuf obuf).malformed c = if s.dec.dry then (s.withBuffers ibuf obuf).finishValidate false
      else (s.withBuffers ibuf obuf).raise .malformedInput c := rfl
  rw [twin, State.malformed]; split <;> rfl

theorem State.endOfStream_withBuffers (s : State) (ibuf obuf : Memory) :
    s.endOfStream.withBuffers ibuf obuf = (s.withBuffers ibuf obuf).endOfStream := by
  have twin : (s.withBuffers ibuf obuf).endOfStream = if s.dec.op = s.dec.ulen then
      if s.dec.dry then (s.withBuffers ibuf obuf).finishValidate true else (s.withBuffers ibuf obuf).completeUncompress
      else (s.withBuffers ibuf obuf).malformed .lengthMismatch := rfl
  rw [twin, State.endOfStream]
  split_ifs
  · rfl
  · rfl
  · exact s.malformed_withBuffers ibuf obuf _

/-- The end of the stream changes `STATUS`, `OLEN` and `RESULT` only. -/
theorem State.endOfStream_eq (s : State) :
    s.endOfStream = { s with
      status := s.endOfStream.status, olen := s.endOfStream.olen, result := s.endOfStream.result } := by
  rcases s.endOfStream_cases with ⟨-, -, e⟩ | ⟨-, -, e⟩ | ⟨-, e⟩ <;> rw [e]
  · rfl
  · rfl
  · rw [s.malformed_eq]

/-! ## Which bytes the two states must agree on -/

/-- `obuf` holds the output so far, which a decoder in dry mode does not read (20_memory R62, 44_peek_validate R242). -/
def State.OutputAgrees (s : State) (obuf : Memory) : Prop :=
  s.dec.dry = false → ∀ a < s.dec.op, obufRead s.epoch obuf a = s.obufByte a

section
variable {s : State} {ibuf obuf : Memory}

theorem State.OutputAgrees.malformed (h : s.OutputAgrees obuf) (c : Cause) : (s.malformed c).OutputAgrees obuf := by
  rw [s.malformed_eq]; exact h

theorem State.OutputAgrees.endOfStream (h : s.OutputAgrees obuf) : s.endOfStream.OutputAgrees obuf := by
  rw [s.endOfStream_eq]; exact h

/-- A token that fails its checks has not moved `op`. -/
theorem State.OutputAgrees.tokenFailure (h : s.OutputAgrees obuf) {i : Instr} {ilen : Nat} {c : Cause} {d : DecoderRegs}
    (bad : tokenFailure i ilen s.loadTag.dec = some (c, d)) :
    d.dry = s.dec.dry ∧ ({ s with dec := d } : State).OutputAgrees obuf := by
  obtain ⟨-, frame⟩ := tokenFailure_regs bad
  rw [frame]; exact ⟨rfl, h⟩

/-- Buffers that agree on the operand and on the output so far put the two decoders side by side. -/
theorem State.OutputAgrees.sameDecoder (h : s.OutputAgrees obuf) : SameDecoder s (s.withBuffers ibuf obuf) :=
  ⟨rfl, rfl, rfl, rfl, h⟩

theorem sameView_withBuffers (input : ∀ a < s.ilen.toNat, ({ s with ibuf := ibuf } : State).ibufByte a = s.ibufByte a) :
    SameView s (s.withBuffers ibuf obuf) :=
  ⟨rfl, rfl, rfl, rfl, input⟩

/-- A tag inside the input is the same in both (43_decoder R201). -/
theorem SameView.loadTag_withBuffers (view : SameView s (s.withBuffers ibuf obuf)) (more : s.dec.ip < s.ilen.toNat) :
    (s.withBuffers ibuf obuf).loadTag = s.loadTag.withBuffers ibuf obuf :=
  congrArg (fun b => ({ s with dec := { s.dec with tag := b } } : State).withBuffers ibuf obuf) (view.bytes _ more)

/-! ## The step -/

/-- With buffers that agree on what the decoder body may read, its move leads to the same state but for buffers that
agree again. -/
theorem CoreStep.withBuffers {t : State} (view : SameView s (s.withBuffers ibuf obuf)) (output : s.OutputAgrees obuf)
    (decoding : s.activity ≠ .encode) (move : CoreStep s t) :
    ∃ obuf', CoreStep (s.withBuffers ibuf obuf) (t.withBuffers ibuf obuf') ∧ t.dec.dry = s.dec.dry ∧
      t.OutputAgrees obuf' := by
  have header := view.headerBytes
  have token := view.tokenBytes rfl
  have loaded := view.loadTag_withBuffers
  have tag (more : s.dec.ip < s.ilen.toNat) : (s.withBuffers ibuf obuf).loadTag.dec = s.loadTag.dec := by
    rw [loaded more]; rfl
  cases move with
  | header act dec => exact ⟨obuf, .header act (header ▸ dec), rfl, fun _ a ha => absurd ha (Nat.not_lt_zero a)⟩
  | headerRejected act dec =>
    refine ⟨obuf, ?_, by simp, output.malformed _⟩
    rw [State.malformed_withBuffers]
    exact .headerRejected act (header ▸ dec)
  | token act more dec ok =>
    have tok := decodeToken_space dec
    obtain ⟨-, -, -, -, -, dry, -⟩ := tokenAdvance_bounds tok ok
    have ok' := output.sameDecoder.tokenFailure_none view ok
    have twin := CoreStep.token (s := s.withBuffers ibuf obuf) act more (token more ▸ dec) ok'
    have written := (output.sameDecoder.token view tok ok ok').written
    rw [tag more] at twin
    exact ⟨_, twin, dry, written⟩
  | tokenFailed act more dec bad =>
    obtain ⟨dry, agrees⟩ := output.tokenFailure bad
    refine ⟨obuf, ?_, by simp [dry], agrees.malformed _⟩
    rw [State.malformed_withBuffers]
    exact .tokenFailed act more (token more ▸ dec) (tag more ▸ bad)
  | tokenRejected act more dec =>
    have agrees : s.loadTag.OutputAgrees obuf := output
    refine ⟨obuf, ?_, by simp, agrees.malformed _⟩
    rw [State.malformed_withBuffers, ← loaded more]
    exact .tokenRejected act more (token more ▸ dec)
  | endOfStream act last =>
    refine ⟨obuf, ?_, by rw [s.endOfStream_eq], output.endOfStream⟩
    rw [State.endOfStream_withBuffers]
    exact .endOfStream act last
  | scan act | complete act => exact absurd act decoding

end

/-- Settles O29: the move of the decoder body from agreeing buffers, by its cases. -/
theorem decoderReadsStayInBounds : Obligations.DecoderReadsStayInBounds := by
  intro s t ibuf obuf quiet busy act input output one
  have decoding : s.activity ≠ .encode := by rcases act with act | act <;> simp [act]
  obtain ⟨obuf', move, dry, agrees⟩ :=
    ((step_next_iff quiet busy).mp one).withBuffers (sameView_withBuffers input) output decoding
  exact ⟨obuf', move.step quiet busy, dry, agrees⟩

end Sys2Proof.Machine
end

section
/-! Everything one step can do, the host's moves with the CORE's, and with it which memories and registers each move
writes (20_memory R61, R63, R72; 10_state R24, R42, R43, R47). -/

namespace Sys2Proof.Machine

/-! ## Every move -/

/-- `Move s t`: what a step from `s` can lead to, one constructor per kind of move of the host and of the CORE (log 2).
`ms` is the schedule the step leaves; a move that shows nothing but that leaves it open which. -/
inductive Move (s : State) : State → Prop
  | core {ms : List HostMove} {t : State} (busy : s.status.state = .busy) (move : CoreStep { s with host := ms } t) :
      Move s t
  | noEffect (ms : List HostMove) : Move s { s with host := ms }
  | launch {c : BitVec 3} {i : Instr} {ms : List HostMove} (front : s.host = .writeCmd c :: ms)
      (dec : decodeCommand c = .ok i) : Move s (commandBody i ({ s with host := ms } : State).beginCommand)
  | writeIlen {v : BitVec 64} {ms : List HostMove} (front : s.host = .writeIlen v :: ms) :
      Move s { s with host := ms, ilen := v }
  | writeIbuf {addr : BitVec 64} {b : Byte} {ms : List HostMove} (front : s.host = .writeIbuf addr b :: ms) :
      Move s { s with host := ms, ibuf := Cells.write s.ibuf addr.toNat b }
  | reset {ms : List HostMove} (front : s.host = .reset :: ms) : Move s ({ s with host := ms } : State).resetEvent

/-- A CORE that steps waits, or makes one of its moves. -/
theorem State.coreStep_next {s t : State} (next : s.coreStep = .next t) :
    t = s ∨ (s.status.state = .busy ∧ CoreStep s t) := by
  cases busy : s.status.state with
  | idle | done => simp only [State.coreStep, busy, Host.Outcome.next.injEq] at next; exact .inl next.symm
  | busy =>
    have emitting : s.activity = .encode → s.enc.est ≠ .emitting := fun act est => by
      rw [State.coreStep_encode busy act, State.encoderStep, est] at next
      cases next
    obtain ⟨u, move⟩ := exists_coreStep emitting
    rw [move.coreStep busy, Host.Outcome.next.injEq] at next
    exact .inr ⟨rfl, next ▸ move⟩

theorem Move.of_coreStep {s t : State} {ms : List HostMove} (next : ({ s with host := ms } : State).coreStep = .next t) :
    Move s t := by
  rcases State.coreStep_next next with rfl | ⟨busy, move⟩
  · exact .noEffect ms
  · exact .core busy move

/-- A write of `CMD` launches its command, or does nothing (10_state R22; log 1). -/
theorem Move.of_commandWrite {s t : State} {c : BitVec 3} {ms : List HostMove} (front : s.host = .writeCmd c :: ms)
    (next : ({ s with host := ms } : State).commandWrite c = .next t) : Move s t := by
  unfold State.commandWrite at next
  split at next
  · cases next; exact .noEffect ms
  · rename_i waiting
    split at next
    · rename_i i dec
      rw [exec_command (decodeCommand_space dec) waiting] at next
      cases next; exact .launch front dec
    · cases next; exact .noEffect ms

theorem Move.of_hostStep {s t : State} {m : HostMove} {ms : List HostMove} (front : s.host = m :: ms)
    (next : ({ s with host := ms } : State).hostStep m = .next t) : Move s t := by
  cases m with
  | pass => exact .of_coreStep next
  | poll =>
    simp only [State.hostStep] at next
    split at next
    · exact .of_coreStep next
    · cases next; exact .noEffect ms
  | writeIlen v =>
    simp only [State.hostStep] at next
    split at next <;> cases next
    exact .writeIlen front
  | writeIbuf addr b =>
    simp only [State.hostStep] at next
    split at next <;> cases next
    exact .writeIbuf front
  | writeCmd c => exact .of_commandWrite front next
  | reset => cases next; exact .reset front

/-- A step is one of the moves. -/
theorem move_of_step {s t : State} (next : step s = .next t) : Move s t := by
  cases front : s.host with
  | nil =>
    rw [step_of_no_moves front] at next
    exact .of_coreStep (ms := s.host) next
  | cons m ms =>
    rw [step_of_move front] at next
    exact .of_hostStep front next

/-! ## What a move of the CORE writes -/

section
variable {s t : State}

/-- The CORE only reads its operand (20_memory R61). -/
theorem CoreStep.operand_eq (move : CoreStep s t) : t.ibuf = s.ibuf ∧ t.ilen = s.ilen := by
  cases move with
  | header | token | complete => exact ⟨rfl, rfl⟩
  | headerRejected | tokenFailed | tokenRejected => simp
  | endOfStream => rw [s.endOfStream_eq]; exact ⟨rfl, rfl⟩
  | scan => rw [s.scanStep_eq]; exact ⟨rfl, rfl⟩

/-- The decoder body does not touch the table (20_memory R63). -/
theorem CoreStep.ht_eq (move : CoreStep s t) (decoding : s.activity ≠ .encode) : t.ht = s.ht := by
  cases move with
  | header | token => rfl
  | headerRejected | tokenFailed | tokenRejected => simp
  | endOfStream => rw [s.endOfStream_eq]
  | scan act | complete act => exact absurd act decoding

/-- A running command goes on or is done (10_state R42). -/
theorem CoreStep.not_idle (move : CoreStep s t) (busy : s.status.state = .busy) : t.status.state ≠ .idle := by
  cases move with
  | header | token => simp [busy]
  | headerRejected | tokenFailed | tokenRejected | complete => simp
  | endOfStream => simp [State.endOfStream_state]
  | scan => rw [s.scanStep_eq]; simp [busy]

end

/-! ## What a launch writes -/

theorem State.peekLength_eq (s : State) :
    s.peekLength = { s with
      status := s.peekLength.status, olen := s.peekLength.olen, result := s.peekLength.result, vc := s.peekLength.vc } := by
  cases dec : varintDecode s.headerBytes with
  | ok r => rw [State.peekLength_ok dec]
  | error e => rw [State.peekLength_error dec]; rfl

theorem commandBody_operand_eq (i : Instr) (s : State) :
    (commandBody i s).ibuf = s.ibuf ∧ (commandBody i s).ilen = s.ilen := by
  cases i with
  | compress =>
    rcases s.startCompress_cases Config.params with ⟨-, e⟩ | ⟨-, e⟩ <;> rw [commandBody, e] <;> exact ⟨rfl, rfl⟩
  | ulen => rw [commandBody, s.peekLength_eq]; exact ⟨rfl, rfl⟩
  | _ => exact ⟨rfl, rfl⟩

/-- Only the launch of `COMPRESS` empties the table (42_encoder R171). -/
theorem commandBody_ht_eq {i : Instr} (other : i ≠ .compress) (s : State) : (commandBody i s).ht = s.ht := by
  cases i with
  | compress => exact absurd rfl other
  | ulen => rw [commandBody, s.peekLength_eq]
  | _ => rfl

theorem commandBody_not_idle (i : Instr) {s : State} (busy : s.status.state = .busy) :
    (commandBody i s).status.state ≠ .idle := by
  cases i with
  | compress =>
    rcases s.startCompress_cases Config.params with ⟨-, e⟩ | ⟨-, e⟩ <;> rw [commandBody, e]
    · exact fun idle => nomatch busy.symm.trans idle
    · exact nofun
  | ulen => simp [commandBody, State.peekLength_state]
  | _ => exact fun idle => nomatch busy.symm.trans idle

theorem decodeCommand_compress {c : BitVec 3} (dec : decodeCommand c = .ok .compress) : c = 1 := by
  unfold decodeCommand at dec
  split at dec
  · assumption
  · split_ifs at dec <;> cases dec

/-! ## What a step writes -/

section
variable {s t : State}

/-- The operand is the host's to write (20_memory R61, R72; 10_state R24, R47). -/
theorem Move.operand_eq (move : Move s t) (noIbuf : ∀ a b ms, s.host ≠ .writeIbuf a b :: ms)
    (noIlen : ∀ v ms, s.host ≠ .writeIlen v :: ms) (noReset : ∀ ms, s.host ≠ .reset :: ms) :
    t.ibuf = s.ibuf ∧ t.ilen = s.ilen := by
  cases move with
  | core busy move => exact move.operand_eq
  | noEffect => exact ⟨rfl, rfl⟩
  | launch => exact commandBody_operand_eq _ _
  | writeIlen front => exact absurd front (noIlen _ _)
  | writeIbuf front => exact absurd front (noIbuf _ _ _)
  | reset front => exact absurd front (noReset _)

/-- The table is `COMPRESS`'s (20_memory R63, 10_state R43). -/
theorem Move.encodes_of_ht_ne (move : Move s t) (noReset : ∀ ms, s.host ≠ .reset :: ms) (changed : t.ht ≠ s.ht) :
    (s.status.state = .busy ∧ s.activity = .encode) ∨ ∃ ms, s.host = .writeCmd 1 :: ms := by
  cases move with
  | core busy move => exact .inl ⟨busy, by_contra fun decoding => changed (move.ht_eq decoding)⟩
  | @launch c i ms front dec =>
    have compress : i = .compress := by_contra fun other => changed (commandBody_ht_eq other _)
    subst compress
    exact .inr ⟨ms, decodeCommand_compress dec ▸ front⟩
  | noEffect | writeIlen | writeIbuf => exact absurd rfl changed
  | reset front => exact absurd front (noReset _)

/-- `IDLE` comes back only with a reset event (10_state R42). -/
theorem Move.not_idle (move : Move s t) (noReset : ∀ ms, s.host ≠ .reset :: ms) (started : s.status.state ≠ .idle) :
    t.status.state ≠ .idle := by
  cases move with
  | core busy move => exact move.not_idle busy
  | launch => exact commandBody_not_idle _ rfl
  | noEffect | writeIlen | writeIbuf => exact started
  | reset front => exact absurd front (noReset _)

end

/-- Settles O55: what each move of the host or the CORE writes. -/
theorem whoWritesWhat : Obligations.WhoWritesWhat :=
  fun _ _ next => ⟨(move_of_step next).operand_eq, (move_of_step next).encodes_of_ht_ne, (move_of_step next).not_idle⟩

end Sys2Proof.Machine
end

section
/-! The tag map and the fields after a tag (30_encoding R96 to R106): one equation of the token decoder per form, on
tags put together from their fields, and for every tag the form it is of. -/

namespace Sys2Proof

/-! ## Fields of a tag -/

/-- Every vector is two fields side by side. -/
theorem exists_eq_append {v w : Nat} (x : BitVec (v + w)) : ∃ (hi : BitVec v) (lo : BitVec w), x = hi ++ lo :=
  ⟨x.extractLsb' w v, x.extractLsb' 0 w, by
    rw [BitVec.extractLsb'_append_extractLsb'_eq_extractLsb' (Nat.zero_add w).symm, BitVec.extractLsb'_eq_self]⟩

/-- The class bits of a tag are its low-order bits (30_encoding R96). -/
theorem exists_tag_of_class {t : Byte} (c : BitVec 2) (cls : t.toNat % 4 = c.toNat) :
    ∃ m : BitVec 6, t = (m ++ c : BitVec 8) := by
  obtain ⟨m, lo, rfl⟩ := exists_eq_append (v := 6) (w := 2) t
  have low : lo = c := BitVec.eq_of_toNat_eq (by rw [toNat_append_mul] at cls; omega)
  exact ⟨m, by rw [low]⟩

/-! ## One equation of the token decoder per form -/

section
variable (rest : List Byte)

theorem decodeToken_lit {m : BitVec 6} (short : m.toNat ≤ 59) :
    decodeToken ((m ++ 0#2 : BitVec 8) :: rest) = .ok (.lit m, rest) := by
  rw [decodeToken, BitVec.extractLsb'_append_eq_right, BitVec.extractLsb'_append_eq_left, if_pos rfl, decodeLiteral,
    if_pos short]

theorem decodeToken_litx1 :
    decodeToken (0xF0#8 :: rest) = takeField 1 rest fun v => .litx1 (BitVec.ofNat 8 v) := rfl

theorem decodeToken_litx2 :
    decodeToken (0xF4#8 :: rest) = takeField 2 rest fun v => .litx2 (BitVec.ofNat 16 v) := rfl

theorem decodeToken_litx3 :
    decodeToken (0xF8#8 :: rest) = takeField 3 rest fun v => .litx3 (BitVec.ofNat 24 v) := rfl

theorem decodeToken_litx4 :
    decodeToken (0xFC#8 :: rest) = takeField 4 rest fun v => .litx4 (BitVec.ofNat 32 v) := rfl

theorem decodeToken_copy1 (hi l : BitVec 3) : decodeToken ((hi ++ l ++ 1#2 : BitVec 8) :: rest) =
    takeField 1 rest fun v => .copy1 l (hi ++ BitVec.ofNat 8 v) := by
  have length : (hi ++ l ++ 1#2 : BitVec 8).extractLsb' 2 3 = l := by
    rw [BitVec.extractLsb'_append_eq_of_le (Nat.le_refl 2)]; exact BitVec.extractLsb'_append_eq_right
  have high : (hi ++ l ++ 1#2 : BitVec 8).extractLsb' 5 3 = hi := by
    rw [BitVec.extractLsb'_append_eq_of_le (by decide)]; exact BitVec.extractLsb'_append_eq_left
  rw [decodeToken, BitVec.extractLsb'_append_eq_right, if_neg (by decide), if_pos rfl, length, high]

theorem decodeToken_copy2 (l : BitVec 6) : decodeToken ((l ++ 2#2 : BitVec 8) :: rest) =
    takeField 2 rest fun v => .copy2 l (BitVec.ofNat 16 v) := by
  rw [decodeToken, BitVec.extractLsb'_append_eq_right, BitVec.extractLsb'_append_eq_left, if_neg (by decide),
    if_neg (by decide), if_pos rfl]

theorem decodeToken_copy4 (l : BitVec 6) : decodeToken ((l ++ 3#2 : BitVec 8) :: rest) =
    takeField 4 rest fun v => .copy4 l (BitVec.ofNat 32 v) := by
  rw [decodeToken, BitVec.extractLsb'_append_eq_right, BitVec.extractLsb'_append_eq_left, if_neg (by decide),
    if_neg (by decide), if_neg (by decide)]

end

/-! ## The form of a tag (30_encoding R106) -/

/-- The tag map: every tag is of one of the eight forms. -/
inductive TagForm : Byte → Prop
  | lit (m : BitVec 6) (short : m.toNat ≤ 59) : TagForm (m ++ 0#2 : BitVec 8)
  | litx1 : TagForm 0xF0#8
  | litx2 : TagForm 0xF4#8
  | litx3 : TagForm 0xF8#8
  | litx4 : TagForm 0xFC#8
  | copy1 (hi l : BitVec 3) : TagForm (hi ++ l ++ 1#2 : BitVec 8)
  | copy2 (l : BitVec 6) : TagForm (l ++ 2#2 : BitVec 8)
  | copy4 (l : BitVec 6) : TagForm (l ++ 3#2 : BitVec 8)

theorem exists_litTag {t : Byte} (cls : t.toNat % 4 = 0) (atMost : t.toNat ≤ 0xEC) :
    ∃ m : BitVec 6, m.toNat ≤ 59 ∧ t = (m ++ 0#2 : BitVec 8) := by
  obtain ⟨m, rfl⟩ := exists_tag_of_class 0#2 cls
  rw [toNat_append_mul] at atMost
  exact ⟨m, by omega, rfl⟩

theorem exists_copy1Tag {t : Byte} (cls : t.toNat % 4 = 1) : ∃ hi l : BitVec 3, t = (hi ++ l ++ 1#2 : BitVec 8) := by
  obtain ⟨m, rfl⟩ := exists_tag_of_class 1#2 cls
  obtain ⟨hi, l, rfl⟩ := exists_eq_append (v := 3) (w := 3) m
  exact ⟨hi, l, rfl⟩

theorem tagForm (t : Byte) : TagForm t := by
  have value : t.toNat % 4 = 0 ∧ t.toNat ≤ 0xEC ∨ t = 0xF0#8 ∨ t = 0xF4#8 ∨ t = 0xF8#8 ∨ t = 0xFC#8 ∨
      t.toNat % 4 = 1 ∨ t.toNat % 4 = 2 ∨ t.toNat % 4 = 3 := by bv_omega
  rcases value with ⟨cls, atMost⟩ | rfl | rfl | rfl | rfl | cls | cls | cls
  · obtain ⟨m, short, rfl⟩ := exists_litTag cls atMost; exact .lit m short
  · exact .litx1
  · exact .litx2
  · exact .litx3
  · exact .litx4
  · obtain ⟨hi, l, rfl⟩ := exists_copy1Tag cls; exact .copy1 hi l
  · obtain ⟨l, rfl⟩ := exists_tag_of_class 2#2 cls; exact .copy2 l
  · obtain ⟨l, rfl⟩ := exists_tag_of_class 3#2 cls; exact .copy4 l

/-! ## The field after a tag -/

section
variable {w n : Nat} {bs rest : List Byte}

/-- A field written from a value of its width is read back as that value. -/
theorem takeField_toLe (e : BitVec w) (rest : List Byte) (mk : BitVec w → Instr) (width : w = 8 * n := by rfl) :
    takeField n (toLe n e.toNat ++ rest) (fun v => mk (BitVec.ofNat w v)) = .ok (mk e, rest) := by
  have fits : e.toNat < 256 ^ n := e.isLt.trans_eq (by rw [width, pow_mul]; rfl)
  rw [takeField_append n _ rest _ (length_toLe n _), le_toLe n _ fits, BitVec.ofNat_toNat, BitVec.setWidth_eq]

/-- A field that is read is the value of the bytes consumed, written in their number. -/
theorem exists_of_takeField {i : Instr} (mk : BitVec w → Instr)
    (h : takeField n bs (fun v => mk (BitVec.ofNat w v)) = .ok (i, rest)) (width : w = 8 * n := by rfl) :
    ∃ e, i = mk e ∧ bs = toLe n e.toNat ++ rest := by
  obtain ⟨field, rfl, rfl, rfl⟩ := takeField_ok h
  have fits : le field < 2 ^ w := by rw [width, pow_mul]; exact le_lt field
  exact ⟨_, rfl, by rw [BitVec.toNat_ofNat, Nat.mod_eq_of_lt fits, toLe_le]⟩

end

/-- A little-endian value has its first byte lowest (20_memory R64). -/
theorem ofNat_le_cons (w : Nat) (b : Byte) (bs : List Byte) :
    BitVec.ofNat (w + 8) (le (b :: bs)) = BitVec.ofNat w (le bs) ++ b := by
  apply BitVec.eq_of_toNat_eq
  rw [toNat_append_mul, BitVec.toNat_ofNat, BitVec.toNat_ofNat, le, pow_add, Nat.mul_comm (2 ^ w), Nat.mod_mul]
  have := b.isLt
  rw [show (b.toNat + 256 * le bs) % 2 ^ 8 = b.toNat by omega, show (b.toNat + 256 * le bs) / 2 ^ 8 = le bs by omega]
  ring

theorem ofNat_le_singleton (b : Byte) : BitVec.ofNat 8 (le [b]) = b := by
  rw [le, le, Nat.mul_zero, Nat.add_zero, BitVec.ofNat_toNat, BitVec.setWidth_eq]

section
variable (b₀ b₁ b₂ b₃ : Byte) (rest : List Byte)

theorem takeField_one (mk : BitVec 8 → Instr) :
    takeField 1 (b₀ :: rest) (fun v => mk (BitVec.ofNat 8 v)) = .ok (mk b₀, rest) :=
  (takeField_append 1 [b₀] rest _ rfl).trans (by rw [ofNat_le_singleton])

theorem takeField_two (mk : BitVec 16 → Instr) :
    takeField 2 (b₀ :: b₁ :: rest) (fun v => mk (BitVec.ofNat 16 v)) = .ok (mk (b₁ ++ b₀), rest) :=
  (takeField_append 2 [b₀, b₁] rest _ rfl).trans (by rw [ofNat_le_cons 8, ofNat_le_singleton])

theorem takeField_three (mk : BitVec 24 → Instr) :
    takeField 3 (b₀ :: b₁ :: b₂ :: rest) (fun v => mk (BitVec.ofNat 24 v)) = .ok (mk (b₂ ++ b₁ ++ b₀), rest) :=
  (takeField_append 3 [b₀, b₁, b₂] rest _ rfl).trans (by rw [ofNat_le_cons 16, ofNat_le_cons 8, ofNat_le_singleton])

theorem takeField_four (mk : BitVec 32 → Instr) :
    takeField 4 (b₀ :: b₁ :: b₂ :: b₃ :: rest) (fun v => mk (BitVec.ofNat 32 v)) =
      .ok (mk (b₃ ++ b₂ ++ b₁ ++ b₀), rest) :=
  (takeField_append 4 [b₀, b₁, b₂, b₃] rest _ rfl).trans
    (by rw [ofNat_le_cons 24, ofNat_le_cons 16, ofNat_le_cons 8, ofNat_le_singleton])

end

end Sys2Proof
end

section
/-! Decoding and encoding undo each other in each of the three spaces (30_encoding R91 to R119). -/

namespace Sys2Proof.Machine

/-! ## From an instruction to its bytes and back -/

/-- A well-formed header fits the 32 bits the varint decoder accepts (40_varint R131, R134). -/
theorem decodeHeader_varintBytes {j : Nat} {v : Word32} (wf : (Instr.hdr j v).wf = true) (rest : List Byte) :
    decodeHeader (varintBytes j v.toNat ++ rest) = .ok (.hdr j v, rest) := by
  simp only [Instr.wf, Bool.and_eq_true, decide_eq_true_eq] at wf
  obtain ⟨⟨one, five⟩, fits⟩ := wf
  have high : 0 + j = 5 → v.toNat < 2 ^ (7 * j - 3) := fun last => by
    obtain rfl : j = 5 := by omega
    exact v.isLt
  have read := varintDecodeLoop_varintBytes j 0 0 v.toNat rest one fits (by omega) high
  rw [decodeHeader, varintDecode, read]
  simp

/-- Settles O1, by the form of the instruction: the tag's equation, then the field read back. -/
theorem encodedInstructionDecodesBack : Obligations.EncodedInstructionDecodesBack := by
  intro i rest wf
  cases i with
  | hdr j v => exact decodeHeader_varintBytes wf rest
  | lit m => exact decodeToken_lit rest (of_decide_eq_true wf)
  | litx1 e => exact (decodeToken_litx1 _).trans (takeField_toLe e rest .litx1)
  | litx2 e => exact (decodeToken_litx2 _).trans (takeField_toLe e rest .litx2)
  | litx3 e => exact (decodeToken_litx3 _).trans (takeField_toLe e rest .litx3)
  | litx4 e => exact (decodeToken_litx4 _).trans (takeField_toLe e rest .litx4)
  | copy1 l off =>
    obtain ⟨hi, lo, rfl⟩ := exists_eq_append (v := 3) (w := 8) off
    rw [encode, BitVec.extractLsb'_append_eq_left, BitVec.extractLsb'_append_eq_right]
    exact (decodeToken_copy1 _ hi l).trans (takeField_toLe lo rest fun b => .copy1 l (hi ++ b))
  | copy2 l off => exact (decodeToken_copy2 _ l).trans (takeField_toLe off rest (.copy2 l))
  | copy4 l off => exact (decodeToken_copy4 _ l).trans (takeField_toLe off rest (.copy4 l))
  | compress | uncompress | decompress | ulen | validate => rfl

/-! ## From bytes to an instruction and back -/

theorem decodeHeader_reencodes {bs rest : List Byte} {i : Instr} (dec : decodeHeader bs = .ok (i, rest)) :
    i.space = .header ∧ i.wf = true ∧ encode i ++ rest = bs := by
  obtain ⟨v, c, read, rfl⟩ := decodeHeader_ok dec
  obtain ⟨one, five, -, v32, consumed⟩ := varintDecode_bounds read
  obtain ⟨j, w, -, -, hc, groups, -, hv, -⟩ := varintDecodeLoop_ok (Nat.zero_le 4) read
  have fits : v < 2 ^ (7 * c) := by
    rw [hc, hv, Nat.zero_add, Nat.zero_add, Nat.mul_zero, pow_zero, Nat.mul_one]; exact groups
  have word : (BitVec.ofNat 32 v).toNat = v := by rw [BitVec.toNat_ofNat, Nat.mod_eq_of_lt v32]
  refine ⟨rfl, ?_, by rw [encode, word, consumed]⟩
  simp [Instr.wf, word, one, five, fits]

theorem decodeToken_reencodes {bs rest : List Byte} {i : Instr} (dec : decodeToken bs = .ok (i, rest)) :
    i.wf = true ∧ encode i ++ rest = bs := by
  cases bs with
  | nil => cases dec
  | cons t bs =>
    cases tagForm t with
    | lit m short =>
      rw [decodeToken_lit bs short] at dec
      cases dec
      exact ⟨decide_eq_true short, rfl⟩
    | litx1 => obtain ⟨e, rfl, rfl⟩ := exists_of_takeField .litx1 dec; exact ⟨rfl, rfl⟩
    | litx2 => obtain ⟨e, rfl, rfl⟩ := exists_of_takeField .litx2 dec; exact ⟨rfl, rfl⟩
    | litx3 => obtain ⟨e, rfl, rfl⟩ := exists_of_takeField .litx3 dec; exact ⟨rfl, rfl⟩
    | litx4 => obtain ⟨e, rfl, rfl⟩ := exists_of_takeField .litx4 dec; exact ⟨rfl, rfl⟩
    | copy1 hi l =>
      rw [decodeToken_copy1] at dec
      obtain ⟨lo, rfl, rfl⟩ := exists_of_takeField (fun lo : BitVec 8 => .copy1 l (hi ++ lo)) dec
      rw [encode, BitVec.extractLsb'_append_eq_left, BitVec.extractLsb'_append_eq_right]
      exact ⟨rfl, rfl⟩
    | copy2 l =>
      rw [decodeToken_copy2] at dec
      obtain ⟨off, rfl, rfl⟩ := exists_of_takeField (.copy2 l) dec
      exact ⟨rfl, rfl⟩
    | copy4 l =>
      rw [decodeToken_copy4] at dec
      obtain ⟨off, rfl, rfl⟩ := exists_of_takeField (.copy4 l) dec
      exact ⟨rfl, rfl⟩

/-- The commands by their codes (30_encoding R118); `DECOMPRESS` is not among them (R119). -/
theorem decodeCommand_ok {c : BitVec 3} {i : Instr} (dec : decodeCommand c = .ok i) :
    (c = 1 ∧ i = .compress) ∨ (c = 2 ∧ i = .uncompress) ∨ (c = 3 ∧ i = .ulen) ∨ (c = 4 ∧ i = .validate) := by
  unfold decodeCommand at dec
  split_ifs at dec with one two three four <;> cases dec
  · exact .inl ⟨one, rfl⟩
  · exact .inr (.inl ⟨two, rfl⟩)
  · exact .inr (.inr (.inl ⟨three, rfl⟩))
  · exact .inr (.inr (.inr ⟨four, rfl⟩))

theorem decodeCommand_reencodes {c : BitVec 3} {i : Instr} (dec : decodeCommand c = .ok i) :
    i.wf = true ∧ encode i = [c.setWidth 8] := by
  rcases decodeCommand_ok dec with ⟨rfl, rfl⟩ | ⟨rfl, rfl⟩ | ⟨rfl, rfl⟩ | ⟨rfl, rfl⟩ <;> exact ⟨rfl, rfl⟩

/-- A command is one byte that holds its code. -/
theorem decode_command_ok {bs rest : List Byte} {i : Instr} (dec : decode .command bs = .ok (i, rest)) :
    ∃ c : BitVec 3, bs = c.setWidth 8 :: rest ∧ decodeCommand c = .ok i := by
  cases bs with
  | nil => cases dec
  | cons b bs =>
    simp only [decode] at dec
    split_ifs at dec with code
    split at dec
    · rename_i read
      cases dec
      have byte : b = (b.extractLsb' 0 3).setWidth 8 := BitVec.eq_of_toNat_eq (by simp; omega)
      exact ⟨b.extractLsb' 0 3, by rw [← byte], read⟩
    · cases dec

/-- Settles O2, space by space. -/
theorem decodedInstructionReencodes : Obligations.DecodedInstructionReencodes := by
  intro sp bs rest i dec
  cases sp with
  | header => exact decodeHeader_reencodes dec
  | token => exact ⟨decodeToken_space dec, decodeToken_reencodes dec⟩
  | command =>
    obtain ⟨c, rfl, read⟩ := decode_command_ok dec
    obtain ⟨wf, bytes⟩ := decodeCommand_reencodes read
    exact ⟨decodeCommand_space read, wf, by rw [bytes]; rfl⟩

/-! ## The tag map and the words of the spec -/

/-- Settles O3: a tag of each range is of that form, and its field is the bytes after it. -/
theorem everyTagValueIsOneToken : Obligations.EveryTagValueIsOneToken := by
  intro t b₀ b₁ b₂ b₃ rest
  refine ⟨fun ⟨cls, atMost⟩ => ?_, fun value => ?_, fun value => ?_, fun value => ?_, fun value => ?_, fun cls => ?_,
    fun cls => ?_, fun cls => ?_⟩
  · obtain ⟨m, short, rfl⟩ := exists_litTag cls atMost
    exact ⟨m, by rw [toNat_append_mul]; omega, decodeToken_lit _ short⟩
  · obtain rfl : t = 0xF0#8 := BitVec.eq_of_toNat_eq value
    exact (decodeToken_litx1 _).trans (takeField_one b₀ _ .litx1)
  · obtain rfl : t = 0xF4#8 := BitVec.eq_of_toNat_eq value
    exact (decodeToken_litx2 _).trans (takeField_two b₀ b₁ _ .litx2)
  · obtain rfl : t = 0xF8#8 := BitVec.eq_of_toNat_eq value
    exact (decodeToken_litx3 _).trans (takeField_three b₀ b₁ b₂ _ .litx3)
  · obtain rfl : t = 0xFC#8 := BitVec.eq_of_toNat_eq value
    exact (decodeToken_litx4 _).trans (takeField_four b₀ b₁ b₂ b₃ _ .litx4)
  · obtain ⟨hi, l, rfl⟩ := exists_copy1Tag cls
    refine ⟨l, hi ++ b₀, ?_, ?_, (decodeToken_copy1 _ hi l).trans (takeField_one b₀ _ fun lo => .copy1 l (hi ++ lo))⟩
    · rw [toNat_append_mul, toNat_append_mul]; omega
    · simp only [toNat_append_mul]; omega
  · obtain ⟨l, rfl⟩ := exists_tag_of_class 2#2 cls
    exact ⟨l, by rw [toNat_append_mul]; omega, (decodeToken_copy2 _ l).trans (takeField_two b₀ b₁ _ (.copy2 l))⟩
  · obtain ⟨l, rfl⟩ := exists_tag_of_class 3#2 cls
    exact ⟨l, by rw [toNat_append_mul]; omega, (decodeToken_copy4 _ l).trans (takeField_four b₀ b₁ b₂ b₃ _ (.copy4 l))⟩

/-- Settles O4: the decoders run on the words. -/
theorem specWordsDecode : Obligations.SpecWordsDecode := by
  unfold Obligations.SpecWordsDecode
  decide

end Sys2Proof.Machine
end

section
/-! `VarintEncode` writes the fewest bytes (40_varint R130, 30_encoding R92). -/

namespace Sys2Proof.Machine

/-- The loop writes a varint of `j` bytes when the value fits those and no fewer. -/
theorem varintEncodeLoop_eq_varintBytes {fuel j v : Nat} (enough : j ≤ fuel) (fits : v < 2 ^ (7 * (j + 1)))
    (needed : j ≠ 0 → 2 ^ (7 * j) ≤ v) : varintEncodeLoop fuel v = varintBytes (j + 1) v := by
  induction j generalizing fuel v with
  | zero =>
    have small : v < 128 := fits
    rw [varintBytes, Nat.mod_eq_of_lt small]
    cases fuel with
    | zero => rfl
    | succ fuel => rw [varintEncodeLoop, if_neg (by omega)]
  | succ j ih =>
    obtain ⟨fuel, rfl⟩ : ∃ f, fuel = f + 1 := ⟨fuel - 1, by omega⟩
    have group (k : Nat) : 2 ^ (7 * (k + 1)) = 2 ^ (7 * k) * 128 := by rw [Nat.mul_succ, pow_add]; rfl
    have low := needed (Nat.succ_ne_zero j)
    rw [group] at low fits
    have continued : 128 ≤ v := (Nat.le_mul_of_pos_left 128 (Nat.two_pow_pos _)).trans low
    rw [varintEncodeLoop, if_pos continued, varintBytes, ih (by omega) (Nat.div_lt_of_lt_mul (by omega)) fun _ => ?_]
    exact (Nat.le_div_iff_mul_le (by omega)).mpr low

/-- The tabulated size is the least number of 7-bit groups that hold the value (30_encoding R92). -/
theorem varintSize_le_iff {v j : Nat} (word : v < 2 ^ 32) (pos : 1 ≤ j) : varintSize v ≤ j ↔ v < 2 ^ (7 * j) := by
  unfold varintSize
  rcases Nat.lt_or_ge j 5 with short | long
  · interval_cases j <;> split_ifs <;> omega
  · have fits : v < 2 ^ (7 * j) := word.trans_le (Nat.pow_le_pow_right (by omega) (by omega))
    split_ifs <;> simp only [fits, iff_true] <;> omega

theorem varintSize_pos (v : Nat) : 1 ≤ varintSize v := by
  unfold varintSize
  split_ifs <;> omega

theorem varintEncode_eq_varintBytes {v : Nat} (word : v < 2 ^ 32) : varintEncode v = varintBytes (varintSize v) v := by
  obtain ⟨j, size⟩ : ∃ j, varintSize v = j + 1 := ⟨varintSize v - 1, by have := varintSize_pos v; omega⟩
  have five : varintSize v ≤ 5 := (varintSize_le_iff word (by omega)).mpr (word.trans (by omega))
  rw [size]
  refine varintEncodeLoop_eq_varintBytes (by omega) ((varintSize_le_iff word (by omega)).mp size.le) fun more => ?_
  exact Nat.le_of_not_lt fun small => absurd ((varintSize_le_iff word (by omega)).mpr small) (by omega)

/-- Settles O5: the encoder writes the tabulated size, which is the least. -/
theorem varintEncodingIsMinimal : Obligations.VarintEncodingIsMinimal := by
  intro v word
  have bytes := varintEncode_eq_varintBytes word
  refine ⟨by rw [bytes, length_varintBytes], ?_, fun j pos => (varintSize_le_iff word pos).symm⟩
  rw [bytes, encode, BitVec.toNat_ofNat, Nat.mod_eq_of_lt word]

end Sys2Proof.Machine
end

section
/-! The command codes that launch nothing, and the code two mnemonics share (30_encoding R119, R120; 70_reset R316). -/

namespace Sys2Proof.Machine

theorem decodeCommand_reserved {c : BitVec 3} (reserved : c = 0 ∨ c = 5 ∨ c = 6 ∨ c = 7) :
    decodeCommand c = .error .reservedCommand := by
  rcases reserved with rfl | rfl | rfl | rfl <;> rfl

theorem State.commandWrite_busy {s : State} (busy : s.status.state = .busy) (c : BitVec 3) :
    s.commandWrite c = .next s := if_pos busy

theorem State.commandWrite_rejected {s : State} {c : BitVec 3} {e : DecodeError} (dec : decodeCommand c = .error e) :
    s.commandWrite c = .next s := by
  rw [State.commandWrite, dec, ite_self]

/-- Settles O13: a write while `BUSY`, and a write of a reserved code. -/
theorem ignoredCommandWriteChangesNothing : Obligations.IgnoredCommandWriteChangesNothing := by
  intro s c ms move ignored
  rw [step_of_move move, State.hostStep]
  rcases ignored with busy | reserved
  · exact State.commandWrite_busy (s := { s with host := ms }) busy c
  · exact State.commandWrite_rejected (decodeCommand_reserved reserved)

/-- Settles O17: one meaning and one encoding; the four codes have other instructions. -/
theorem decompressIsUncompress : Obligations.DecompressIsUncompress := by
  refine ⟨fun _ => rfl, rfl, rfl, fun c dec => ?_⟩
  rcases decodeCommand_ok dec with ⟨-, other⟩ | ⟨-, other⟩ | ⟨-, other⟩ | ⟨-, other⟩ <;> cases other

end Sys2Proof.Machine
end

section
/-! `VarintDecode(0)` byte by byte: continuation bytes, then the byte that ends the header or fails a check (40_varint
R131, R133, R135). -/

namespace Sys2Proof.Machine

/-! ## One byte of the loop -/

section
variable {vk vv : Nat} {b : Byte} (bs : List Byte)

/-- The group of a continuation byte is its low-order seven bits. -/
theorem varintDecodeLoop_continue (early : vk < 4) (continued : 128 ≤ b.toNat) :
    varintDecodeLoop vk vv (b :: bs) = varintDecodeLoop (vk + 1) (vv + b.toNat % 128 * 2 ^ (7 * vk)) bs := by
  have group : b.toNat - 128 = b.toNat % 128 := by have := b.isLt; omega
  rw [varintDecodeLoop, if_neg (by omega), if_neg (by omega), if_neg (by omega), group]

theorem varintDecodeLoop_last (last : b.toNat < 128) (fits : vk = 4 → b.toNat < 16) :
    varintDecodeLoop vk vv (b :: bs) = .ok (vv + b.toNat % 128 * 2 ^ (7 * vk), vk + 1, bs) := by
  rw [varintDecodeLoop, if_neg (by omega), if_neg fun ⟨fifth, high⟩ => absurd (fits fifth) (Nat.not_lt.mpr high),
    if_pos last, Nat.mod_eq_of_lt last]

theorem varintDecodeLoop_tooLong (continued : 128 ≤ b.toNat) :
    varintDecodeLoop 4 vv (b :: bs) = .error .varintTooLong := by
  rw [varintDecodeLoop, if_pos ⟨rfl, continued⟩]

theorem varintDecodeLoop_overflow (last : b.toNat < 128) (high : 16 ≤ b.toNat) :
    varintDecodeLoop 4 vv (b :: bs) = .error .varintOverflow := by
  rw [varintDecodeLoop, if_neg (by omega), if_pos ⟨rfl, high⟩]

end

/-! ## The header of an input -/

/-- The value of the first `n` groups of the header (40_varint R131). -/
def State.headerGroups (s : State) (n : Nat) : Nat :=
  ((List.range n).map fun a => (s.ibufByte a).toNat % 128 * 2 ^ (7 * a)).sum

theorem State.headerGroups_succ (s : State) (n : Nat) :
    s.headerGroups (n + 1) = s.headerGroups n + (s.ibufByte n).toNat % 128 * 2 ^ (7 * n) := by
  simp [State.headerGroups, List.range_succ]

/-- The loop passes the continuation bytes before the fifth byte and keeps their groups. -/
theorem State.varintDecode_ibufRange {s : State} {j : Nat} (early : j < 5)
    (continued : ∀ a < j, 128 ≤ (s.ibufByte a).toNat) (n : Nat) :
    varintDecode (s.ibufRange 0 (j + n)) = varintDecodeLoop j (s.headerGroups j) (s.ibufRange j n) := by
  induction j generalizing n with
  | zero => rw [Nat.zero_add]; rfl
  | succ j ih =>
    rw [Nat.add_assoc, Nat.add_comm 1 n, ih (by omega) (fun a below => continued a (by omega)), s.ibufRange_succ,
      varintDecodeLoop_continue _ (by omega) (continued j (by omega)), s.headerGroups_succ]

/-- Only continuation bytes before the end of the input: the loop runs out of bytes. -/
theorem State.varintDecode_truncated {s : State} (early : s.ilen.toNat < 5)
    (continued : ∀ a < s.ilen.toNat, 128 ≤ (s.ibufByte a).toNat) :
    varintDecode s.headerBytes = .error .varintTruncated := by
  rw [State.headerBytes, Nat.min_eq_right early.le]
  exact State.varintDecode_ibufRange early continued 0

/-- Continuation bytes and then one more byte: the header's outcome is the loop's from that byte on. -/
theorem State.varintDecode_headerBytes {s : State} {j : Nat} (early : j < 5) (inInput : j < s.ilen.toNat)
    (continued : ∀ a < j, 128 ≤ (s.ibufByte a).toNat) :
    ∃ rest, varintDecode s.headerBytes = varintDecodeLoop j (s.headerGroups j) (s.ibufByte j :: rest) := by
  obtain ⟨n, length⟩ : ∃ n, min 5 s.ilen.toNat = j + (n + 1) := ⟨min 5 s.ilen.toNat - (j + 1), by omega⟩
  exact ⟨s.ibufRange (j + 1) n, by
    rw [State.headerBytes, length, State.varintDecode_ibufRange early continued, s.ibufRange_succ]⟩

/-- Settles O7: the loop passes the continuation bytes, and the byte after them, if there is one, decides. -/
theorem varintDecodeResult : Obligations.VarintDecodeResult := by
  intro s j _ _ continued
  refine ⟨fun early ends => ?_, ?_, ?_, fun early inInput last fits => ?_⟩
  · subst ends
    exact State.varintDecode_truncated early continued
  · rintro rfl
    obtain ⟨rest, read⟩ := State.varintDecode_headerBytes (s := s) (j := 4) (by omega) (by omega)
      fun a below => continued a (by omega)
    exact read.trans (varintDecodeLoop_tooLong rest (continued 4 (by omega)))
  · rintro rfl inInput last high
    obtain ⟨rest, read⟩ := State.varintDecode_headerBytes (by omega) inInput continued
    exact read.trans (varintDecodeLoop_overflow rest last high)
  · obtain ⟨rest, read⟩ := State.varintDecode_headerBytes early inInput continued
    rw [varintDecodeLoop_last rest last fits, ← s.headerGroups_succ] at read
    obtain ⟨-, -, -, word, -⟩ := varintDecode_bounds read
    exact ⟨_, rest, read, word, rfl⟩

/-! ## Reading back what the encoder wrote -/

/-- The bytes a header fetch reads are the operand's first five. -/
theorem State.headerBytes_eq_take (s : State) : s.headerBytes = s.input.take 5 :=
  (s.take_ibufRange 0 5 s.ilen.toNat).symm

/-- What `VarintEncode` wrote reads back, whatever follows it (40_varint R135). -/
theorem varintDecode_varintEncode {v : Nat} (word : v < 2 ^ 32) (rest : List Byte) :
    varintDecode (varintEncode v ++ rest) = .ok (v, (varintEncode v).length, rest) := by
  obtain ⟨size, -, least⟩ := varintEncodingIsMinimal v word
  have five : varintSize v ≤ 5 := size ▸ length_varintEncode_le v
  have high : 0 + varintSize v = 5 → v < 2 ^ (7 * varintSize v - 3) := fun last => by
    rw [← Nat.zero_add (varintSize v), last]; exact word
  have read := varintDecodeLoop_varintBytes (varintSize v) 0 0 v rest (varintSize_pos v)
    ((least _ (varintSize_pos v)).mpr le_rfl) (by omega) high
  rw [size, varintEncode_eq_varintBytes word, varintDecode, read]
  simp

/-- Settles O6: a header has at most five bytes, so the fetch reads it whole. -/
theorem varintReadsBackFromInput : Obligations.VarintReadsBackFromInput := by
  intro s v rest word input
  obtain ⟨size, -, -⟩ := varintEncodingIsMinimal v word
  have whole : s.headerBytes = varintEncode v ++ rest.take (5 - (varintEncode v).length) := by
    rw [s.headerBytes_eq_take, input, List.take_append, List.take_of_length_le (length_varintEncode_le v)]
  exact ⟨size, _, whole ▸ varintDecode_varintEncode word _⟩

end Sys2Proof.Machine
end

section
/-! The header instruction and the rejected fetches (40_varint R131, R136; 43_decoder R203 to R209; 60_exceptions
R262). -/

namespace Sys2Proof.Machine

theorem exec_hdr_of_le {s : State} {j : Nat} (v : Word32) (inInput : j ≤ s.ilen.toNat) :
    exec (.hdr j v) s = .next { s with
      dec := { s.dec with ulen := v.toNat, ip := j, op := 0 }, vc := { vv := v.toNat, vk := j - 1 }
      activity := .tokens } :=
  congrArg Host.Outcome.next (if_pos inInput)

theorem exec_hdr_of_lt {s : State} {j : Nat} (v : Word32) (past : s.ilen.toNat < j) :
    exec (.hdr j v) s = .next (s.malformed .varintTruncated) :=
  congrArg Host.Outcome.next (if_neg (Nat.not_le.mpr past))

/-- Settles O21: the two branches of `HDR`. -/
theorem headerSetsTheCursors : Obligations.HeaderSetsTheCursors := by
  intro s j v
  refine ⟨fun inInput => ⟨_, exec_hdr_of_le v inInput, rfl, rfl, rfl⟩,
    fun past => ⟨_, exec_hdr_of_lt v past, s.malformed_raised _, ?_⟩⟩
  rw [s.malformed_vc]
  exact s.malformed_eq _

theorem step_headerRejected {s : State} {e : DecodeError} (quiet : s.host = []) (busy : s.status.state = .busy)
    (act : s.activity = .header) (dec : decodeHeader s.headerBytes = .error e) :
    step s = .next (s.malformed (causeOf e)) := by
  rw [step_header quiet busy act, State.runDecoded_error dec]

/-- Settles O11: a rejected header raises the cause of its rejection, a rejected token is one whose fields are cut. -/
theorem rejectedFetchRaisesItsCause : Obligations.RejectedFetchRaisesItsCause := by
  intro s e quiet busy
  refine ⟨fun act dec => ⟨_, step_headerRejected quiet busy act dec, s.malformed_obuf _, ?_⟩,
    fun act more dec => ⟨_, (CoreStep.tokenRejected act more dec).step quiet busy, s.loadTag.malformed_raised _,
      s.loadTag.malformed_obuf _⟩⟩
  rcases decodeHeader_error dec with rfl | rfl | rfl
  · exact .inl ⟨rfl, s.malformed_raised _⟩
  · exact .inr (.inl ⟨rfl, s.malformed_raised _⟩)
  · exact .inr (.inr ⟨rfl, s.malformed_raised _⟩)

end Sys2Proof.Machine
end

section
/-! The match finder's table size, its table and the run of equal bytes it reports (41_matchfinder R153 to R162). -/

namespace Sys2Proof.Machine

/-! ## The table size (R153) -/

/-- With fuel up to the upper bound, the loop stops short of it only at a size that holds `n`. -/
theorem le_two_pow_kbitsLoop {P : Params} {n fuel k : Nat} (enough : P.htMaxBits ≤ k + fuel)
    (short : kbitsLoop P n fuel k < P.htMaxBits) : n ≤ 2 ^ kbitsLoop P n fuel k := by
  induction fuel generalizing k with
  | zero => exact absurd short (Nat.not_lt.mpr enough)
  | succ fuel ih =>
    rw [kbitsLoop] at short ⊢
    split_ifs at short ⊢ with more
    · exact ih (by omega) short
    · exact Nat.not_lt.mp fun tooSmall => more ⟨short, tooSmall⟩

/-- The loop passes over a size only if it is too small. -/
theorem two_pow_lt_of_lt_kbitsLoop {P : Params} {n fuel k j : Nat} (start : k ≤ j)
    (passed : j < kbitsLoop P n fuel k) : 2 ^ j < n := by
  induction fuel generalizing k with
  | zero => exact absurd passed (Nat.not_lt.mpr start)
  | succ fuel ih =>
    rw [kbitsLoop] at passed
    split_ifs at passed with more
    · rcases Nat.eq_or_lt_of_le start with rfl | later
      · exact more.2
      · exact ih later passed
    · exact absurd passed (Nat.not_lt.mpr start)

/-- Settles O38: the loop stays within the bounds, passes over sizes that are too small only, and has the fuel to reach
the upper bound. -/
theorem kbitsIsTheLeastFit : Obligations.KbitsIsTheLeastFit := by
  intro P n ok
  obtain ⟨low, high⟩ := kbits_bounds ok n
  have enough : P.htMaxBits ≤ P.htMinBits + (P.htMaxBits - P.htMinBits) := by omega
  exact ⟨low, high, le_two_pow_kbitsLoop enough, fun _ => two_pow_lt_of_lt_kbitsLoop⟩

/-! ## The table (R155 to R157) -/

/-- Settles O39: the registers and the table of a probe, and its frame. -/
theorem probeReadsBeforeItWrites : Obligations.ProbeReadsBeforeItWrites := by
  intro P s h
  have table : (s.probe P).ht = Cells.write s.ht h s.enc.cur := congrArg State.ht (s.probe_eq P)
  have enc := congrArg State.enc (s.probe_eq P)
  refine ⟨congrArg EncoderRegs.h enc, congrArg EncoderRegs.cand enc, fun j => ?_, State.probe_mlen_of_none, ?_, enc⟩
  · rw [table, Cells.lookup_write]
  · rw [s.probe_eq P]

/-! ## The run of equal bytes (R156, R162) -/

theorem eq_of_lt_commonRun {rd : Nat → Byte} {bound c p i : Nat} (inside : i < commonRun rd bound c p) :
    rd (c + i) = rd (p + i) := by
  induction bound generalizing c p i with
  | zero => exact absurd inside (Nat.not_lt_zero i)
  | succ bound ih =>
    rw [commonRun] at inside
    split_ifs at inside with same
    · cases i with
      | zero => exact same
      | succ i => simpa [Nat.add_assoc, Nat.add_comm 1 i] using ih (Nat.lt_of_succ_lt_succ inside)
    · exact absurd inside (Nat.not_lt_zero i)

/-- A run that ends before its bound ends at two bytes that differ. -/
theorem ne_at_commonRun {rd : Nat → Byte} {bound c p : Nat} (short : commonRun rd bound c p < bound) :
    rd (c + commonRun rd bound c p) ≠ rd (p + commonRun rd bound c p) := by
  induction bound generalizing c p with
  | zero => exact absurd short (Nat.not_lt_zero _)
  | succ bound ih =>
    rw [commonRun] at short ⊢
    split_ifs at short ⊢ with same
    · simpa [Nat.add_assoc, Nat.add_comm 1] using ih (Nat.lt_of_succ_lt_succ short)
    · exact same

/-- Settles O40: the distance of the match points back into the run at the candidate. -/
theorem probeFindsTheLongestRun : Obligations.ProbeFindsTheLongestRun := by
  intro P s c inInput behind entry
  obtain ⟨mlen, dist⟩ := State.probe_of_some entry
  have bound := s.probe_mlen_le P
  have source (i : Nat) : s.enc.cur + i - (s.probe P).enc.dist = c + i := by omega
  refine ⟨dist, by omega, by omega, by omega, fun i inRun => ?_, fun before => ?_⟩
  · rw [source]
    exact (eq_of_lt_commonRun (mlen ▸ inRun)).symm
  · have short : (s.probe P).enc.mlen < s.enc.n - s.enc.cur := by omega
    rw [source, mlen]
    rw [mlen] at short
    exact (ne_at_commonRun short).symm

end Sys2Proof.Machine
end

section
/-! The forms the encoder picks for its tokens: which literal form for a length, which copy class for an offset and a
length, and that no other form that holds them is shorter (42_encoder R180 to R182, 30_encoding R107). -/

namespace Sys2Proof.Machine

/-! ## The bytes of a form -/

/-- A literal's encoding is its tag and its escape bytes (30_encoding R97 to R101). -/
theorem length_encode_of_literalForm {i : Instr} {f len : Nat} (form : literalForm i = some (f, len)) :
    (encode i).length = 1 + f := by
  cases i with
  | lit | litx1 | litx2 | litx3 | litx4 =>
    simp only [literalForm, Option.some.injEq, Prod.mk.injEq] at form
    simp [encode, ← form.1]
  | _ => cases form

/-- A copy's encoding is its tag and its offset bytes (30_encoding R102 to R104). -/
theorem length_encode_of_copyForm {i : Instr} {w len off : Nat} (form : copyForm i = some (w, len, off)) :
    (encode i).length = 1 + w := by
  cases i with
  | copy1 | copy2 | copy4 =>
    simp only [copyForm, Option.some.injEq, Prod.mk.injEq] at form
    simp [encode, ← form.1]
  | _ => cases form

/-- A token's tag and fields are one to five bytes (30_encoding R105). -/
theorem length_encode_of_token {i : Instr} (tok : i.space = .token) :
    1 ≤ (encode i).length ∧ (encode i).length ≤ 5 := by
  rcases token_form tok with ⟨f, len, form, -, most⟩ | ⟨w, len, off, form, -, -, most⟩
  · rw [length_encode_of_literalForm form]; omega
  · rw [length_encode_of_copyForm form]; omega

/-! ## Literals (R180) -/

/-- The number of escape bytes of the literal the encoder picks for a length (42_encoder R180). -/
def literalFields (L : Nat) : Nat :=
  if L ≤ 60 then 0 else if L - 1 < 2 ^ 8 then 1 else if L - 1 < 2 ^ 16 then 2 else if L - 1 < 2 ^ 24 then 3 else 4

theorem literalForm_literalInstr {L : Nat} (pos : 1 ≤ L) (le : L ≤ 2 ^ 32) :
    literalForm (literalInstr L) = some (literalFields L, L) := by
  unfold literalInstr literalFields
  split_ifs <;> simp only [literalForm, BitVec.toNat_ofNat, Option.some.injEq, Prod.mk.injEq, true_and] <;> omega

theorem literalInstr_wf {L : Nat} (pos : 1 ≤ L) : (literalInstr L).wf = true := by
  unfold literalInstr
  split_ifs with inline
  · simp only [Instr.wf, BitVec.toNat_ofNat, decide_eq_true_eq]; omega
  all_goals rfl

/-- A well-formed literal with fewer escape bytes cannot hold the length. -/
theorem literalFields_le {i : Instr} {f L : Nat} (wf : i.wf = true) (form : literalForm i = some (f, L)) :
    literalFields L ≤ f := by
  unfold literalFields
  cases i with
  | lit m =>
    have short : m.toNat ≤ 59 := of_decide_eq_true wf
    simp only [literalForm, Option.some.injEq, Prod.mk.injEq] at form
    rw [if_pos (by omega)]; omega
  | litx1 | litx2 | litx3 | litx4 =>
    simp only [literalForm, Option.some.injEq, Prod.mk.injEq] at form
    split_ifs <;> omega
  | _ => cases form

/-- Settles O41: the escape bytes picked are the fewest that hold the length. -/
theorem literalFormIsShortest : Obligations.LiteralFormIsShortest := by
  intro L pos le
  have picked := literalForm_literalInstr pos le
  refine ⟨literalInstr_wf pos, ⟨_, picked⟩, fun i f wf form => ?_⟩
  rw [length_encode_of_literalForm picked, length_encode_of_literalForm form]
  exact Nat.add_le_add_left (literalFields_le wf form) 1

/-! ## Copies (R182) -/

/-- The number of offset bytes of the copy the encoder picks (42_encoder R182). -/
def copyFields (off l : Nat) : Nat := if 4 ≤ l ∧ l ≤ 11 ∧ off ≤ 2047 then 1 else if off ≤ 65535 then 2 else 4

theorem copyForm_copyInstr {off l : Nat} (word : off < 2 ^ 32) (pos : 1 ≤ l) (le : l ≤ 64) :
    copyForm (copyInstr off l) = some (copyFields off l, l, off) := by
  unfold copyInstr copyFields
  split_ifs <;> simp only [copyForm, BitVec.toNat_ofNat, Option.some.injEq, Prod.mk.injEq, true_and] <;> omega

/-- A copy class with fewer offset bytes cannot hold both fields. -/
theorem copyFields_le {i : Instr} {w l off : Nat} (form : copyForm i = some (w, l, off)) : copyFields off l ≤ w := by
  unfold copyFields
  cases i with
  | copy1 | copy2 | copy4 =>
    simp only [copyForm, Option.some.injEq, Prod.mk.injEq] at form
    split_ifs <;> omega
  | _ => cases form

/-- Settles O42: the offset bytes picked are the fewest that hold both fields. -/
theorem copyClassIsShortest : Obligations.CopyClassIsShortest := by
  intro off l _ word pos le
  have picked := copyForm_copyInstr word pos le
  refine ⟨⟨_, picked⟩, fun i w form => ?_⟩
  rw [length_encode_of_copyForm picked, length_encode_of_copyForm form]
  exact Nat.add_le_add_left (copyFields_le form) 1

/-! ## The copies of a match (R181) -/

/-- With enough pieces allowed the loop takes pieces of 64 until at most 64 bytes are left. -/
theorem matchInstrsLoop_eq (off : Nat) {fuel L : Nat} (pos : 1 ≤ L) (enough : L ≤ 64 * (fuel + 1)) :
    ∃ q r, L = 64 * q + r ∧ 1 ≤ r ∧ r ≤ 64 ∧
      matchInstrsLoop off fuel L = List.replicate q (copyInstr off 64) ++ [copyInstr off r] := by
  induction fuel generalizing L with
  | zero => exact ⟨0, L, by omega, pos, by omega, rfl⟩
  | succ fuel ih =>
    rw [matchInstrsLoop]
    split_ifs with long
    · obtain ⟨q, r, split, one, most, rest⟩ := ih (L := L - 64) (by omega) (by omega)
      exact ⟨q + 1, r, by omega, one, most, by rw [rest]; rfl⟩
    · exact ⟨0, L, by omega, pos, by omega, rfl⟩

/-- Settles O43: the loop may take as many pieces as there are. -/
theorem matchSplitsIntoCopies : Obligations.MatchSplitsIntoCopies :=
  fun off _ _ _ pos => matchInstrsLoop_eq off pos (by omega)

end Sys2Proof.Machine
end

section
/-! The steps of the encoder and what each writes: a probe without a match, a match, the end of the input (42_encoder R170
to R179, R184). -/

namespace Sys2Proof.Machine

/-- Settles O19: the launch raises before anything is initialised. -/
theorem oversizedInputIsTooLarge : Obligations.OversizedInputIsTooLarge := by
  intro s waiting large
  rcases s.beginCommand.startCompress_cases Config.params with ⟨small, -⟩ | ⟨-, raised⟩
  · exact absurd small (Nat.not_le.mpr large)
  · rw [exec_command rfl waiting, commandBody, raised]; rfl

/-! ## Appending to the output (R172) -/

section
variable (s : State)

theorem State.put_put (as bs : List Byte) : (s.put as).put bs = s.put (as ++ bs) := by
  simp only [State.put, Cells.writeAll_append, List.length_append, Nat.add_assoc]

theorem State.put_obufByte_inside {bs : List Byte} {j : Nat} (inside : j < bs.length) :
    (s.put bs).obufByte (s.enc.wp + j) = bs[j] := by
  rw [State.obufByte, State.put_obuf, obufRead_writeAll, if_pos (Nat.le_add_right _ _), Nat.add_sub_cancel_left,
    List.getElem?_eq_getElem inside, Option.getD_some]

theorem State.put_obufByte_outside {bs : List Byte} {a : Nat} (outside : a < s.enc.wp ∨ s.enc.wp + bs.length ≤ a) :
    (s.put bs).obufByte a = s.obufByte a := by
  rw [State.obufByte, State.put_obuf, obufRead_writeAll]
  split_ifs with low
  · rw [List.getElem?_eq_none (by omega)]; rfl
  · rfl

/-! ## The tokens of a step (R175, R177) -/

/-- The literal of the input bytes from one position up to another, and nothing if there are none (42_encoder R175,
R177). -/
def State.literalBytes (start stop : Nat) : List Byte :=
  if start < stop then encode (literalInstr (stop - start)) ++ s.ibufRange start (stop - start) else []

/-- What a match appends: the pending literal, if any, and then the copies (42_encoder R177). -/
def State.matchBytes : List Byte :=
  s.literalBytes s.enc.lit s.enc.cur ++ (matchInstrs s.enc.dist s.enc.mlen).flatMap encode

theorem State.emitMatch_eq_put : s.emitMatch = s.put s.matchBytes := by
  rw [State.matchBytes, ← State.put_put, State.emitMatch, State.literalBytes]
  split <;> rfl

theorem State.endOfInput_eq_put :
    s.endOfInput = { s.put (s.literalBytes s.enc.lit s.enc.n) with
      enc := { (s.put (s.literalBytes s.enc.lit s.enc.n)).enc with lit := s.enc.n, est := .done } } := by
  rw [State.endOfInput, State.literalBytes]
  split <;> rfl

end

/-! ## The three kinds of step -/

section
variable {P : Params} {s : State}

theorem State.encoderStep_scanning (est : s.enc.est = .scanning) : s.encoderStep P = .next (s.scanStep P) := by
  rw [State.encoderStep, est]

theorem State.encoderStep_done (est : s.enc.est = .done) : s.encoderStep P = .next s.completeCompress := by
  rw [State.encoderStep, est]

end

/-- Settles O44: a shift is a division by a power of two. -/
theorem missStepWidensTheStride : Obligations.MissStepWidensTheStride := by
  intro P s est more missed
  refine ⟨(s.probe P).missStep P, ?_, ?_, State.probe_lit, State.probe_est.trans est, ?_⟩
  · rw [State.encoderStep_scanning est, State.scanStep_miss more missed]
  · rw [State.missStep, s.probe_eq P]
  · cases shift : P.skipShift <;> simp [stride, shift, Nat.shiftRight_eq_div_pow]

/-- Settles O45: the tokens of the match are one run of bytes appended to the output. -/
theorem matchStepEmitsLiteralThenCopies : Obligations.MatchStepEmitsLiteralThenCopies := by
  intro P s est more found p bs
  have tokens : (s.probe P).emitMatch = (s.probe P).put bs := by
    rw [State.emitMatch_eq_put, s.probe_eq P]; rfl
  refine ⟨(s.probe P).matchStep, ?_, ?_, ?_, fun j inside => ?_, fun a outside => ?_⟩
  · rw [State.encoderStep_scanning est, State.scanStep_match more found]
  · rw [State.matchStep, tokens, s.probe_eq P]; rfl
  · simp only [State.matchStep, tokens, State.put_enc, State.probe_cur, State.probe_wp, p]
  · rw [State.matchStep, tokens, s.probe_eq P]
    exact s.put_obufByte_inside inside
  · rw [State.matchStep, tokens, s.probe_eq P]
    exact s.put_obufByte_outside outside

/-- Settles O46: the trailing literal is appended, and the next step only completes the command. -/
theorem endOfInputEmitsTheRest : Obligations.EndOfInputEmitsTheRest := by
  intro P s est last bs
  rw [State.encoderStep_scanning est, State.scanStep_end last, s.endOfInput_eq_put]
  exact ⟨_, rfl, rfl, rfl, fun j => s.put_obufByte_inside, fun a => s.put_obufByte_outside,
    State.encoderStep_done rfl⟩

end Sys2Proof.Machine
end

section
/-! The run of `COMPRESS`: what stands in the output after each step, and that the run ends (42_encoder R170 to R186). -/

namespace Sys2Proof.Machine

/-! ## Runs from end to end -/

theorem steps_add {j : Nat} {s t : State} (first : steps j s = .next t) (k : Nat) : steps (j + k) s = steps k t := by
  induction j generalizing s with
  | zero => cases first; rw [Nat.zero_add]
  | succ j ih =>
    rw [steps] at first
    split at first
    · rename_i s' one
      rw [Nat.add_right_comm, steps, one]; exact ih first
    all_goals cases first

theorem steps_one {s t : State} (one : step s = .next t) : steps 1 s = .next t := by rw [steps, one]; rfl

/-! ## The output so far -/

/-- The bytes the encoder has written: `OBUF[0 .. wp-1]` (42_encoder R172). -/
def State.written (s : State) : List Byte := (List.range s.enc.wp).map s.obufByte

theorem State.written_put (s : State) (bs : List Byte) : (s.put bs).written = s.written ++ bs := by
  have before : (List.range s.enc.wp).map (s.put bs).obufByte = s.written :=
    List.map_congr_left fun a ha => s.put_obufByte_outside (.inl (List.mem_range.mp ha))
  have after : (List.range bs.length).map (fun j => (s.put bs).obufByte (s.enc.wp + j)) = bs :=
    List.ext_getElem (by simp) fun j _ inside => by simpa using s.put_obufByte_inside inside
  rw [State.written, State.put_enc, List.range_add, List.map_append, List.map_map, before]
  exact congrArg _ after

/-- A step of the encoder appends to the output. -/
theorem State.written_matchStep (s : State) : s.matchStep.written = s.written ++ s.matchBytes := by
  rw [← s.written_put, ← s.emitMatch_eq_put]; rfl

theorem State.written_endOfInput (s : State) :
    s.endOfInput.written = s.written ++ s.literalBytes s.enc.lit s.enc.n := by
  rw [← s.written_put, s.endOfInput_eq_put]; rfl

theorem State.written_probe (P : Params) (s : State) : (s.probe P).written = s.written := by rw [s.probe_eq P]; rfl

theorem State.written_missStep (P : Params) (s : State) : (s.missStep P).written = s.written := rfl

theorem State.written_beginEncode (P : Params) (s : State) :
    (s.beginEncode P).written = varintEncode s.ilen.toNat := by
  rw [s.beginEncode_eq, State.written_put]; rfl

theorem State.output_completeCompress {s : State} (word : s.enc.wp < 2 ^ 64) :
    s.completeCompress.output = s.written := by
  rw [State.output, State.completeCompress_olen, BitVec.toNat_ofNat, Nat.mod_eq_of_lt word]; rfl

/-! ## What the encoder writes (R172, R175, R177) -/

/-- `Emitted s lit bs`: from the operand of `s` the encoder can have written `bs` for the first `lit` bytes: the header,
and for each match the pending literal and the copies of a run that repeats itself at the distance. -/
inductive Emitted (s : State) : Nat → List Byte → Prop
  | header : Emitted s 0 (varintEncode s.ilen.toNat)
  | matched {lit cur mlen dist : Nat} {bs : List Byte} (before : Emitted s lit bs) (pending : lit ≤ cur)
      (found : 4 ≤ mlen) (inInput : cur + mlen ≤ s.ilen.toNat) (pos : 1 ≤ dist) (back : dist ≤ cur)
      (repeats : ∀ i < mlen, s.ibufByte (cur + i) = s.ibufByte (cur + i - dist)) :
      Emitted s (cur + mlen) (bs ++ (s.literalBytes lit cur ++ (matchInstrs dist mlen).flatMap encode))

/-- `EmittedAll s bs`: the encoder can have written `bs` for the whole operand of `s`, the trailing literal at the end. -/
inductive EmittedAll (s : State) : List Byte → Prop
  | trailing {lit : Nat} {bs : List Byte} (before : Emitted s lit bs) (inInput : lit ≤ s.ilen.toNat) :
      EmittedAll s (bs ++ s.literalBytes lit s.ilen.toNat)

/-! ## A running and an ended `COMPRESS` -/

/-- `u` runs `COMPRESS` on the operand of `s`. -/
structure Compressing (s u : State) : Prop where
  status : u.status = { state := .busy, err := .ok, cause := .none }
  activity : u.activity = .encode
  result : u.result = 0
  ilen : u.ilen = s.ilen
  bytes : u.ibufByte = s.ibufByte
  legal : u.EncoderLegal
  scanning : u.enc.est = .scanning → Emitted s u.enc.lit u.written
  done : u.enc.est = .done → EmittedAll s u.written

/-- `u` has ended `COMPRESS` of the operand of `s` (42_encoder R179, R185). -/
structure Compressed (s u : State) : Prop where
  succeeded : u.Succeeded
  result : u.result = 0
  est : u.enc.est = .done
  size : u.olen.toNat ≤ maxCompressed s.ilen.toNat
  output : EmittedAll s u.output

theorem compressing_beginEncode (s : State) : Compressing s (s.beginCommand.beginEncode Config.params) where
  status := rfl
  activity := rfl
  result := rfl
  ilen := rfl
  bytes := State.ibufByte_congr rfl rfl
  legal := State.beginEncode_encoderLegal _
  scanning _ := by rw [State.written_beginEncode]; exact .header
  done := nofun

section
variable {s u : State}

theorem Compressing.literalBytes (h : Compressing s u) : u.literalBytes = s.literalBytes := by
  funext start stop
  rw [State.literalBytes, State.literalBytes, State.ibufRange_congr h.bytes]

theorem Compressing.n_eq (h : Compressing s u) : u.enc.n = s.ilen.toNat := h.legal.n_eq.trans (by rw [h.ilen])

/-- A match was found at a table entry, which lies behind the cursor (41_matchfinder R155, R156). -/
theorem State.EncoderLegal.exists_candidate (h : u.EncoderLegal) (found : 4 ≤ (u.probe Config.params).enc.mlen) :
    ∃ c, c < u.enc.cur ∧ Cells.lookup u.ht (u.probeIndex Config.params) = some c := by
  cases entry : Cells.lookup u.ht (u.probeIndex Config.params) with
  | none => rw [State.probe_mlen_of_none entry] at found; omega
  | some c => exact ⟨c, (h.table_lt _ c (Config.params_hash_lt _ _) entry).1, rfl⟩

theorem Compressing.matched (h : Compressing s u) (est : u.enc.est = .scanning) (more : u.enc.cur + 4 ≤ u.enc.n)
    (found : 4 ≤ (u.probe Config.params).enc.mlen) :
    Emitted s (u.probe Config.params).matchStep.enc.lit (u.probe Config.params).matchStep.written := by
  obtain ⟨c, behind, entry⟩ := h.legal.exists_candidate found
  obtain ⟨-, pos, back, inInput, repeats, -⟩ :=
    probeFindsTheLongestRun Config.params u c (by omega) behind entry
  rw [h.n_eq] at inInput
  rw [h.bytes] at repeats
  have tokens := Emitted.matched (h.scanning est) (h.legal.lit_le_cur est) found inInput pos back repeats
  have pending : (u.probe Config.params).literalBytes = s.literalBytes := by
    rw [← h.literalBytes, u.probe_eq Config.params]; rfl
  rw [State.written_matchStep, State.written_probe, State.matchBytes, pending, State.matchStep_eq]
  simpa only [State.probe_lit, State.probe_cur] using tokens

theorem Compressing.scanStep (h : Compressing s u) (est : u.enc.est = .scanning) :
    Compressing s (u.scanStep Config.params) := by
  have legal := h.legal.scanStep (P := Config.params) est
  have frame := u.scanStep_eq Config.params
  have tokens : ((u.scanStep Config.params).enc.est = .scanning →
        Emitted s (u.scanStep Config.params).enc.lit (u.scanStep Config.params).written) ∧
      ((u.scanStep Config.params).enc.est = .done → EmittedAll s (u.scanStep Config.params).written) := by
    rcases u.scanStep_cases Config.params with ⟨last, e⟩ | ⟨more, found, e⟩ | ⟨more, missed, e⟩ <;> rw [e]
    · refine ⟨fun other => ?_, fun _ => ?_⟩
      · rw [u.endOfInput_eq] at other; cases other
      · rw [u.written_endOfInput, h.literalBytes, h.n_eq]
        exact .trailing (h.scanning est) (h.n_eq ▸ h.legal.lit_le_n)
    · exact ⟨fun _ => h.matched est more found, nofun⟩
    · refine ⟨fun _ => ?_, fun other => ?_⟩
      · simpa [State.written_missStep, State.written_probe] using h.scanning est
      · simp [est] at other
  obtain ⟨scanning, done⟩ := tokens
  refine ⟨?_, ?_, ?_, ?_, ?_, legal, scanning, done⟩
  · rw [frame]; exact h.status
  · rw [frame]; exact h.activity
  · rw [frame]; exact h.result
  · rw [frame]; exact h.ilen
  · rw [← h.bytes]; exact State.ibufByte_congr (by rw [frame]) (by rw [frame])

theorem Compressing.complete (h : Compressing s u) (est : u.enc.est = .done) (small : s.ilen.toNat ≤ 2 ^ 32 - 1) :
    Compressed s u.completeCompress := by
  have bound := h.legal.wp_done est
  rw [h.n_eq] at bound
  have word : u.enc.wp < 2 ^ 64 := by unfold maxCompressed at bound; omega
  refine ⟨?_, h.result, est, ?_, ?_⟩
  · rw [State.Succeeded, State.completeCompress_status, h.status]
  · rw [State.completeCompress_olen, BitVec.toNat_ofNat, Nat.mod_eq_of_lt word]; exact bound
  · rw [State.output_completeCompress word]; exact h.done est

end

/-! ## The run (R184) -/

theorem State.scanStep_advances (P : Params) {s : State} (est : s.enc.est = .scanning) :
    (s.scanStep P).enc.est = .done ∨
      ((s.scanStep P).enc.est = .scanning ∧ s.enc.cur < (s.scanStep P).enc.cur ∧ s.enc.cur + 4 ≤ s.enc.n) := by
  rcases s.scanStep_cases P with ⟨-, e⟩ | ⟨more, found, e⟩ | ⟨more, -, e⟩ <;> rw [e]
  · exact .inl (by rw [s.endOfInput_eq])
  · refine .inr ⟨rfl, ?_, more⟩
    rw [State.matchStep_eq]
    show s.enc.cur < (s.probe P).enc.cur + (s.probe P).enc.mlen
    rw [State.probe_cur]; omega
  · have advance := one_le_stride P s.enc.miss
    refine .inr ⟨by simpa using est, ?_, more⟩
    simp only [State.missStep_enc, State.probe_cur, State.probe_miss]; omega

/-- Where `COMPRESS` of the operand of `s` can stand `k` steps after its launch. -/
inductive CompressRun (s : State) (k : Nat) (u : State) : Prop
  | scanning (run : Compressing s u) (est : u.enc.est = .scanning) (moved : k ≤ u.enc.cur)
      (room : k ≠ 0 → k + 3 ≤ s.ilen.toNat)
  | emitted (run : Compressing s u) (est : u.enc.est = .done)
  | ended (ended : Compressed s u)

theorem CompressRun.step {s u : State} {k : Nat} (small : s.ilen.toNat ≤ 2 ^ 32 - 1) (quiet : u.host = [])
    (run : CompressRun s k u) : ∃ t, step u = .next t ∧ t.host = [] ∧ CompressRun s (k + 1) t := by
  cases run with
  | scanning run est moved room =>
    have move := CoreStep.scan run.activity est
    refine ⟨_, move.step quiet (by rw [run.status]), move.host.trans quiet, ?_⟩
    have next := run.scanStep est
    rcases u.scanStep_advances Config.params est with done | ⟨est', advance, more⟩
    · exact .emitted next done
    · rw [run.n_eq] at more
      exact .scanning next est' (by omega) fun _ => by omega
  | emitted run est =>
    have move := CoreStep.complete run.activity est
    exact ⟨_, move.step quiet (by rw [run.status]), move.host.trans quiet, .ended (run.complete est small)⟩
  | ended ended =>
    have waiting : u.status.state ≠ .busy := by rw [ended.succeeded]; nofun
    exact ⟨u, step_waiting quiet waiting, quiet, .ended ended⟩

section
variable {s : State} (ready : s.Ready) (small : s.ilen.toNat ≤ 2 ^ 32 - 1)
include ready small

theorem exec_compress : exec .compress s = .next (s.beginCommand.beginEncode Config.params) := by
  rw [exec_command rfl ready.waiting, commandBody, State.startCompress, State.beginCommand_ilen, if_pos small]

theorem exists_compressRun (k : Nat) :
    ∃ t, steps k (s.beginCommand.beginEncode Config.params) = .next t ∧ t.host = [] ∧ CompressRun s k t := by
  induction k with
  | zero => exact ⟨_, rfl, ready.no_moves, .scanning (compressing_beginEncode s) rfl (Nat.zero_le _) (absurd rfl)⟩
  | succ k ih =>
    obtain ⟨u, run, quiet, stands⟩ := ih
    obtain ⟨t, one, quiet', stands'⟩ := stands.step small quiet
    exact ⟨t, (steps_add run 1).trans (steps_one one), quiet', stands'⟩

/-- However `COMPRESS` of an admitted operand ends, it has written tokens of the whole operand. -/
theorem Completes.compressed {t : State} (h : Completes .compress s t) : Compressed s t := by
  obtain ⟨s₁, k, first, run, done⟩ := h
  rw [exec_compress ready small, Host.Outcome.next.injEq] at first
  subst first
  obtain ⟨u, run', -, stands⟩ := exists_compressRun ready small k
  rw [run, Host.Outcome.next.injEq] at run'
  subst run'
  cases stands with
  | scanning running | emitted running => rw [running.status] at done; cases done
  | ended ended => exact ended

/-- A step before which four bytes are left needs a cursor beyond the steps taken, so they run out (42_encoder R184). -/
theorem exists_emitted : ∃ t, steps (max 1 (s.ilen.toNat - 2)) (s.beginCommand.beginEncode Config.params) = .next t ∧
    t.enc.est = .done ∧ ∃ u, step t = .next u ∧ Compressed s u := by
  obtain ⟨t, run, quiet, stands⟩ := exists_compressRun ready small (max 1 (s.ilen.toNat - 2))
  obtain ⟨u, one, -, -⟩ := stands.step small quiet
  cases stands with
  | scanning _ _ _ room => have := room (by omega); omega
  | emitted running est =>
    have move := (CoreStep.complete running.activity est).step quiet (by rw [running.status])
    exact ⟨t, run, est, _, move, running.complete est small⟩
  | ended ended =>
    have waiting : t.status.state ≠ .busy := by rw [ended.succeeded]; nofun
    exact ⟨t, run, ended.est, t, step_waiting quiet waiting, ended⟩

theorem exists_completes_compress : ∃ t, Completes .compress s t ∧ Compressed s t := by
  obtain ⟨t, run, -, u, one, ended⟩ := exists_emitted ready small
  exact ⟨u, ⟨_, _, exec_compress ready small, (steps_add run 1).trans (steps_one one), by rw [ended.succeeded]⟩, ended⟩

end

/-- Settles O47: the cursor moves on with every step that finds four bytes left, and the others end the scan. -/
theorem compressTerminates : Obligations.CompressTerminates := by
  refine ⟨fun P s t est one => ?_, fun s ready small => ?_⟩
  · rw [State.encoderStep_scanning est, Host.Outcome.next.injEq] at one
    subst one
    exact (s.scanStep_advances P est).imp_right fun ⟨est', advance, _⟩ => ⟨est', advance⟩
  · obtain ⟨t, run, est, u, one, ended⟩ := exists_emitted ready small
    exact ⟨_, t, u, exec_compress ready small, run, est, one, ended.succeeded⟩

/-- Settles O48: the write pointer of the invariant. -/
theorem compressedSizeIsBounded : Obligations.CompressedSizeIsBounded := by
  intro s t ready small ends
  obtain ⟨succeeded, result, -, size, -⟩ := ends.compressed ready small
  exact ⟨succeeded, result, size⟩

/-! ## Inputs without a repeated window (R186) -/

/-- A match repeats a window, so without a repeated window nothing but the header is written before the end. -/
theorem Emitted.eq_header {s : State} {lit : Nat} {bs : List Byte} (h : Emitted s lit bs)
    (distinct : ∀ p q, p < q → q + 4 ≤ s.ilen.toNat → s.ibufRange p 4 ≠ s.ibufRange q 4) :
    lit = 0 ∧ bs = varintEncode s.ilen.toNat := by
  cases h with
  | header => exact ⟨rfl, rfl⟩
  | @matched lit cur mlen dist bs _ _ found inInput pos back repeats =>
    refine absurd ?_ (distinct (cur - dist) cur (by omega) (by omega))
    refine List.map_congr_left fun i below => ?_
    have inRun : i < mlen := by have := List.mem_range.mp below; omega
    rw [repeats i inRun, Nat.sub_add_comm back]

/-- Settles O49: one literal holds everything after the header. -/
theorem incompressibleInputIsOneLiteral : Obligations.IncompressibleInputIsOneLiteral := by
  intro s t ready small distinct ends
  obtain ⟨succeeded, -, -, -, output⟩ := ends.compressed ready small
  refine ⟨succeeded, ?_⟩
  generalize t.output = out at output
  cases output with
  | trailing before inInput =>
    obtain ⟨rfl, rfl⟩ := before.eq_header distinct
    rw [State.literalBytes, Nat.sub_zero]
    rcases Nat.eq_zero_or_pos s.ilen.toNat with empty | nonempty
    · rw [if_neg (by omega), if_pos empty]
    · rw [if_pos nonempty, if_neg (by omega)]; rfl

end Sys2Proof.Machine
end

section
/-! Tokens that spell the bytes of an operand, and that the decoder body turns them back into those bytes (42_encoder R195,
R196; 43_decoder R200 to R216). -/

namespace Sys2Proof.Machine

/-! ## Tokens that spell an operand -/

/-- `TokenSpells s m i m' payload`: where the first `m` bytes of the operand of `s` are known, the token `i` with its payload
gives the bytes up to `m'`. -/
inductive TokenSpells (s : State) (m : Nat) (i : Instr) : Nat → List Byte → Prop
  | literal {f len : Nat} (wf : i.wf = true) (form : literalForm i = some (f, len)) :
      TokenSpells s m i (m + len) (s.ibufRange m len)
  | copy {w len off : Nat} (form : copyForm i = some (w, len, off)) (pos : 1 ≤ off) (back : off ≤ m)
      (repeats : ∀ j < len, s.ibufByte (m + j) = s.ibufByte (m + j - off)) : TokenSpells s m i (m + len) []

/-- `TokensSpell s m m' bs`: `bs` are tokens that give the operand's bytes from `m` up to `m'`. -/
inductive TokensSpell (s : State) : Nat → Nat → List Byte → Prop
  | nil (m : Nat) : TokensSpell s m m []
  | cons {m m₁ m₂ : Nat} {i : Instr} {payload bs : List Byte} (token : TokenSpells s m i m₁ payload)
      (rest : TokensSpell s m₁ m₂ bs) : TokensSpell s m m₂ (encode i ++ payload ++ bs)

section
variable {s : State} {m m₁ m₂ : Nat} {as bs : List Byte}

theorem TokensSpell.append (h : TokensSpell s m m₁ as) (rest : TokensSpell s m₁ m₂ bs) :
    TokensSpell s m m₂ (as ++ bs) := by
  induction h with
  | nil => exact rest
  | cons token _ ih => rw [List.append_assoc]; exact .cons token (ih rest)

theorem TokensSpell.single {i : Instr} {payload : List Byte} (h : TokenSpells s m i m₁ payload) :
    TokensSpell s m m₁ (encode i ++ payload) := by
  rw [← List.append_nil (encode i ++ payload)]; exact .cons h (.nil m₁)

theorem TokenSpells.le {i : Instr} {payload : List Byte} (h : TokenSpells s m i m₁ payload) : m ≤ m₁ := by
  cases h with
  | literal | copy => exact Nat.le_add_right m _

theorem TokensSpell.le (h : TokensSpell s m m₁ bs) : m ≤ m₁ := by
  induction h with
  | nil => exact Nat.le_refl _
  | cons token _ ih => exact token.le.trans ih

/-! ## What the encoder writes spells its operand -/

/-- The literal of a stretch of the operand spells it (42_encoder R180). -/
theorem tokensSpell_literalBytes {start stop : Nat} (le : start ≤ stop) (word : stop ≤ 2 ^ 32) :
    TokensSpell s start stop (s.literalBytes start stop) := by
  rw [State.literalBytes]
  split_ifs with nonempty
  · obtain ⟨wf, ⟨f, form⟩, -⟩ := literalFormIsShortest (stop - start) (by omega) (by omega)
    have token := TokenSpells.literal (s := s) (m := start) wf form
    rw [Nat.add_sub_cancel' le] at token
    exact .single token
  · obtain rfl : start = stop := by omega
    exact .nil start

/-- A copy of a stretch that repeats itself at the offset spells it (42_encoder R182). -/
theorem tokensSpell_copyInstr {off l : Nat} (pos : 1 ≤ off) (word : off < 2 ^ 32) (one : 1 ≤ l) (most : l ≤ 64)
    (back : off ≤ m) (repeats : ∀ j < l, s.ibufByte (m + j) = s.ibufByte (m + j - off)) :
    TokensSpell s m (m + l) (encode (copyInstr off l)) := by
  rw [← List.append_nil (encode (copyInstr off l))]
  exact .single (.copy (copyForm_copyInstr word one most) pos back repeats)

/-- So do the copies of a match, each with the same offset (42_encoder R181). -/
theorem tokensSpell_copies {off q r : Nat} (pos : 1 ≤ off) (word : off < 2 ^ 32) (one : 1 ≤ r) (most : r ≤ 64)
    (back : off ≤ m) (repeats : ∀ j < 64 * q + r, s.ibufByte (m + j) = s.ibufByte (m + j - off)) :
    TokensSpell s m (m + (64 * q + r))
      ((List.replicate q (copyInstr off 64) ++ [copyInstr off r]).flatMap encode) := by
  induction q generalizing m with
  | zero => simpa using tokensSpell_copyInstr pos word one most back (by simpa using repeats)
  | succ q ih =>
    have first := tokensSpell_copyInstr pos word (l := 64) (by omega) (by omega) back fun j below =>
      repeats j (by omega)
    have rest := ih (m := m + 64) (by omega) fun j below => by
      simpa only [Nat.add_assoc] using repeats (64 + j) (by omega)
    rw [show m + (64 * (q + 1) + r) = m + 64 + (64 * q + r) by omega, List.replicate_succ, List.cons_append,
      List.flatMap_cons]
    exact first.append rest

theorem tokensSpell_matchInstrs {off L : Nat} (pos : 1 ≤ off) (word : off < 2 ^ 32) (nonempty : 1 ≤ L) (back : off ≤ m)
    (repeats : ∀ j < L, s.ibufByte (m + j) = s.ibufByte (m + j - off)) :
    TokensSpell s m (m + L) ((matchInstrs off L).flatMap encode) := by
  obtain ⟨q, r, rfl, one, most, pieces⟩ := matchSplitsIntoCopies off L pos word nonempty
  rw [pieces]
  exact tokensSpell_copies pos word one most back repeats

theorem Emitted.spells {lit : Nat} (small : s.ilen.toNat ≤ 2 ^ 32 - 1) (h : Emitted s lit bs) :
    ∃ body, bs = varintEncode s.ilen.toNat ++ body ∧ TokensSpell s 0 lit body := by
  induction h with
  | header => exact ⟨[], (List.append_nil _).symm, .nil 0⟩
  | matched _ pending found inInput pos back repeats ih =>
    obtain ⟨body, rfl, before⟩ := ih
    have literal := tokensSpell_literalBytes (s := s) pending (by omega)
    have copies := tokensSpell_matchInstrs pos (by omega) (by omega) back repeats
    exact ⟨_, List.append_assoc _ _ _, before.append (literal.append copies)⟩

theorem EmittedAll.spells (small : s.ilen.toNat ≤ 2 ^ 32 - 1) (h : EmittedAll s bs) :
    ∃ body, bs = varintEncode s.ilen.toNat ++ body ∧ TokensSpell s 0 s.ilen.toNat body := by
  cases h with
  | trailing before inInput =>
    obtain ⟨body, rfl, spelled⟩ := before.spells small
    exact ⟨_, List.append_assoc _ _ _, spelled.append (tokensSpell_literalBytes inInput (by omega))⟩

end

/-! ## A token that spells decodes to what it spells -/

/-- A copy over bytes that repeat themselves at its offset continues the output with those bytes (43_decoder R214). -/
theorem obufRead_moveCopy_of_repeats {epoch op off count : Nat} {mem : Memory} {src : Nat → Byte} (pos : 1 ≤ off)
    (back : off ≤ op) (before : ∀ a < op, obufRead epoch mem a = src a)
    (repeats : ∀ j < count, src (op + j) = src (op + j - off)) :
    ∀ a < op + count, obufRead epoch (moveCopy epoch op off count mem) a = src a := by
  induction count with
  | zero => exact before
  | succ count ih =>
    have earlier := ih fun j below => repeats j (by omega)
    intro a below
    rw [moveCopy, copyByte, obufRead_write]
    split_ifs with last
    · rw [last, repeats count (by omega)]; exact earlier _ (by omega)
    · exact earlier a (by omega)

section
variable {s : State} {m m₁ : Nat} {i : Instr} {payload : List Byte} (h : TokenSpells s m i m₁ payload)
include h

theorem TokenSpells.space : i.space = .token := by
  cases h with
  | literal _ form =>
    cases i with
    | lit | litx1 | litx2 | litx3 | litx4 => rfl
    | _ => cases form
  | copy form =>
    cases i with
    | copy1 | copy2 | copy4 => rfl
    | _ => cases form

theorem TokenSpells.wf : i.wf = true := by
  cases h with
  | literal wf => exact wf
  | copy form =>
    cases i with
    | copy1 | copy2 | copy4 => rfl
    | _ => cases form

/-- It passes its checks and moves the cursors past itself, when what it gives is declared and it lies in the input. -/
theorem TokenSpells.passes {d : DecoderRegs} {ilen : Nat} (op : d.op = m) (declared : m₁ ≤ d.ulen)
    (inInput : d.ip + (encode i).length + payload.length ≤ ilen) :
    tokenFailure i ilen d = none ∧ (tokenAdvance i d).ip = d.ip + (encode i).length + payload.length ∧
      (tokenAdvance i d).op = m₁ := by
  cases h with
  | literal _ form =>
    rw [length_encode_of_literalForm form, State.length_ibufRange] at inInput ⊢
    simp only [tokenFailure, tokenAdvance, form, op]
    rw [if_neg (by omega), if_neg (by omega), if_neg (by omega)]
    exact ⟨rfl, by omega, trivial⟩
  | copy form pos back =>
    rw [length_encode_of_copyForm form, List.length_nil] at inInput ⊢
    simp only [tokenFailure, tokenAdvance, form, literalForm_of_copyForm form, op]
    rw [if_neg (by omega), if_neg (by omega), if_neg (by omega), if_neg (by omega)]
    exact ⟨rfl, by omega, trivial⟩

/-- Its move continues the output with the bytes it spells, when its payload stands in the source. -/
theorem TokenSpells.moves {d : DecoderRegs} {epoch : Nat} {src : Nat → Byte} {mem : Memory} (op : d.op = m)
    (read : ∀ (j : Nat) (inside : j < payload.length), src (d.ip + (encode i).length + j) = payload[j])
    (before : ∀ a < m, obufRead epoch mem a = s.ibufByte a) :
    ∀ a < m₁, obufRead epoch (tokenMove i epoch src d mem) a = s.ibufByte a := by
  cases h with
  | @literal f len _ form =>
    simp only [length_encode_of_literalForm form, State.length_ibufRange, State.getElem_ibufRange] at read
    intro a below
    simp only [tokenMove, form, op, obufRead_moveLiteral]
    split_ifs with inside
    · rw [Nat.add_assoc d.ip, read (a - m) (by omega), Nat.add_sub_cancel' inside.1]
    · exact before a (by omega)
  | copy form pos back repeats =>
    simp only [tokenMove, form, literalForm_of_copyForm form, op]
    exact obufRead_moveCopy_of_repeats pos back before repeats

end

theorem canonical_of_token {i : Instr} (tok : i.space = .token) : i.canonical = i := by
  cases i with
  | decompress => cases tok
  | _ => rfl

/-! ## The decoder body on tokens that spell an operand -/

/-- `u` decodes the operand of `s`: the first `m` bytes are produced, unless the run is dry, and `bs` is still to be
read. -/
structure Decoding (s u : State) (dry : Bool) (m : Nat) (bs : List Byte) : Prop where
  host : u.host = []
  status : u.status = { state := .busy, err := .ok, cause := .none }
  activity : u.activity = .tokens
  dry_eq : u.dec.dry = dry
  ulen : u.dec.ulen = s.ilen.toNat
  op : u.dec.op = m
  unread : u.ibufRange u.dec.ip (u.ilen.toNat - u.dec.ip) = bs
  produced : dry = false → ∀ a < m, u.obufByte a = s.ibufByte a

section
variable {s u : State} {dry : Bool} {m m₁ : Nat} {bs : List Byte}

theorem Decoding.busy (h : Decoding s u dry m bs) : u.status.state = .busy := by rw [h.status]

theorem Decoding.length_unread (h : Decoding s u dry m bs) : u.ilen.toNat - u.dec.ip = bs.length := by
  rw [← h.unread, State.length_ibufRange]

/-- The fetch reads the tag and the fields whole. -/
theorem Decoding.decodeToken {i : Instr} {payload : List Byte} (h : Decoding s u dry m (encode i ++ payload ++ bs))
    (token : TokenSpells s m i m₁ payload) : ∃ rest, decodeToken u.tokenBytes = .ok (i, rest) := by
  have whole : u.tokenBytes = encode i ++ (payload ++ bs).take (5 - (encode i).length) := by
    rw [State.tokenBytes, ← State.take_ibufRange, h.unread, List.append_assoc, List.take_append,
      List.take_of_length_le (length_encode_of_token token.space).2]
  have back := encodedInstructionDecodesBack i ((payload ++ bs).take (5 - (encode i).length)) token.wf
  rw [token.space, canonical_of_token token.space] at back
  exact ⟨_, whole ▸ back⟩

/-- The payload stands in the input after the fields. -/
theorem Decoding.payload {i : Instr} {payload : List Byte} (h : Decoding s u dry m (encode i ++ payload ++ bs)) {j : Nat}
    (inside : j < payload.length) : u.ibufByte (u.dec.ip + (encode i).length + j) = payload[j] := by
  have length := h.length_unread
  simp only [List.length_append] at length
  have inUnread : (encode i).length + j < u.ilen.toNat - u.dec.ip := by omega
  have read : (u.ibufRange u.dec.ip (u.ilen.toNat - u.dec.ip))[(encode i).length + j]? = some payload[j] := by
    rw [h.unread, List.append_assoc, List.getElem?_append_right (Nat.le_add_right _ _), Nat.add_sub_cancel_left,
      List.getElem?_append_left inside, List.getElem?_eq_getElem inside]
  simpa [State.ibufRange, inUnread, Nat.add_assoc] using read

/-- A token that spells is one step of the decoder, which then has the rest to read. -/
theorem Decoding.step {i : Instr} {payload : List Byte} (h : Decoding s u dry m (encode i ++ payload ++ bs))
    (token : TokenSpells s m i m₁ payload) (declared : m₁ ≤ s.ilen.toNat) :
    ∃ t, step u = .next t ∧ Decoding s t dry m₁ bs := by
  have length := h.length_unread
  simp only [List.length_append] at length
  have tag := (length_encode_of_token token.space).1
  obtain ⟨rest, dec⟩ := h.decodeToken token
  obtain ⟨ok, ip, op⟩ := token.passes (d := u.loadTag.dec) (ilen := u.ilen.toNat) h.op (declared.trans h.ulen.ge)
    (by show u.dec.ip + _ + _ ≤ _; omega)
  obtain ⟨-, -, -, -, ulen, dryKept, -⟩ := tokenAdvance_bounds token.space ok
  have move := CoreStep.token h.activity (by omega) dec ok
  refine ⟨_, move.step h.host h.busy, h.host, h.status, h.activity, dryKept.trans h.dry_eq, ulen.trans h.ulen, op, ?_,
    fun wet => ?_⟩
  · have drop := congrArg (List.drop (encode i ++ payload).length) h.unread
    rw [State.drop_ibufRange, List.drop_left, List.length_append, Nat.sub_sub, ← Nat.add_assoc] at drop
    show u.ibufRange (tokenAdvance i u.loadTag.dec).ip (u.ilen.toNat - (tokenAdvance i u.loadTag.dec).ip) = bs
    rw [ip, ← drop]
    simp only [Nat.add_assoc, State.loadTag_dec]
  · have moved := token.moves (d := u.loadTag.dec) (epoch := u.epoch) (src := u.ibufByte) (mem := u.obuf) h.op
      (fun j => h.payload) (h.produced wet)
    simpa only [State.obufByte, h.dry_eq, wet, Bool.false_eq_true, if_false] using moved

/-- The decoder runs to the end of its tokens. -/
theorem Decoding.run (h : Decoding s u dry m bs) (tokens : TokensSpell s m m₁ bs) (declared : m₁ ≤ s.ilen.toNat) :
    ∃ k t, steps k u = .next t ∧ Decoding s t dry m₁ [] := by
  induction tokens generalizing u with
  | nil m => exact ⟨0, u, rfl, h⟩
  | cons token rest ih =>
    obtain ⟨t, one, next⟩ := h.step token (rest.le.trans declared)
    obtain ⟨k, v, run, last⟩ := ih next declared
    exact ⟨1 + k, v, (steps_add (steps_one one) k).trans run, last⟩

/-! ## From the launch to the end -/

theorem Decoding.start (small : s.ilen.toNat ≤ 2 ^ 32 - 1) (ready : u.Ready)
    (input : u.input = varintEncode s.ilen.toNat ++ bs) (dry : Bool) :
    ∃ t, Machine.step (u.beginCommand.startDecode dry) = .next t ∧ Decoding s t dry 0 bs := by
  obtain ⟨-, rest, dec⟩ := varintReadsBackFromInput u s.ilen.toNat bs (by omega) input
  have move := CoreStep.header (s := u.beginCommand.startDecode dry) rfl dec
  refine ⟨_, move.step ready.no_moves rfl, ready.no_moves, rfl, rfl, rfl, rfl, rfl, ?_,
    fun _ a below => absurd below (Nat.not_lt_zero a)⟩
  have drop := congrArg (List.drop (varintEncode s.ilen.toNat).length) input
  rw [State.input, State.drop_ibufRange, List.drop_left, Nat.zero_add] at drop
  exact drop

theorem Decoding.endOfStream (h : Decoding s u dry s.ilen.toNat []) : Machine.step u = .next u.endOfStream :=
  (CoreStep.endOfStream h.activity (Nat.sub_eq_zero_iff_le.mp h.length_unread)).step h.host h.busy

theorem Decoding.uncompressed (h : Decoding s u false s.ilen.toNat []) : u.endOfStream = u.completeUncompress := by
  rw [State.endOfStream, if_pos (h.op.trans h.ulen.symm), h.dry_eq]; rfl

theorem Decoding.validated (h : Decoding s u true s.ilen.toNat []) : u.endOfStream = u.finishValidate true := by
  rw [State.endOfStream, if_pos (h.op.trans h.ulen.symm), h.dry_eq]; rfl

/-- The bytes produced are the operand of `s`. -/
theorem Decoding.output (h : Decoding s u false s.ilen.toNat []) : u.completeUncompress.output = s.input := by
  rw [State.output, State.completeUncompress_olen, h.ulen, BitVec.ofNat_toNat, BitVec.setWidth_eq]
  refine List.map_congr_left fun a below => ?_
  rw [Nat.zero_add]
  exact h.produced rfl a (List.mem_range.mp below)

section
variable (small : s.ilen.toNat ≤ 2 ^ 32 - 1) (ready : u.Ready) (input : u.input = varintEncode s.ilen.toNat ++ bs)
include small ready input

theorem exists_decoded (tokens : TokensSpell s 0 s.ilen.toNat bs) (dry : Bool) :
    ∃ k t, steps k (u.beginCommand.startDecode dry) = .next t.endOfStream ∧ Decoding s t dry s.ilen.toNat [] := by
  obtain ⟨t, one, start⟩ := Decoding.start small ready input dry
  obtain ⟨k, v, run, last⟩ := start.run tokens (Nat.le_refl _)
  have fromLaunch := (steps_add (steps_one one) k).trans run
  exact ⟨_, v, (steps_add fromLaunch 1).trans (steps_one last.endOfStream), last⟩

/-- `UNCOMPRESS` of a header and tokens that spell an operand gives that operand back. -/
theorem exists_uncompressed (tokens : TokensSpell s 0 s.ilen.toNat bs) :
    ∃ v, Completes .uncompress u v ∧ v.Succeeded ∧ v.output = s.input := by
  obtain ⟨k, t, run, last⟩ := exists_decoded small ready input tokens false
  rw [last.uncompressed] at run
  refine ⟨_, ⟨_, k, exec_command rfl ready.waiting, run, rfl⟩, ?_, last.output⟩
  rw [State.Succeeded, State.completeUncompress_status, last.status]

theorem exists_validated (tokens : TokensSpell s 0 s.ilen.toNat bs) :
    ∃ v, Completes .validate u v ∧ v.Succeeded ∧ v.result = 1 := by
  obtain ⟨k, t, run, last⟩ := exists_decoded small ready input tokens true
  rw [last.validated] at run
  exact ⟨_, ⟨_, k, exec_command rfl ready.waiting, run, rfl⟩, rfl, rfl⟩

/-- `ULEN` reads the header alone (44_peek_validate R240). -/
theorem exists_peeked : ∃ v, Completes .ulen u v ∧ v.Succeeded ∧ v.result.toNat = s.ilen.toNat := by
  obtain ⟨-, rest, dec⟩ := varintReadsBackFromInput u s.ilen.toNat bs (by omega) input
  have launch : exec .ulen u = .next u.beginCommand.peekLength := exec_command rfl ready.waiting
  rw [State.peekLength_ok (s := u.beginCommand) dec] at launch
  refine ⟨_, ⟨_, 0, launch, rfl, rfl⟩, rfl, ?_⟩
  rw [BitVec.toNat_ofNat, Nat.mod_eq_of_lt (by omega)]

end

end

/-! ## What `COMPRESS` wrote -/

/-- Settles O53: the encoder writes tokens that spell its operand, and the decoder turns those back into it. -/
theorem uncompressUndoesCompress : Obligations.UncompressUndoesCompress := by
  intro s ready small
  obtain ⟨t, ends, compressed⟩ := exists_completes_compress ready small
  obtain ⟨body, output, tokens⟩ := compressed.output.spells small
  exact ⟨t, ends, compressed.succeeded, fun u ready' input =>
    exists_uncompressed small ready' (input.trans output) tokens⟩

/-- Settles O52: the same tokens in a dry run. -/
theorem compressedBlockValidates : Obligations.CompressedBlockValidates := by
  intro s t u ready small ends ready' input
  obtain ⟨body, output, tokens⟩ := (ends.compressed ready small).output.spells small
  obtain ⟨v, ends', -, valid⟩ := exists_validated small ready' (input.trans output) tokens
  exact ⟨v, ends', valid⟩

/-- Settles O51: the header the encoder wrote. -/
theorem ulenOfCompressedIsTheLength : Obligations.UlenOfCompressedIsTheLength := by
  intro s t u ready small ends ready' input
  obtain ⟨body, output, -⟩ := (ends.compressed ready small).output.spells small
  exact exists_peeked small ready' (input.trans output)

/-! ## The empty input (42_encoder R193, 44_peek_validate R244) -/

/-- An empty buffer has no header, so it is no valid block. -/
theorem exists_rejected_of_empty {s : State} (ready : s.Ready) (empty : s.ilen = 0) :
    ∃ t, Completes .validate s t ∧ t.Succeeded ∧ t.result = 0 := by
  have noHeader : varintDecode (s.beginCommand.startDecode true).headerBytes = .error .varintTruncated := by
    rw [State.headerBytes, State.startDecode_ilen, State.beginCommand_ilen, empty]; rfl
  have quiet : (s.beginCommand.startDecode true).host = [] := ready.no_moves
  have move := (CoreStep.headerRejected rfl noHeader).step quiet rfl
  exact ⟨_, ⟨_, 1, exec_command rfl ready.waiting, steps_one move, State.malformed_state _ _⟩,
    State.malformed_status _ _, State.malformed_result _ _⟩

/-- Settles O50: the block is the header of no bytes, and no tokens. -/
theorem emptyInputIsTheZeroByte : Obligations.EmptyInputIsTheZeroByte := by
  intro s ready empty
  have noBytes : s.ilen.toNat = 0 := by rw [empty]; rfl
  have small : s.ilen.toNat ≤ 2 ^ 32 - 1 := by omega
  refine ⟨?_, exists_rejected_of_empty ready empty, fun u ready' input => ?_⟩
  · obtain ⟨t, ends, -⟩ := exists_completes_compress ready small
    obtain ⟨succeeded, output⟩ := incompressibleInputIsOneLiteral s t ready small (fun _ _ _ _ => by omega) ends
    exact ⟨t, ends, succeeded, by rw [output, if_pos noBytes, noBytes]; rfl⟩
  · have block : u.input = varintEncode s.ilen.toNat ++ [] := by rw [input, noBytes]; rfl
    have tokens : TokensSpell s 0 s.ilen.toNat [] := by rw [noBytes]; exact .nil 0
    obtain ⟨v, validates, succeeded, valid⟩ := exists_validated small ready' block tokens
    obtain ⟨w, uncompresses, succeeded', output⟩ := exists_uncompressed small ready' block tokens
    obtain ⟨x, peeks, succeeded'', length⟩ := exists_peeked small ready' block
    refine ⟨v, w, x, validates, succeeded, valid, uncompresses, succeeded', ?_, peeks, succeeded'', ?_⟩
    · rw [output, State.input, noBytes]; rfl
    · exact BitVec.eq_of_toNat_eq (length.trans noBytes)

end Sys2Proof.Machine
end

section
/-! What a literal and a copy write, and when and in which order they raise (43_decoder R202 to R215; 60_exceptions
R266). -/

namespace Sys2Proof.Machine

/-- A raise after working registers were written leaves those as written (60_exceptions R270; log 23). -/
theorem State.malformed_setDec (s : State) {d : DecoderRegs} (dry : d.dry = s.dec.dry) (c : Cause) :
    Raised s (State.malformed { s with dec := d } c) c ∧
      State.malformed { s with dec := d } c =
        { s with status := (State.malformed { s with dec := d } c).status, olen := 0, result := 0, dec := d } := by
  have raised := State.malformed_raised { s with dec := d } c
  rw [Raised, dry] at raised
  exact ⟨raised, State.malformed_eq _ c⟩

/-- The bytes of a move that a dry run leaves out (43_decoder R221): outside the destination nothing changes. -/
theorem obufRead_ite_dry {dry : Bool} {epoch a : Nat} {old new : Memory} {outside : Prop} (h : dry = true ∨ outside)
    (frame : outside → obufRead epoch new a = obufRead epoch old a) :
    obufRead epoch (if dry then old else new) a = obufRead epoch old a := by
  split
  · rfl
  · rename_i wet; exact frame (h.resolve_left wet)

/-! ## Literals (R202 to R206, R210) -/

section
variable {s : State} {i : Instr} {f len : Nat}

/-- Only escape bytes can be cut: a literal without them has none to check. -/
theorem exec_literal_cut (form : literalForm i = some (f, len)) (escapes : f ≠ 0)
    (cut : s.ilen.toNat < s.dec.ip + 1 + f) : exec i s = .next (s.malformed .fieldTruncated) := by
  rw [exec_literalForm s form, if_neg (by omega)]

theorem exec_literal_read (form : literalForm i = some (f, len)) (read : s.dec.ip + 1 + f ≤ s.ilen.toNat ∨ f = 0) :
    exec i s = .next (s.literal f len) := by
  rw [exec_literalForm s form, if_pos read.symm]

theorem State.literal_overrun (tooLong : s.dec.ulen < s.dec.op + len) : s.literal f len =
    State.malformed { s with dec := { s.dec with len := len, data := s.dec.ip + 1 + f } } .outputOverrun :=
  if_neg (Nat.not_le.mpr tooLong)

theorem State.literal_truncated (fits : s.dec.op + len ≤ s.dec.ulen) (cut : s.ilen.toNat < s.dec.ip + 1 + f + len) :
    s.literal f len =
      State.malformed { s with dec := { s.dec with len := len, data := s.dec.ip + 1 + f } } .literalTruncated :=
  (if_pos fits).trans (if_neg (Nat.not_le.mpr cut))

theorem State.literal_applied (fits : s.dec.op + len ≤ s.dec.ulen) (present : s.dec.ip + 1 + f + len ≤ s.ilen.toNat) :
    s.literal f len = { s with
      obuf := if s.dec.dry then s.obuf else moveLiteral s.ibufByte (s.dec.ip + 1 + f) s.dec.op len s.obuf
      dec := { s.dec with
        len := len, data := s.dec.ip + 1 + f, ip := s.dec.ip + 1 + f + len, op := s.dec.op + len } } :=
  (if_pos fits).trans (if_pos present)

end

/-- Settles O22: the branch of `ApplyLiteral` that passes both checks. -/
theorem literalCopiesItsPayload : Obligations.LiteralCopiesItsPayload := by
  intro i f len s form read fits present
  refine ⟨_, (exec_literal_read form (.inl read)).trans (congrArg _ (State.literal_applied fits present)), rfl,
    fun wet j inside => ?_, fun a outside => obufRead_ite_dry outside fun away => ?_, rfl⟩
  · simp only [State.obufByte, wet, Bool.false_eq_true, if_false, obufRead_moveLiteral]
    rw [if_pos (by omega), Nat.add_sub_cancel_left]
  · rw [obufRead_moveLiteral, if_neg (by omega)]

/-- Settles O23: the field check and the two checks of `ApplyLiteral`, each failing after those before it passed. -/
theorem literalRaisesInOrder : Obligations.LiteralRaisesInOrder := by
  intro i f len s form
  refine ⟨fun escapes cut => ?_, fun read tooLong => ?_, fun read fits cut => ?_⟩
  · exact ⟨_, exec_literal_cut form escapes cut, s.malformed_raised _, s.malformed_eq _⟩
  · rw [exec_literal_read form read, State.literal_overrun tooLong]
    exact ⟨_, rfl, s.malformed_setDec (by rfl) _⟩
  · rw [exec_literal_read form read, State.literal_truncated fits cut]
    exact ⟨_, rfl, s.malformed_setDec (by rfl) _⟩

/-! ## Copies (R207 to R209, R211, R214) -/

section
variable {s : State} {i : Instr} {w len off : Nat}

theorem exec_copy_cut (form : copyForm i = some (w, len, off)) (cut : s.ilen.toNat < s.dec.ip + 1 + w) :
    exec i s = .next (s.malformed .fieldTruncated) := by
  rw [exec_copyForm s form, if_neg (by omega)]

theorem exec_copy_read (form : copyForm i = some (w, len, off)) (read : s.dec.ip + 1 + w ≤ s.ilen.toNat) :
    exec i s = .next (s.copy w len off) := by
  rw [exec_copyForm s form, if_pos read]

theorem State.copy_offsetZero (zero : off = 0) : s.copy w len off =
    State.malformed { s with dec := { s.dec with len := len, off := off } } .offsetZero :=
  if_neg (not_not.mpr zero)

theorem State.copy_offsetRange (nonzero : off ≠ 0) (beyond : s.dec.op < off) : s.copy w len off =
    State.malformed { s with dec := { s.dec with len := len, off := off } } .offsetRange :=
  (if_pos nonzero).trans (if_neg (Nat.not_le.mpr beyond))

theorem State.copy_overrun (nonzero : off ≠ 0) (back : off ≤ s.dec.op) (tooLong : s.dec.ulen < s.dec.op + len) :
    s.copy w len off = State.malformed { s with dec := { s.dec with len := len, off := off } } .outputOverrun :=
  (if_pos nonzero).trans ((if_pos back).trans (if_neg (Nat.not_le.mpr tooLong)))

theorem State.copy_applied (nonzero : off ≠ 0) (back : off ≤ s.dec.op) (fits : s.dec.op + len ≤ s.dec.ulen) :
    s.copy w len off = { s with
      obuf := if s.dec.dry then s.obuf else moveCopy s.epoch s.dec.op off len s.obuf
      dec := { s.dec with len := len, off := off, ip := s.dec.ip + 1 + w, op := s.dec.op + len } } :=
  (if_pos nonzero).trans ((if_pos back).trans (if_pos fits))

end

/-- Settles O24: the branch of `ApplyCopy` that passes all three checks. -/
theorem copyRepeatsEarlierOutput : Obligations.CopyRepeatsEarlierOutput := by
  intro i w len off s form read nonzero back fits
  refine ⟨_, (exec_copy_read form read).trans (congrArg _ (State.copy_applied nonzero back fits)), rfl,
    fun wet j inside => ?_,
    fun a outside => obufRead_ite_dry outside (obufRead_moveCopy_outside _ _ _ _ _ a), rfl⟩
  simp only [State.obufByte, wet, Bool.false_eq_true, if_false]
  exact obufRead_moveCopy_inside _ _ _ _ _ j inside (Nat.pos_of_ne_zero nonzero) back

/-- Settles O26: the field check and the three checks of `ApplyCopy`, each failing after those before it passed. -/
theorem copyRaisesInOrder : Obligations.CopyRaisesInOrder := by
  intro i w len off s form
  refine ⟨fun cut => ⟨_, exec_copy_cut form cut, s.malformed_raised _, s.malformed_eq _⟩, fun read cause which => ?_⟩
  have fails : s.copy w len off = State.malformed { s with dec := { s.dec with len := len, off := off } } cause := by
    rcases which with ⟨zero, rfl⟩ | ⟨nonzero, beyond, rfl⟩ | ⟨nonzero, back, tooLong, rfl⟩
    · exact State.copy_offsetZero zero
    · exact State.copy_offsetRange nonzero beyond
    · exact State.copy_overrun nonzero back tooLong
  rw [exec_copy_read form read, fails]
  exact ⟨_, rfl, s.malformed_setDec (by rfl) cause⟩

/-! ## The closed form of a copy (R215) -/

/-- Byte `i` of the destination is byte `i mod off` of the window: each step back by `off` leaves the remainder. -/
theorem obufRead_moveCopy_closedForm {epoch op off count : Nat} {m : Memory} (pos : 0 < off) (back : off ≤ op) {i : Nat}
    (inside : i < count) :
    obufRead epoch (moveCopy epoch op off count m) (op + i) = obufRead epoch m (op - off + i % off) := by
  induction i using Nat.strong_induction_on with
  | _ i ih =>
    rw [obufRead_moveCopy_inside epoch op off count m i inside pos back]
    rcases Nat.lt_or_ge i off with first | later
    · rw [obufRead_moveCopy_outside _ _ _ _ _ _ (by omega), Nat.mod_eq_of_lt first, Nat.sub_add_comm back]
    · rw [Nat.add_sub_assoc later, ih (i - off) (by omega) (by omega), ← Nat.mod_eq_sub_mod later]

/-- Settles O25: the closed form, the frame and the repetition of the bytes moved. -/
theorem copyClosedForm : Obligations.CopyClosedForm := by
  intro s nxt wet nonzero back fits
  have pos : 0 < s.dec.off := Nat.pos_of_ne_zero nonzero
  have moved (a : Nat) : (s.applyCopy nxt).obufByte a =
      obufRead s.epoch (moveCopy s.epoch s.dec.op s.dec.off s.dec.len s.obuf) a := by
    rw [State.applyCopy, if_pos nonzero, if_pos back, if_pos fits, wet]; rfl
  refine ⟨fun i inside => ?_, fun a outside => ?_, fun a low high => ?_⟩
  · rw [moved]; exact obufRead_moveCopy_closedForm pos back inside
  · rw [moved]; exact obufRead_moveCopy_outside _ _ _ _ _ a outside
  · obtain ⟨j, rfl⟩ := Nat.exists_eq_add_of_le low
    rw [moved, moved]
    exact obufRead_moveCopy_inside _ _ _ _ _ j (by omega) pos back

end Sys2Proof.Machine
end

section
/-! The decoder body step by step: the end of the stream, the bounds of a token, a dry run beside a real one, that every
run ends, and how `UNCOMPRESS` ends (43_decoder R216 to R222; 60_exceptions R280). -/

namespace Sys2Proof.Machine

/-! ## The end of the stream (R216, R218) -/

/-- Settles O27: the three branches of the end-of-stream check. -/
theorem endOfStreamCheck : Obligations.EndOfStreamCheck := by
  intro s quiet status act last
  have move := CoreStep.endOfStream act last.ge
  refine ⟨_, move.step quiet (by rw [status]), s.endOfStream_eq, ?_⟩
  rcases s.endOfStream_cases with ⟨full, dry, e⟩ | ⟨full, wet, e⟩ | ⟨short, e⟩ <;> rw [e]
  · exact ⟨fun _ wet => by simp [dry] at wet, fun _ _ => ⟨rfl, rfl, rfl⟩, fun short => absurd full short⟩
  · exact ⟨fun _ _ => ⟨by rw [State.Succeeded, State.completeUncompress_status, status], rfl, rfl⟩,
      fun _ dry => by simp [wet] at dry, fun short => absurd full short⟩
  · exact ⟨fun full => absurd full short, fun full => absurd full short, fun _ => s.malformed_raised _⟩

/-! ## A token in its bounds (R220) -/

/-- Settles O28: a token that passes its checks is in its bounds, one that fails or is rejected ends the command. -/
theorem tokenStepStaysInBounds : Obligations.TokenStepStaysInBounds := by
  intro s t quiet busy act more one
  cases (step_next_iff quiet busy).mp one with
  | @token i _ _ _ dec ok =>
    obtain ⟨ip, inInput, op, fits, ulen, dry, -⟩ := tokenAdvance_bounds (decodeToken_space dec) ok
    refine .inr ⟨rfl, act, ip, inInput, op, fits, ulen, dry, fun a outside => ?_⟩
    exact obufRead_ite_dry (.inr outside) (obufRead_tokenMove_outside i s.epoch s.ibufByte s.loadTag.dec s.obuf a)
  | tokenFailed | tokenRejected => exact .inl ⟨State.malformed_state _ _, State.malformed_obuf _ _⟩
  | endOfStream _ last => exact absurd more (Nat.not_lt.mpr last)
  | header other | headerRejected other | scan other | complete other => simp [act] at other

/-! ## A dry run (R221) -/

/-- No check reads `dry`. -/
theorem tokenFailure_setDry (i : Instr) (ilen : Nat) (d : DecoderRegs) (b : Bool) :
    tokenFailure i ilen { d with dry := b } =
      (tokenFailure i ilen d).map fun r => (r.1, { r.2 with dry := b }) := by
  unfold tokenFailure
  split
  · split_ifs <;> rfl
  · split_ifs <;> rfl
  · rfl

theorem tokenAdvance_setDry (i : Instr) (d : DecoderRegs) (b : Bool) :
    tokenAdvance i { d with dry := b } = { tokenAdvance i d with dry := b } := by
  unfold tokenAdvance
  split <;> rfl

/-- A token with `dry` set to either value: the checks and the registers are the same, the move and the end of a raise
are not. -/
theorem exec_token_setDry {i : Instr} (tok : i.space = .token) (s : State) (b : Bool) :
    exec i { s with dec := { s.dec with dry := b } } = .next
      (match tokenFailure i s.ilen.toNat s.dec with
       | some (c, d) => State.malformed { s with dec := { d with dry := b } } c
       | none => { s with
         dec := { tokenAdvance i s.dec with dry := b }
         obuf := if b then s.obuf else tokenMove i s.epoch s.ibufByte { s.dec with dry := b } s.obuf }) := by
  rw [exec_token tok]
  simp only [tokenFailure_setDry, tokenAdvance_setDry]
  cases tokenFailure i s.ilen.toNat s.dec <;> rfl

/-- Settles O30: a token that fails raises in both modes, one that does not advances the same registers. -/
theorem dryRunTakesTheSamePath : Obligations.DryRunTakesTheSamePath := by
  intro s i tok busy
  refine ⟨_, _, exec_token_setDry tok s false, exec_token_setDry tok s true, ?_⟩
  cases tokenFailure i s.ilen.toNat s.dec with
  | none => exact ⟨rfl, rfl, Iff.rfl, fun _ => rfl, fun raised => absurd busy raised⟩
  | some r => exact ⟨rfl, rfl, by simp, nofun, fun _ => ⟨rfl, rfl, rfl, rfl⟩⟩

/-! ## Termination (R222) -/

/-- A CORE that has ended its command waits however long it is left. -/
theorem steps_of_done {s : State} (quiet : s.host = []) (done : s.status.state = .done) (k : Nat) :
    steps k s = .next s :=
  coreWaitsForALaunch s k ⟨by simp [done], quiet⟩

/-- A step of the token loop ends the command or moves `ip` on, within the input. -/
theorem exists_step_of_tokens {s : State} (quiet : s.host = []) (busy : s.status.state = .busy)
    (act : s.activity = .tokens) :
    ∃ t, step s = .next t ∧ t.host = [] ∧ (t.status.state = .done ∨
      (t.status.state = .busy ∧ t.activity = .tokens ∧ s.dec.ip + 2 ≤ t.dec.ip ∧ t.dec.ip ≤ s.ilen.toNat ∧
        t.ilen = s.ilen)) := by
  rcases Nat.lt_or_ge s.dec.ip s.ilen.toNat with more | last
  · obtain ⟨t, move⟩ := exists_coreStep (s := s) fun encode => by simp [act] at encode
    have one := move.step quiet busy
    refine ⟨t, one, move.host.trans quiet, ?_⟩
    rcases tokenStepStaysInBounds s t quiet busy act more one with ⟨done, -⟩ | ⟨status, act', ip, inInput, -⟩
    · exact .inl done
    · exact .inr ⟨by rw [status, busy], act', ip, inInput, move.operand_eq.2⟩
  · have move := CoreStep.endOfStream act last
    exact ⟨_, move.step quiet busy, move.host.trans quiet, .inl s.endOfStream_state⟩

/-- With at most `2 k + 1` bytes left to read the token loop ends within `k` tokens and the end-of-stream check. -/
theorem exists_done_of_tokens {s : State} (k : Nat) (quiet : s.host = []) (busy : s.status.state = .busy)
    (act : s.activity = .tokens) (left : s.ilen.toNat ≤ s.dec.ip + (2 * k + 1)) :
    ∃ t, steps (k + 1) s = .next t ∧ t.status.state = .done := by
  induction k generalizing s with
  | zero =>
    obtain ⟨t, one, -, done | ⟨-, -, ip, inInput, -⟩⟩ := exists_step_of_tokens quiet busy act
    · exact ⟨t, steps_one one, done⟩
    · omega
  | succ k ih =>
    obtain ⟨t, one, quiet', next⟩ := exists_step_of_tokens quiet busy act
    rw [Nat.add_comm (k + 1) 1, steps_add (steps_one one)]
    rcases next with done | ⟨busy', act', ip, -, ilen⟩
    · exact ⟨t, steps_of_done quiet' done _, done⟩
    · exact ih quiet' busy' act' (by rw [ilen]; omega)

/-- The three commands of the decoder body are launched alike, in dry mode or not (43_decoder R200). -/
theorem exists_exec_startDecode {i : Instr} {s : State} (waiting : s.status.state ≠ .busy)
    (cmd : i = .uncompress ∨ i = .decompress ∨ i = .validate) :
    ∃ dry, exec i s = .next (s.beginCommand.startDecode dry) := by
  rcases cmd with rfl | rfl | rfl
  · exact ⟨false, exec_command rfl waiting⟩
  · exact ⟨false, exec_command rfl waiting⟩
  · exact ⟨true, exec_command rfl waiting⟩

/-- Settles O31: the header is at least one byte, and what is left of the input bounds the tokens. -/
theorem decodeCommandsTerminate : Obligations.DecodeCommandsTerminate := by
  intro s i ready cmd
  obtain ⟨dry, launch⟩ := exists_exec_startDecode ready.waiting cmd
  obtain ⟨t, move⟩ := exists_coreStep (s := s.beginCommand.startDecode dry) nofun
  have waits : (s.beginCommand.startDecode dry).host = [] := ready.no_moves
  have quiet : t.host = [] := move.host.trans waits
  have rest : ∃ u, steps (s.ilen.toNat / 2 + 1) t = .next u ∧ u.status.state = .done := by
    cases move with
    | header _ dec =>
      have one := (varintDecode_bounds dec).1
      refine exists_done_of_tokens _ quiet rfl rfl ?_
      simp only [State.startDecode_ilen, State.beginCommand_ilen]
      omega
    | headerRejected => exact ⟨_, steps_of_done quiet (State.malformed_state _ _) _, State.malformed_state _ _⟩
    | token act | tokenFailed act | tokenRejected act | endOfStream act | scan act | complete act => cases act
  obtain ⟨u, run, done⟩ := rest
  have whole := (steps_add (steps_one (move.step waits rfl)) _).trans run
  exact ⟨_, u, launch, by rwa [Nat.add_comm 1] at whole, done⟩

/-! ## How `UNCOMPRESS` ends (R219) -/

/-- `UNCOMPRESS` of the operand of `s` is under way or has ended in `t`: the operand stands, and nothing but a
`MalformedInput` has been raised. -/
structure Uncompressing (s t : State) : Prop where
  ibuf : t.ibuf = s.ibuf
  ilen : t.ilen = s.ilen
  result : t.result = 0
  decoding : t.activity ≠ .encode
  wet : t.dec.dry = false
  err : t.status.err = .ok ∨ t.status.err = .malformedInput

theorem Uncompressing.malformed {s t : State} (h : Uncompressing s t) {d : DecoderRegs} (dry : d.dry = t.dec.dry)
    (c : Cause) : Uncompressing s (State.malformed { t with dec := d } c) where
  ibuf := (State.malformed_ibuf _ c).trans h.ibuf
  ilen := (State.malformed_ilen _ c).trans h.ilen
  result := State.malformed_result _ c
  decoding := by rw [State.malformed_activity]; exact h.decoding
  wet := by rw [State.malformed_dec]; exact dry.trans h.wet
  err := .inr (by rw [State.malformed_status, dry, h.wet]; rfl)

theorem Uncompressing.step {s t u : State} (h : Uncompressing s t) (move : CoreStep t u) : Uncompressing s u := by
  cases move with
  | header => exact ⟨h.ibuf, h.ilen, h.result, nofun, h.wet, h.err⟩
  | headerRejected => exact h.malformed rfl _
  | token act more dec ok =>
    obtain ⟨-, -, -, -, -, dry, -⟩ := tokenAdvance_bounds (decodeToken_space dec) ok
    exact ⟨h.ibuf, h.ilen, h.result, h.decoding, dry.trans h.wet, h.err⟩
  | tokenFailed act more dec bad => exact h.malformed (by rw [(tokenFailure_regs bad).2]; rfl) _
  | tokenRejected => exact h.malformed (d := t.loadTag.dec) rfl _
  | endOfStream =>
    rcases t.endOfStream_cases with ⟨-, dry, -⟩ | ⟨-, -, e⟩ | ⟨-, e⟩
    · simp [h.wet] at dry
    · rw [e]; exact ⟨h.ibuf, h.ilen, h.result, h.decoding, h.wet, h.err⟩
    · rw [e]; exact h.malformed rfl _
  | scan act | complete act => exact absurd act h.decoding

theorem Completes.uncompressing {s t : State} (ready : s.Ready) (h : Completes .uncompress s t) : Uncompressing s t :=
  h.induction rfl ready ⟨rfl, rfl, rfl, nofun, rfl, .inl rfl⟩ fun _ _ _ under move => under.step move

/-- Settles O32: no error but `MalformedInput`, and a legal `STATUS` ties the cause and `OLEN` to it. -/
theorem uncompressFailsWholesale : Obligations.UncompressFailsWholesale := by
  intro s t ready ends
  obtain ⟨ibuf, ilen, result, -, -, err⟩ := ends.uncompressing ready
  obtain ⟨cause_iff, -, olen_zero, -⟩ := ends.statusLegal rfl ready
  obtain ⟨-, -, -, -, done⟩ := ends
  refine ⟨result, ibuf, ilen, ?_⟩
  rcases err with ok | malformed
  · have noCause : t.status.cause = .none := by_contra fun cause => by simp [cause_iff.mp cause] at ok
    refine .inl ?_
    rw [State.Succeeded, ← done, ← ok, ← noCause]
  · exact .inr ⟨malformed, cause_iff.mpr malformed, olen_zero (.inr (by simp [malformed]))⟩

end Sys2Proof.Machine
end

section
/-! Blocks that are too long or cut short: what `UNCOMPRESS` reads of a valid block it reads again of another operand
as far as the two agree, and there it fails (43_decoder R217, R226). -/

namespace Sys2Proof.Machine

/-! ## Reading the same bytes again -/

theorem ibufRange_of_same {s u : State} {a n : Nat} (same : ∀ x < a + n, u.ibufByte x = s.ibufByte x) :
    u.ibufRange a n = s.ibufRange a n :=
  List.map_congr_left fun _ inside => same _ (Nat.add_lt_add_left (List.mem_range.mp inside) a)

/-- A fetch that reads an instruction reads it in every state that fetches the same bytes of it, whatever follows. -/
theorem exists_decode_ibufRange {sp : Space} {s u : State} {a n n' : Nat} {i : Instr} {rest : List Byte}
    (dec : decode sp (s.ibufRange a n) = .ok (i, rest)) (canonical : i.canonical = i)
    (fetched : (encode i).length ≤ n') (same : ∀ x < a + (encode i).length, u.ibufByte x = s.ibufByte x) :
    ∃ rest', decode sp (u.ibufRange a n') = .ok (i, rest') := by
  obtain ⟨space, wf, bytes⟩ := decodedInstructionReencodes sp _ rest i dec
  have length : (encode i).length ≤ n := by
    rw [← s.length_ibufRange a n, ← bytes, List.length_append]; exact Nat.le_add_right _ _
  have word : s.ibufRange a (encode i).length = encode i := by
    rw [← Nat.min_eq_left length, ← State.take_ibufRange, ← bytes, List.take_left]
  have back := encodedInstructionDecodesBack i (u.ibufRange (a + (encode i).length) (n' - (encode i).length)) wf
  rw [space, canonical] at back
  have split := u.ibufRange_add a (encode i).length (n' - (encode i).length)
  rw [Nat.add_sub_cancel' fetched, ibufRange_of_same same, word] at split
  exact ⟨_, split ▸ back⟩

/-- A header at the start of two operands. -/
theorem exists_varintDecode_headerBytes {s u : State} {v c : Nat} {rest : List Byte}
    (dec : varintDecode s.headerBytes = .ok (v, c, rest)) (inInput : c ≤ u.ilen.toNat)
    (same : ∀ x < c, u.ibufByte x = s.ibufByte x) : ∃ rest', varintDecode u.headerBytes = .ok (v, c, rest') := by
  obtain ⟨-, five, -, word, -⟩ := varintDecode_bounds dec
  have size : (encode (.hdr c (BitVec.ofNat 32 v))).length = c := length_varintBytes c _
  have asInstr : decode .header s.headerBytes = .ok (.hdr c (BitVec.ofNat 32 v), rest) := by
    rw [decode, decodeHeader, dec]
  obtain ⟨rest', again⟩ := exists_decode_ibufRange (u := u) (n' := min 5 u.ilen.toNat) asInstr rfl (by omega)
    (by rwa [size, Nat.zero_add])
  obtain ⟨v', c', dec', same'⟩ := decodeHeader_ok again
  obtain ⟨-, -, -, word', -⟩ := varintDecode_bounds dec'
  obtain ⟨rfl, value⟩ := Instr.hdr.inj same'
  have value := congrArg BitVec.toNat value
  rw [BitVec.toNat_ofNat, BitVec.toNat_ofNat, Nat.mod_eq_of_lt word, Nat.mod_eq_of_lt word'] at value
  exact ⟨rest', value ▸ dec'⟩

/-- A token at the same cursor of two operands. -/
theorem exists_decodeToken_tokenBytes {s u : State} {i : Instr} {rest : List Byte} (ip : u.dec.ip = s.dec.ip)
    (dec : decodeToken s.tokenBytes = .ok (i, rest)) (inInput : s.dec.ip + (encode i).length ≤ u.ilen.toNat)
    (same : ∀ x < s.dec.ip + (encode i).length, u.ibufByte x = s.ibufByte x) :
    ∃ rest', decodeToken u.tokenBytes = .ok (i, rest') := by
  have tok := decodeToken_space dec
  have five := (length_encode_of_token tok).2
  rw [State.tokenBytes, ip]
  exact exists_decode_ibufRange (sp := .token) dec (canonical_of_token tok) (by omega) same

/-! ## The checks of a token against two operand lengths -/

section
variable {i : Instr} {ilen ilen' : Nat} {d d' : DecoderRegs} {c : Cause}

/-- A token ends after its tag and fields, and after its payload if it has one. -/
theorem length_encode_le_tokenAdvance (tok : i.space = .token) (d : DecoderRegs) :
    d.ip + (encode i).length ≤ (tokenAdvance i d).ip := by
  rcases token_form tok with ⟨f, len, form, -⟩ | ⟨w, len, off, form, -⟩
  · rw [length_encode_of_literalForm form]
    simp only [tokenAdvance, form]; omega
  · rw [length_encode_of_copyForm form]
    simp only [tokenAdvance, form, literalForm_of_copyForm form]; omega

/-- A token that passes its checks passes them in every input it lies in. -/
theorem tokenFailure_none_of_le (tok : i.space = .token) (ok : tokenFailure i ilen d = none)
    (inInput : (tokenAdvance i d).ip ≤ ilen') : tokenFailure i ilen' d = none := by
  rcases token_form tok with ⟨f, len, form, -⟩ | ⟨w, len, off, form, -⟩
  · simp only [tokenFailure, tokenAdvance, form] at ok inInput ⊢
    split_ifs at ok
    rw [if_neg (by omega), if_neg (by omega), if_neg (by omega)]
  · simp only [tokenFailure, tokenAdvance, form, literalForm_of_copyForm form] at ok inInput ⊢
    split_ifs at ok
    rw [if_neg (by omega), if_neg (by omega), if_neg (by omega), if_neg (by omega)]

/-- The causes of a token cut by the end of the input. -/
def CutCause (c : Cause) : Prop := c = .literalTruncated ∨ c = .fieldTruncated

/-- A token that passes its checks in one input fails in another for its length only. -/
theorem tokenFailure_cutCause (tok : i.space = .token) (ok : tokenFailure i ilen d = none)
    (bad : tokenFailure i ilen' d = some (c, d')) : CutCause c := by
  rcases token_form tok with ⟨f, len, form, -⟩ | ⟨w, len, off, form, -⟩
  · simp only [tokenFailure, form] at ok bad
    split_ifs at ok bad <;> cases bad
    · exact .inl rfl
    · exact .inr rfl
  · simp only [tokenFailure, form, literalForm_of_copyForm form] at ok bad
    split_ifs at ok bad
    cases bad
    exact .inr rfl

/-- The causes of a token after the declared output is complete (43_decoder R217). -/
def TrailingCause (c : Cause) : Prop :=
  c = .outputOverrun ∨ c = .fieldTruncated ∨ c = .offsetZero ∨ c = .offsetRange

/-- With the output complete no literal gets to the check of its payload. -/
theorem tokenFailure_trailingCause (tok : i.space = .token) (full : d.op = d.ulen)
    (bad : tokenFailure i ilen d = some (c, d')) : TrailingCause c := by
  rcases token_form tok with ⟨f, len, form, one, -⟩ | ⟨w, len, off, form, -⟩
  · simp only [tokenFailure, form] at bad
    rw [if_pos (show d.ulen < d.op + len by omega)] at bad
    split_ifs at bad <;> cases bad <;> simp [TrailingCause]
  · simp only [tokenFailure, form, literalForm_of_copyForm form] at bad
    split_ifs at bad <;> cases bad <;> simp [TrailingCause]

end

/-! ## The token loop of a block that is accepted -/

/-- The state after a token that passes its checks (43_decoder R201). -/
def State.afterToken (s : State) (i : Instr) : State :=
  { s with
    dec := tokenAdvance i s.loadTag.dec
    obuf := if s.dec.dry then s.obuf else tokenMove i s.epoch s.ibufByte s.loadTag.dec s.obuf }

/-- The token loop from `s` on passes every check to the end of the stream. -/
inductive Accepted : State → Prop
  | last {s : State} (ends : s.ilen.toNat ≤ s.dec.ip) (full : s.dec.op = s.dec.ulen) : Accepted s
  | token {s : State} {i : Instr} {rest : List Byte} (more : s.dec.ip < s.ilen.toNat)
      (dec : decodeToken s.tokenBytes = .ok (i, rest)) (ok : tokenFailure i s.ilen.toNat s.loadTag.dec = none)
      (next : Accepted (s.afterToken i)) : Accepted s

theorem State.Succeeded.state {s : State} (h : s.Succeeded) : s.status.state = .done := congrArg Status.state h

theorem State.Succeeded.err {s : State} (h : s.Succeeded) : s.status.err = .ok := congrArg Status.err h

theorem not_succeeded_of_busy {s : State} (busy : s.status.state = .busy) : ¬s.Succeeded :=
  fun ok => nomatch busy.symm.trans ok.state

/-- A raise of `UNCOMPRESS` is final. -/
theorem not_succeeded_of_malformed {s v : State} {c : Cause} {k : Nat} (quiet : s.host = []) (wet : s.dec.dry = false)
    (run : steps k (s.malformed c) = .next v) : ¬v.Succeeded := by
  rw [steps_of_done ((s.malformed_host c).trans quiet) (s.malformed_state c), Host.Outcome.next.injEq] at run
  intro ok
  have err := ok.err
  rw [← run, State.malformed_status, wet] at err
  cases err

/-- A run with at least one step begins with a step. -/
theorem exists_step_of_steps {k : Nat} {s v : State} (run : steps (k + 1) s = .next v) :
    ∃ t, step s = .next t ∧ steps k t = .next v := by
  rw [steps] at run
  split at run
  · rename_i t one; exact ⟨t, one, run⟩
  all_goals cases run

theorem accepted_of_steps {k : Nat} {s v : State} (quiet : s.host = []) (busy : s.status.state = .busy)
    (act : s.activity = .tokens) (wet : s.dec.dry = false) (run : steps k s = .next v) (ok : v.Succeeded) :
    Accepted s := by
  induction k generalizing s with
  | zero => cases run; exact absurd ok (not_succeeded_of_busy busy)
  | succ k ih =>
    obtain ⟨t, one, rest⟩ := exists_step_of_steps run
    cases (step_next_iff quiet busy).mp one with
    | token _ more dec passes =>
      obtain ⟨-, -, -, -, -, dry, -⟩ := tokenAdvance_bounds (decodeToken_space dec) passes
      exact .token more dec passes (ih quiet busy act (dry.trans wet) rest)
    | @tokenFailed _ _ _ d _ _ _ bad =>
      refine absurd ok (not_succeeded_of_malformed (s := { s with dec := d }) quiet ?_ rest)
      rw [(tokenFailure_regs bad).2]; exact wet
    | tokenRejected => exact absurd ok (not_succeeded_of_malformed (s := s.loadTag) quiet wet rest)
    | endOfStream _ last =>
      rcases s.endOfStream_cases with ⟨full, -, -⟩ | ⟨full, -, -⟩ | ⟨-, e⟩
      · exact .last last full
      · exact .last last full
      · rw [e] at rest; exact absurd ok (not_succeeded_of_malformed quiet wet rest)
    | header other | headerRejected other | scan other | complete other => simp [act] at other

/-- `UNCOMPRESS` of `s` after its header of `c` bytes, which declares `v` (40_varint R136). -/
def State.afterHeader (s : State) (v c : Nat) : State :=
  { s.beginCommand.startDecode false with
    dec := { s.dec with dry := false, ulen := v, ip := c, op := 0 }, vc := { vv := v, vk := c - 1 }
    activity := .tokens }

/-- A block that `UNCOMPRESS` accepts is a header and then tokens that pass their checks. -/
theorem Completes.accepted {s v : State} (ready : s.Ready) (h : Completes .uncompress s v) (ok : v.Succeeded) :
    ∃ L c rest, varintDecode s.headerBytes = .ok (L, c, rest) ∧ Accepted (s.afterHeader L c) := by
  obtain ⟨s₁, k, launch, run, -⟩ := h
  rw [exec_command rfl ready.waiting, Host.Outcome.next.injEq] at launch
  subst launch
  have quiet : (s.beginCommand.startDecode false).host = [] := ready.no_moves
  cases k with
  | zero => cases run; exact absurd ok (not_succeeded_of_busy rfl)
  | succ k =>
    obtain ⟨t, one, rest⟩ := exists_step_of_steps run
    cases (step_next_iff quiet rfl).mp one with
    | header _ dec => exact ⟨_, _, _, dec, accepted_of_steps quiet rfl rfl rfl rest ok⟩
    | headerRejected => exact absurd ok (not_succeeded_of_malformed quiet rfl rest)
    | token act | tokenFailed act | tokenRejected act | endOfStream act | scan act | complete act => cases act

/-! ## A run that ends in a raise -/

/-- From `u` the running `UNCOMPRESS` ends in a `MalformedInput` with one of the causes `p`, and no output. -/
def State.EndsMalformed (p : Cause → Prop) (u : State) : Prop :=
  ∃ k w c, steps k u = .next w ∧ w.status = { state := .done, err := .malformedInput, cause := c } ∧ w.olen = 0 ∧ p c

section
variable {p : Cause → Prop} {u : State}

theorem State.EndsMalformed.of_step {t : State} (h : t.EndsMalformed p) (one : step u = .next t) :
    u.EndsMalformed p := by
  obtain ⟨k, w, c, run, spec⟩ := h
  exact ⟨1 + k, w, c, (steps_add (steps_one one) k).trans run, spec⟩

theorem State.malformed_endsMalformed {c : Cause} (wet : u.dec.dry = false) (cause : p c) :
    (u.malformed c).EndsMalformed p :=
  ⟨0, _, c, rfl, by rw [State.malformed_status, wet]; rfl, u.malformed_olen c, cause⟩

theorem State.EndsMalformed.completes (ready : u.Ready) (h : (u.beginCommand.startDecode false).EndsMalformed p) :
    ∃ w, Completes .uncompress u w ∧ w.status.err = .malformedInput ∧ w.olen = 0 ∧ p w.status.cause := by
  obtain ⟨k, w, c, run, status, olen, cause⟩ := h
  exact ⟨w, ⟨_, k, exec_command rfl ready.waiting, run, by rw [status]⟩, by rw [status], olen, by rwa [status]⟩

end

/-! ## One operand read along another -/

/-- `u` is in the token loop of `UNCOMPRESS` where `s` is, and the operands of the two begin with the same `n` bytes, of
which some may still be unread. -/
structure Follows (n : Nat) (s u : State) : Prop where
  host : u.host = []
  busy : u.status.state = .busy
  act : u.activity = .tokens
  wet : u.dec.dry = false
  ip : u.dec.ip = s.dec.ip
  op : u.dec.op = s.dec.op
  ulen : u.dec.ulen = s.dec.ulen
  read : s.dec.ip ≤ n
  inInput : n ≤ u.ilen.toNat
  same : ∀ a < n, u.ibufByte a = s.ibufByte a

/-- After the same header. -/
theorem exists_follows_afterHeader {n L c : Nat} {rest : List Byte} {s u : State} (ready : u.Ready)
    (dec : varintDecode s.headerBytes = .ok (L, c, rest)) (read : c ≤ n) (inInput : n ≤ u.ilen.toNat)
    (same : ∀ a < n, u.ibufByte a = s.ibufByte a) :
    ∃ t, step (u.beginCommand.startDecode false) = .next t ∧ t.ilen = u.ilen ∧ Follows n (s.afterHeader L c) t := by
  obtain ⟨rest', dec'⟩ := exists_varintDecode_headerBytes dec (read.trans inInput) fun x below =>
    same x (below.trans_le read)
  have move := CoreStep.header (s := u.beginCommand.startDecode false) rfl dec'
  exact ⟨_, move.step ready.no_moves rfl, rfl, ready.no_moves, rfl, rfl, rfl, rfl, rfl, rfl, read, inInput, same⟩

section
variable {n : Nat} {s u : State} {i : Instr} {rest : List Byte}

/-- A token that passes its checks at the cursors of `s` passes them at those of `u`. -/
theorem Follows.passes (h : Follows n s u) {ilen : Nat} (ok : tokenFailure i ilen s.loadTag.dec = none) :
    tokenFailure i ilen u.loadTag.dec = none := by
  have cause := tokenFailure_congr (i := i) (ilen := ilen) (d := s.loadTag.dec) (e := u.loadTag.dec) h.ip h.op h.ulen
  rw [ok] at cause
  exact Option.map_eq_none_iff.mp cause

/-- It leaves the cursors where it leaves those of `s`. -/
theorem Follows.advances (h : Follows n s u) (i : Instr) :
    (tokenAdvance i u.loadTag.dec).ip = (s.afterToken i).dec.ip ∧
      (tokenAdvance i u.loadTag.dec).op = (s.afterToken i).dec.op :=
  tokenAdvance_cursors_congr i h.ip h.op

/-- A token of `s` within the common bytes is a token of `u`. -/
theorem Follows.token (h : Follows n s u) (dec : decodeToken s.tokenBytes = .ok (i, rest))
    (ok : tokenFailure i s.ilen.toNat s.loadTag.dec = none) (common : (s.afterToken i).dec.ip ≤ n) :
    ∃ t, step u = .next t ∧ t.ilen = u.ilen ∧ Follows n (s.afterToken i) t := by
  have tok := decodeToken_space dec
  have fields : s.dec.ip + (encode i).length ≤ n := (length_encode_le_tokenAdvance tok s.loadTag.dec).trans common
  obtain ⟨rest', dec'⟩ := exists_decodeToken_tokenBytes h.ip dec (fields.trans h.inInput) fun x below =>
    h.same x (below.trans_le fields)
  have ok' := h.passes (tokenFailure_none_of_le tok ok (common.trans h.inInput))
  obtain ⟨-, -, -, -, ulen, -, -⟩ := tokenAdvance_bounds tok ok
  obtain ⟨moves, inInput, -, -, ulen', dry', -⟩ := tokenAdvance_bounds tok ok'
  obtain ⟨ip, op⟩ := h.advances i
  have more : u.dec.ip < u.ilen.toNat := by have start : u.loadTag.dec.ip = u.dec.ip := rfl; omega
  have move := CoreStep.token h.act more dec' ok'
  exact ⟨_, move.step h.host h.busy, rfl, h.host, h.busy, h.act, dry'.trans h.wet, ip, op,
    (ulen'.trans h.ulen).trans ulen.symm, common, h.inInput, h.same⟩

/-! ## A block with bytes after it (R217) -/

/-- With the output complete the next token fails, whatever it is. -/
theorem Follows.trailing (h : Follows n s u) (full : s.dec.op = s.dec.ulen) (more : s.dec.ip < u.ilen.toNat) :
    u.EndsMalformed TrailingCause := by
  have full' : u.loadTag.dec.op = u.loadTag.dec.ulen := h.op.trans (full.trans h.ulen.symm)
  obtain ⟨t, move⟩ := exists_coreStep (s := u) fun encode => by simp [h.act] at encode
  refine State.EndsMalformed.of_step ?_ (move.step h.host h.busy)
  cases move with
  | token _ _ dec ok =>
    obtain ⟨-, -, op, fits, -⟩ := tokenAdvance_bounds (decodeToken_space dec) ok
    omega
  | tokenFailed _ _ dec bad =>
    refine State.malformed_endsMalformed ?_ (tokenFailure_trailingCause (decodeToken_space dec) full' bad)
    rw [(tokenFailure_regs bad).2]; exact h.wet
  | tokenRejected => exact State.malformed_endsMalformed h.wet (.inr (.inl rfl))
  | endOfStream _ last => rw [h.ip] at last; omega
  | header other | headerRejected other | scan other | complete other => simp [h.act] at other

/-- An operand that goes on after an accepted block is read like that block, and then fails. -/
theorem Accepted.trailing (h : Accepted s) : ∀ {u : State}, Follows s.ilen.toNat s u → s.ilen.toNat < u.ilen.toNat →
    u.EndsMalformed TrailingCause := by
  induction h with
  | last _ full => intro u follows longer; exact follows.trailing full (follows.read.trans_lt longer)
  | token _ dec ok _ ih =>
    intro u follows longer
    obtain ⟨-, inInput, -⟩ := tokenAdvance_bounds (decodeToken_space dec) ok
    obtain ⟨t, one, ilen, next⟩ := follows.token dec ok inInput
    exact (ih next (by rw [ilen]; exact longer)).of_step one

/-! ## A block without its last byte (R226) -/

/-- What the cut operand still holds of a token decodes to that token, if it decodes at all. -/
theorem Follows.decodes_same {i' : Instr} {rest' : List Byte} (h : Follows n s u) (short : u.ilen.toNat = n)
    (longer : n < s.ilen.toNat) (dec : decodeToken s.tokenBytes = .ok (i, rest))
    (dec' : decodeToken u.tokenBytes = .ok (i', rest')) : i' = i := by
  obtain ⟨-, -, bytes⟩ := decodedInstructionReencodes .token _ rest' i' dec'
  have held : u.dec.ip + (encode i').length ≤ n := by
    have size := congrArg List.length bytes
    rw [List.length_append, State.tokenBytes, State.length_ibufRange] at size
    have one := (length_encode_of_token (decodeToken_space dec')).1
    omega
  obtain ⟨rest'', again⟩ := exists_decodeToken_tokenBytes h.ip.symm dec' (held.trans longer.le) fun x below =>
    (h.same x (below.trans_le held)).symm
  have same := dec.symm.trans again
  simp only [Except.ok.injEq, Prod.mk.injEq] at same
  exact same.1.symm

/-- The token of `s` that does not lie in the cut operand fails there for its length. -/
theorem Follows.cut (h : Follows n s u) (short : u.ilen.toNat = n) (last : s.ilen.toNat = n + 1)
    (dec : decodeToken s.tokenBytes = .ok (i, rest)) (ok : tokenFailure i s.ilen.toNat s.loadTag.dec = none)
    (beyond : n < (s.afterToken i).dec.ip) : u.EndsMalformed CutCause := by
  have tok := decodeToken_space dec
  have again {i' : Instr} {rest' : List Byte} : decodeToken u.tokenBytes = .ok (i', rest') → i' = i :=
    h.decodes_same short (by omega) dec
  obtain ⟨moves, inInput, -⟩ := tokenAdvance_bounds tok ok
  obtain ⟨t, move⟩ := exists_coreStep (s := u) fun encode => by simp [h.act] at encode
  refine State.EndsMalformed.of_step ?_ (move.step h.host h.busy)
  cases move with
  | token _ _ dec' ok' =>
    obtain rfl := again dec'
    obtain ⟨-, inCut, -⟩ := tokenAdvance_bounds tok ok'
    rw [(h.advances _).1, short] at inCut
    exact absurd beyond (Nat.not_lt.mpr inCut)
  | tokenFailed _ _ dec' bad =>
    obtain rfl := again dec'
    refine State.malformed_endsMalformed ?_ (tokenFailure_cutCause tok (h.passes ok) bad)
    rw [(tokenFailure_regs bad).2]; exact h.wet
  | tokenRejected => exact State.malformed_endsMalformed h.wet (.inr rfl)
  | endOfStream _ ended =>
    have start : s.loadTag.dec.ip = u.dec.ip := h.ip.symm
    omega
  | header other | headerRejected other | scan other | complete other => simp [h.act] at other

/-- The block without its last byte is read like the whole block up to the token that is cut. -/
theorem Accepted.cut (h : Accepted s) : ∀ {u : State}, Follows n s u → u.ilen.toNat = n → s.ilen.toNat = n + 1 →
    u.EndsMalformed CutCause := by
  induction h with
  | last ends =>
    intro u follows _ last
    have read := follows.read
    omega
  | @token s i _ _ dec ok _ ih =>
    intro u follows short last
    rcases Nat.lt_or_ge n (s.afterToken i).dec.ip with beyond | common
    · exact follows.cut short last dec ok beyond
    · obtain ⟨t, one, ilen, next⟩ := follows.token dec ok common
      exact (ih next (by rw [ilen]; exact short) last).of_step one

end

/-! ## From operand to operand -/

theorem State.length_input (s : State) : s.input.length = s.ilen.toNat := s.length_ibufRange _ _

/-- An operand that begins with another one has its bytes. -/
theorem ibufByte_of_isPrefix {s u : State} (h : s.input <+: u.input) :
    ∀ a < s.ilen.toNat, u.ibufByte a = s.ibufByte a := by
  intro a below
  have inside : a < s.input.length := by rwa [s.length_input]
  have byte := h.getElem inside
  simpa [State.input] using byte.symm

theorem varintDecode_headerBytes_le {s : State} {v c : Nat} {rest : List Byte}
    (dec : varintDecode s.headerBytes = .ok (v, c, rest)) : c ≤ s.ilen.toNat := by
  obtain ⟨-, -, fetched, -⟩ := varintDecode_bounds dec
  rw [s.length_headerBytes] at fetched
  exact fetched.trans (min_le_right _ _)

/-- Settles O37: the block is read as before, and then the output is complete and the input is not. -/
theorem trailingBytesAreRejected : Obligations.TrailingBytesAreRejected := by
  intro s v u extra ready ready' ends ok nonempty input
  obtain ⟨L, c, rest, dec, accepted⟩ := ends.accepted ready ok
  have same := ibufByte_of_isPrefix (s := s) (u := u) ⟨extra, input.symm⟩
  have longer : s.ilen.toNat < u.ilen.toNat := by
    rw [← s.length_input, ← u.length_input, input, List.length_append]
    exact Nat.lt_add_of_pos_right (List.length_pos_of_ne_nil nonempty)
  obtain ⟨t, one, ilen, follows⟩ := exists_follows_afterHeader ready' dec (varintDecode_headerBytes_le dec) longer.le
    same
  exact ((accepted.trailing follows (by rw [ilen]; exact longer)).of_step one).completes ready'

/-! ## A block without tokens (R226) -/

theorem State.headerBytes_eq_input {s : State} (short : s.ilen.toNat ≤ 5) : s.headerBytes = s.input := by
  rw [s.headerBytes_eq_take, List.take_of_length_le (by rwa [s.length_input])]

/-- All bytes of a header but the last are continuation bytes, so without the last the loop runs out of bytes. -/
theorem varintDecodeLoop_dropLast {vk vv v c : Nat} {bs : List Byte}
    (dec : varintDecodeLoop vk vv bs = .ok (v, c, [])) :
    varintDecodeLoop vk vv bs.dropLast = .error .varintTruncated := by
  induction bs generalizing vk vv with
  | nil => cases dec
  | cons b bs ih =>
    cases bs with
    | nil => rfl
    | cons b' bs =>
      rw [List.dropLast_cons_cons, varintDecodeLoop]
      rw [varintDecodeLoop] at dec
      split_ifs at dec ⊢
      · cases dec
      · exact ih dec

/-- A header that is all of the operand, read from it. -/
theorem varintDecode_input_of_whole {s : State} {v c : Nat} {rest : List Byte}
    (dec : varintDecode s.headerBytes = .ok (v, c, rest)) (whole : s.ilen.toNat = c) :
    varintDecode s.input = .ok (v, s.input.length, []) := by
  obtain ⟨-, five, -, -, bytes⟩ := varintDecode_bounds dec
  rw [State.headerBytes_eq_input (by omega)] at dec bytes
  have size := congrArg List.length bytes
  rw [List.length_append, length_varintBytes, s.length_input, whole] at size
  obtain rfl : rest = [] := List.length_eq_zero_iff.mp (by omega)
  rwa [s.length_input, whole]

/-- A header read from all of the operand is the one the fetch reads. -/
theorem varintDecode_headerBytes_whole {s : State} {v v' c : Nat} {rest : List Byte}
    (dec : varintDecode s.headerBytes = .ok (v, c, rest))
    (whole : varintDecode s.input = .ok (v', s.input.length, [])) : c = s.ilen.toNat := by
  have five := (varintDecode_bounds whole).2.1
  rw [s.length_input] at five whole
  rw [State.headerBytes_eq_input five, whole] at dec
  simp only [Except.ok.injEq, Prod.mk.injEq] at dec
  exact dec.2.1.symm

/-- A block that ends with its header declares no output. -/
theorem Accepted.no_output_of_no_tokens {s : State} {L c : Nat} (h : Accepted (s.afterHeader L c))
    (whole : s.ilen.toNat = c) : L = 0 := by
  cases h with
  | last _ full => exact full.symm
  | token more => exact absurd more (Nat.not_lt.mpr whole.le)

/-- The header without its last byte is truncated. -/
theorem cutHeader_endsMalformed {s u : State} {v c : Nat} {rest : List Byte} (ready : u.Ready)
    (dec : varintDecode s.headerBytes = .ok (v, c, rest)) (whole : s.ilen.toNat = c)
    (input : u.input = s.input.dropLast) : (u.beginCommand.startDecode false).EndsMalformed (· = .varintTruncated) := by
  have all := varintDecode_input_of_whole dec whole
  have five := (varintDecode_bounds dec).2.1
  have short : u.ilen.toNat ≤ 5 := by rw [← u.length_input, input, List.length_dropLast, s.length_input]; omega
  have cut : varintDecode u.headerBytes = .error .varintTruncated := by
    rw [State.headerBytes_eq_input short, input]; exact varintDecodeLoop_dropLast all
  have move := CoreStep.headerRejected (s := u.beginCommand.startDecode false) rfl cut
  exact State.EndsMalformed.of_step (State.malformed_endsMalformed rfl rfl) (move.step ready.no_moves rfl)

/-- Settles O36: the header of a block without tokens is cut, else the last token is. -/
theorem truncatedBlockIsRejected : Obligations.TruncatedBlockIsRejected := by
  intro s v u ready ready' ends ok input
  obtain ⟨L, c, rest, dec, accepted⟩ := ends.accepted ready ok
  have pos := (varintDecode_bounds dec).1
  rcases Nat.lt_or_eq_of_le (varintDecode_headerBytes_le dec) with tokens | headerOnly
  · have noWhole : varintDecode s.input ≠ .ok (0, s.input.length, []) := fun whole =>
      absurd (varintDecode_headerBytes_whole dec whole) tokens.ne
    have short : u.ilen.toNat = s.ilen.toNat - 1 := by
      rw [← u.length_input, input, List.length_dropLast, s.length_input]
    have same := ibufByte_of_isPrefix (s := u) (u := s) (input ▸ s.input.dropLast_prefix)
    obtain ⟨t, one, ilen, follows⟩ := exists_follows_afterHeader ready' dec (n := u.ilen.toNat) (by omega) le_rfl
      fun a below => (same a below).symm
    have last : s.ilen.toNat = u.ilen.toNat + 1 := by omega
    simp only [if_neg noWhole]
    exact ((accepted.cut follows (by rw [ilen]) last).of_step one).completes ready'
  · obtain rfl := accepted.no_output_of_no_tokens headerOnly.symm
    simp only [if_pos (varintDecode_input_of_whole dec headerOnly.symm)]
    exact (cutHeader_endsMalformed ready' dec headerOnly.symm input).completes ready'

end Sys2Proof.Machine
end

section
/-! `ULEN` and `VALIDATE`: the header that `ULEN` answers is the one `UNCOMPRESS` reads, and `VALIDATE` runs beside
`UNCOMPRESS` on the same input, step by step, to the same verdict (44_peek_validate R240 to R245). -/

namespace Sys2Proof.Machine

/-! ## `ULEN` (R240) -/

/-- A header is rejected for one of three causes, and the raise reports that one (60_exceptions R262). -/
theorem causeOf_varintDecode_error {bs : List Byte} {e : DecodeError} (dec : varintDecode bs = .error e) :
    (e = .varintTruncated ∧ causeOf e = .varintTruncated) ∨ (e = .varintTooLong ∧ causeOf e = .varintTooLong) ∨
      (e = .varintOverflow ∧ causeOf e = .varintOverflow) := by
  rcases decodeHeader_error (bs := bs) (by rw [decodeHeader, dec]) with rfl | rfl | rfl
  · exact .inl ⟨rfl, rfl⟩
  · exact .inr (.inl ⟨rfl, rfl⟩)
  · exact .inr (.inr ⟨rfl, rfl⟩)

/-- Settles O20: the two ends of the launch. -/
theorem ulenAnswersTheHeader : Obligations.UlenAnswersTheHeader := by
  intro s waiting
  have launch : exec .ulen s = .next s.beginCommand.peekLength := exec_command rfl waiting
  refine ⟨fun v c rest dec => ?_, fun e dec => ?_⟩
  · rw [State.peekLength_ok (s := s.beginCommand) dec] at launch
    exact ⟨_, launch, rfl, rfl, rfl, rfl⟩
  · rw [State.peekLength_error (s := s.beginCommand) dec] at launch
    exact ⟨_, causeOf e, launch, causeOf_varintDecode_error dec, rfl⟩

/-! ## The length `UNCOMPRESS` declares (R241) -/

/-- What `UNCOMPRESS` of the operand of `s` holds in `t` of the length its header declares: nothing before `HDR`, then
`ulen`, and after a success `OLEN`. -/
structure DeclaredLength (s t : State) : Prop where
  header : t.status.state = .busy → t.activity = .header → t.headerBytes = s.headerBytes
  tokens : t.status.state = .busy → t.activity = .tokens →
    ∃ c rest, varintDecode s.headerBytes = .ok (t.dec.ulen, c, rest)
  answer : t.Succeeded → ∃ L c rest, varintDecode s.headerBytes = .ok (L, c, rest) ∧ t.olen = BitVec.ofNat 64 L

/-- A raise of `UNCOMPRESS` declares nothing. -/
theorem declaredLength_malformed (s : State) {t : State} (wet : t.dec.dry = false) (c : Cause) :
    DeclaredLength s (t.malformed c) where
  header busy := by simp at busy
  tokens busy := by simp at busy
  answer ok := absurd ok.err (by simp [State.malformed_status, wet])

theorem DeclaredLength.step {s t u : State} (h : DeclaredLength s t) (under : Uncompressing s t)
    (busy : t.status.state = .busy) (move : CoreStep t u) : DeclaredLength s u := by
  cases move with
  | header act dec =>
    rw [h.header busy act] at dec
    exact ⟨fun _ => nofun, fun _ _ => ⟨_, _, dec⟩, fun ok => absurd ok (not_succeeded_of_busy busy)⟩
  | token act _ dec ok =>
    obtain ⟨-, -, -, -, ulen, -, -⟩ := tokenAdvance_bounds (decodeToken_space dec) ok
    refine ⟨fun _ other => by simp [act] at other, fun _ _ => ?_, fun ok => absurd ok (not_succeeded_of_busy busy)⟩
    exact ulen ▸ h.tokens busy act
  | headerRejected => exact declaredLength_malformed s under.wet _
  | tokenFailed _ _ _ bad => exact declaredLength_malformed s (by rw [(tokenFailure_regs bad).2]; exact under.wet) _
  | tokenRejected => exact declaredLength_malformed s (t := t.loadTag) under.wet _
  | endOfStream act =>
    rcases t.endOfStream_cases with ⟨-, dry, -⟩ | ⟨-, -, e⟩ | ⟨-, e⟩
    · simp [under.wet] at dry
    · obtain ⟨c, rest, dec⟩ := h.tokens busy act
      rw [e]
      exact ⟨nofun, nofun, fun _ => ⟨_, c, rest, dec, rfl⟩⟩
    · rw [e]; exact declaredLength_malformed s under.wet _
  | scan act | complete act => exact absurd act under.decoding

theorem Completes.declaredLength {s t : State} (ready : s.Ready) (h : Completes .uncompress s t) :
    DeclaredLength s t := by
  have launched : DeclaredLength s (commandBody .uncompress s.beginCommand) :=
    ⟨fun _ _ => rfl, fun _ => nofun, fun ok => absurd ok (not_succeeded_of_busy rfl)⟩
  exact (h.induction (p := fun t => Uncompressing s t ∧ DeclaredLength s t) rfl ready
    ⟨⟨rfl, rfl, rfl, nofun, rfl, .inl rfl⟩, launched⟩
    fun _ _ busy ⟨under, declared⟩ move => ⟨under.step move, declared.step under busy move⟩).2

/-- Settles O35: both read the same header, and its value fits both results. -/
theorem ulenForetellsUncompress : Obligations.UlenForetellsUncompress := by
  intro s v ready ends ok
  obtain ⟨L, c, rest, dec, olen⟩ := (ends.declaredLength ready).answer ok
  obtain ⟨-, -, -, word, -⟩ := varintDecode_bounds dec
  obtain ⟨t, launch, ok', result, -⟩ := (ulenAnswersTheHeader s ready.waiting).1 L c rest dec
  refine ⟨t, ⟨t, 0, launch, rfl, ok'.state⟩, ok', ?_⟩
  rw [result, olen, BitVec.toNat_ofNat, BitVec.toNat_ofNat, Nat.mod_eq_of_lt word, Nat.mod_eq_of_lt (by omega)]

/-! ## `VALIDATE` beside `UNCOMPRESS` (R242, R243, R245) -/

/-- The dry run of the same body at the same point, over an `OBUF` it leaves alone (43_decoder R221). -/
def State.dryTwin (s : State) (obuf : Memory) : State := { s with dec := { s.dec with dry := true }, obuf := obuf }

/-- `UNCOMPRESS` has ended in `s` and `VALIDATE` in `v`, with the same verdict on the input. -/
structure SameVerdict (obuf : Memory) (s v : State) (valid : Bool) : Prop where
  done : s.status.state = .done
  err : s.status.err = if valid then .ok else .malformedInput
  succeeded : v.Succeeded
  olen : v.olen = 0
  result : v.result = if valid then 1 else 0
  obuf_eq : v.obuf = obuf

/-- `UNCOMPRESS` in `s` and `VALIDATE` in `v` run at the same point, or both have ended with the same verdict. -/
inductive BesideDryRun (obuf : Memory) (s v : State) : Prop
  | running (busy : s.status.state = .busy) (ok : s.status.err = .ok) (decoding : s.activity ≠ .encode)
      (wet : s.dec.dry = false) (twin : v = s.dryTwin obuf)
  | ended (valid : Bool) (verdict : SameVerdict obuf s v valid)

section
variable {s t v : State} {obuf : Memory}

/-- A raise ends both: `VALIDATE` converts it to the answer 0 (60_exceptions R280). -/
theorem besideDryRun_malformed (wet : s.dec.dry = false) (c : Cause) :
    BesideDryRun obuf (s.malformed c) ((s.dryTwin obuf).malformed c) := by
  refine .ended false ⟨s.malformed_state c, ?_, rfl, rfl, rfl, rfl⟩
  rw [State.malformed_status, wet]; rfl

theorem besideDryRun_endOfStream (ok : s.status.err = .ok) (wet : s.dec.dry = false) :
    BesideDryRun obuf s.endOfStream (s.dryTwin obuf).endOfStream := by
  have twin : (s.dryTwin obuf).endOfStream =
      if s.dec.op = s.dec.ulen then (s.dryTwin obuf).finishValidate true
      else (s.dryTwin obuf).malformed .lengthMismatch := rfl
  rcases s.endOfStream_cases with ⟨-, dry, -⟩ | ⟨full, -, e⟩ | ⟨short, e⟩
  · simp [wet] at dry
  · rw [twin, if_pos full, e]
    exact .ended true ⟨rfl, ok, rfl, rfl, rfl, rfl⟩
  · rw [twin, if_neg short, e]
    exact besideDryRun_malformed wet _

/-- The dry run checks a token alike. -/
theorem State.tokenFailure_dryTwin (s : State) (obuf : Memory) (i : Instr) :
    tokenFailure i (s.dryTwin obuf).ilen.toNat (s.dryTwin obuf).loadTag.dec =
      (tokenFailure i s.ilen.toNat s.loadTag.dec).map fun r => (r.1, { r.2 with dry := true }) :=
  tokenFailure_setDry i _ s.loadTag.dec true

theorem State.tokenAdvance_dryTwin (s : State) (obuf : Memory) (i : Instr) :
    tokenAdvance i (s.dryTwin obuf).loadTag.dec = { tokenAdvance i s.loadTag.dec with dry := true } :=
  tokenAdvance_setDry i s.loadTag.dec true

/-- The dry run makes the move the real one makes: no check reads `dry` or the output (43_decoder R221). -/
theorem CoreStep.dryTwin (busy : s.status.state = .busy) (ok : s.status.err = .ok) (decoding : s.activity ≠ .encode)
    (wet : s.dec.dry = false) (move : CoreStep s t) :
    ∃ v, CoreStep (s.dryTwin obuf) v ∧ BesideDryRun obuf t v := by
  have failure := s.tokenFailure_dryTwin obuf
  cases move with
  | header act dec => exact ⟨_, .header act dec, .running busy ok nofun wet rfl⟩
  | headerRejected act dec => exact ⟨_, .headerRejected act dec, besideDryRun_malformed wet _⟩
  | @token i _ act more dec passes =>
    obtain ⟨-, -, -, -, -, dry, -⟩ := tokenAdvance_bounds (decodeToken_space dec) passes
    refine ⟨_, .token act more dec (by rw [failure, passes]; rfl), .running busy ok decoding (dry.trans wet) ?_⟩
    rw [s.tokenAdvance_dryTwin]; rfl
  | @tokenFailed _ _ _ d act more dec bad =>
    have wet' : d.dry = false := by rw [(tokenFailure_regs bad).2]; exact wet
    exact ⟨_, .tokenFailed act more dec (by rw [failure, bad]; rfl),
      besideDryRun_malformed (s := { s with dec := d }) wet' _⟩
  | tokenRejected act more dec =>
    exact ⟨_, .tokenRejected act more dec, besideDryRun_malformed (s := s.loadTag) wet _⟩
  | endOfStream act last => exact ⟨_, .endOfStream act last, besideDryRun_endOfStream ok wet⟩
  | scan act | complete act => exact absurd act decoding

/-- Both side by side, and their hosts leave them alone. -/
def QuietPair (obuf : Memory) (s v : State) : Prop := s.host = [] ∧ v.host = [] ∧ BesideDryRun obuf s v

theorem QuietPair.step (h : QuietPair obuf s v) (one : step s = .next t) :
    ∃ u, step v = .next u ∧ QuietPair obuf t u := by
  obtain ⟨quiet, quiet', beside⟩ := h
  cases beside with
  | running busy ok decoding wet twin =>
    have move := (step_next_iff quiet busy).mp one
    obtain ⟨u, move', next⟩ := move.dryTwin (obuf := obuf) busy ok decoding wet
    subst twin
    exact ⟨u, move'.step quiet' busy, move.host.trans quiet, move'.host.trans quiet', next⟩
  | ended valid verdict =>
    rw [step_waiting quiet (by simp [verdict.done]), Host.Outcome.next.injEq] at one
    subst one
    exact ⟨v, step_waiting quiet' (by simp [verdict.succeeded.state]), quiet, quiet', .ended valid verdict⟩

end

/-- Launched on the same input both commands complete, with one verdict. -/
theorem exists_sameVerdict {s : State} (ready : s.Ready) :
    ∃ t v valid, Completes .validate s t ∧ Completes .uncompress s v ∧ SameVerdict s.obuf v t valid := by
  obtain ⟨s₁, v, launch, run, done⟩ := decodeCommandsTerminate s .uncompress ready (.inl rfl)
  have ends : Completes .uncompress s v := ⟨s₁, _, launch, run, done⟩
  rw [exec_command rfl ready.waiting, Host.Outcome.next.injEq] at launch
  subst launch
  have start : QuietPair s.obuf (commandBody .uncompress s.beginCommand) (commandBody .validate s.beginCommand) :=
    ⟨ready.no_moves, ready.no_moves, .running rfl rfl nofun rfl rfl⟩
  obtain ⟨t, run', -, -, beside⟩ := steps_simulation (fun _ _ _ pair => pair.step) start run
  cases beside with
  | running busy => simp [done] at busy
  | ended valid verdict =>
    exact ⟨t, v, valid, ⟨_, _, exec_command rfl ready.waiting, run', verdict.succeeded.state⟩, ends, verdict⟩

/-- Settles O33: the end of `VALIDATE` beside `UNCOMPRESS`, whatever the verdict. -/
theorem validateNeverFails : Obligations.ValidateNeverFails := by
  intro s ready
  obtain ⟨t, v, valid, ends, -, verdict⟩ := exists_sameVerdict ready
  refine ⟨t, ends, verdict.succeeded, verdict.olen, ?_, verdict.obuf_eq⟩
  cases valid
  · exact .inl verdict.result
  · exact .inr verdict.result

/-- Settles O34: the two ends of one verdict. -/
theorem validateAgreesWithUncompress : Obligations.ValidateAgreesWithUncompress := by
  intro s ready
  obtain ⟨t, v, valid, ends, ends', verdict⟩ := exists_sameVerdict ready
  refine ⟨t, v, ends, ends', ?_⟩
  rw [verdict.result, verdict.err]
  cases valid <;> simp

end Sys2Proof.Machine
end

section
/-! The word of `STATUS`: its three fields stand apart, and a code stands for one state, error or cause (10_state R23;
60_exceptions R264, R265). -/

namespace Sys2Proof.Machine

/-! ## The codes tell apart what they stand for: the number of a code is the place of its name in the table -/

theorem CmdState.code_injective : Function.Injective CmdState.code :=
  Function.LeftInverse.injective (g := fun c => CmdState.ofNat c.toNat) fun state => by cases state <;> rfl

theorem Err.code_injective : Function.Injective Err.code :=
  Function.LeftInverse.injective (g := fun c => Err.ofNat c.toNat) fun err => by cases err <;> rfl

theorem Cause.code_injective : Function.Injective Cause.code :=
  Function.LeftInverse.injective (g := fun c => Cause.ofNat c.toNat) fun cause => by cases cause <;> rfl

/-! ## The fields of the word (R23) -/

section
variable (st : Status)

@[simp] theorem Status.word_state : st.word.extractLsb' 0 2 = st.state.code :=
  BitVec.extractLsb'_append_eq_right

@[simp] theorem Status.word_err : st.word.extractLsb' 2 2 = st.err.code := by
  rw [Status.word, BitVec.extractLsb'_append_eq_of_le (Nat.le_refl 2)]
  exact BitVec.extractLsb'_append_eq_right

@[simp] theorem Status.word_cause : st.word.extractLsb' 4 4 = st.cause.code := by
  rw [Status.word, BitVec.extractLsb'_append_eq_of_le (by decide)]
  exact BitVec.extractLsb'_append_eq_left

end

/-- Settles O9: the fields of the word, and that each code is the code of one name only. -/
theorem statusWordHoldsItsFields : Obligations.StatusWordHoldsItsFields := by
  intro st
  have state (x : CmdState) : st.state.code = x.code ↔ st.state = x := CmdState.code_injective.eq_iff
  have err (x : Err) : st.err.code = x.code ↔ st.err = x := Err.code_injective.eq_iff
  have cause (x : Cause) : st.cause.code = x.code ↔ st.cause = x := Cause.code_injective.eq_iff
  exact ⟨st.word_state, st.word_err, st.word_cause,
    state .idle, state .busy, state .done,
    err .ok, err .inputTooLarge, err .malformedInput,
    cause .none, cause .varintTruncated, cause .varintTooLong, cause .varintOverflow, cause .fieldTruncated,
    cause .literalTruncated, cause .offsetZero, cause .offsetRange, cause .outputOverrun, cause .lengthMismatch⟩

end Sys2Proof.Machine
end

section
/-! The reset event: whatever the CORE was doing, it leaves the registers of the reset state (70_reset R300, R302). -/

namespace Sys2Proof.Machine

/-- A reset event at the front of the schedule asks nothing of the state: it is taken while `BUSY` as at rest. -/
theorem step_reset {s : State} {ms : List HostMove} (move : s.host = .reset :: ms) :
    step s = .next ({ s with host := ms } : State).resetEvent := by
  rw [step_of_move move, State.hostStep]

/-- Settles O15: the step is the reset event, and the registers are those of the reset state. -/
theorem resetStopsAnyCommand : Obligations.ResetStopsAnyCommand := by
  intro s ms move
  obtain ⟨status, -, ilen, olen, result, -⟩ := resetLeavesIdleRegisters
  exact ⟨_, step_reset move, status, ilen, olen, result, State.resetEvent_host _⟩

end Sys2Proof.Machine
end
